-- ==== Sys2Proof/Word.lean ====
section
/-! DEFINITION. The word types of the block: bytes, 32-bit bus words and 512-bit registers. -/

namespace Sys2Proof

/-- A byte of BUF or of a byte string (00_scope.md R12). -/
abbrev Byte := BitVec 8

/-- A 32-bit MMIO word or command word (20_memory.md R61, 30_encoding.md R90). -/
abbrev Word32 := BitVec 32

/-- The contents of a W-bit register, W = 512: an unsigned integer (00_scope.md R9, 10_state.md R34). -/
abbrev Big := BitVec 512

/-- A byte string, indexed from 0 (00_scope.md R12). -/
abbrev Bytes := List Byte

end Sys2Proof
end

