-- ==== Sys2Proof/Syntax.lean ====
section
/-! DEFINITION. The commands of the block as syntax: one constructor per row of spec/opcode_table.json. -/

namespace Sys2Proof

/-- A register number 0..15 naming V0..V15 (30_encoding.md R93). -/
abbrev Reg := Fin 16

/-- The modulus select MS: 0 names C.P, 1 names C.Q (30_encoding.md R91, R93). -/
inductive ModSel where
  | p
  | q
  deriving DecidableEq, Repr, Inhabited

/-- The byte order select LE: 0 big-endian, 1 little-endian (30_encoding.md R91, R93). -/
inductive ByteOrder where
  | be
  | le
  deriving DecidableEq, Repr, Inhabited

/-- The commands of 30_encoding.md R95, with the fields each one uses. A field that names a point may hold any
register number here: evenness is an operand check of the command (30_encoding.md R93, 10_state.md R35). -/
inductive Instr where
  | nop
  | mov (rd ra : Reg)
  | ldi (rd : Reg) (imm : BitVec 16)
  | ldb (rd : Reg) (order : ByteOrder)
  | stb (ra : Reg) (order : ByteOrder)
  | mred (rd ra : Reg) (ms : ModSel)
  | mrednz (rd ra : Reg) (ms : ModSel)
  | madd (rd ra rb : Reg) (ms : ModSel)
  | msub (rd ra rb : Reg) (ms : ModSel)
  | mmul (rd ra rb : Reg) (ms : ModSel)
  | minv (rd ra : Reg) (ms : ModSel)
  | rchk (ra : Reg) (ms : ModSel)
  | cmpeq (ra rb : Reg)
  | ecmul (rd ra rb : Reg)
  | ecmulb (rd ra : Reg)
  | ecadd (rd ra rb : Reg)
  | toedw (rd ra : Reg)
  | towei (rd ra : Reg)
  | kdfx (ra : Reg)
  | htag (ra : Reg)
  | bcmp
  deriving DecidableEq, Repr

end Sys2Proof
end

