-- ==== Sys2Proof/Config.lean ====
section
/-! DEFINITION. What a platform fixes once (00_scope.md R10): the window's address, the two external engines, the host's
digest order. Each open parameter is an opaque constant: nothing can be proved of its value. -/

namespace Sys2Proof.Config

/-- BUF_SIZE, the bytes of the operand buffer (00_scope.md R9). -/
def bufSize : Nat := 8192

/-- MAXLD, the largest byte count of LDB and STB (00_scope.md R9). -/
def maxLd : Nat := 64

/-- HLEN, the bytes of a hash result (00_scope.md R9). -/
def hashLen : Nat := 32

/-- ID_VALUE, what the ID register reads (00_scope.md R9, 10_state.md R21). -/
def idValue : Word32 := 0x47450100#32

/-- RETRY_CAP, the host's bound on its two retry loops (00_scope.md R9, 45_host_sequences.md R240). -/
def retryCap : Nat := 1000

/-- Bits [31:14] of BASE. BASE is a 16 KiB aligned 32-bit address that the platform chooses (00_scope.md R10); the
lower 14 bits are then 0, so its upper 18 bits are all of it. -/
opaque basePage : BitVec 18

/-- BASE, where the platform places the block's window (00_scope.md R10). -/
def base : BitVec 32 := basePage ++ 0#14

/-- The engine port's Curve: the curve registers the block hands to the engine (40_curve_engine.md R120). -/
structure Curve where
  p : Nat
  q : Nat
  a : Nat
  b : Nat
  gx : Nat
  gy : Nat
  deriving DecidableEq, Repr

/-- The engine port's Point: two coordinates, each below 2^512 by its type (40_curve_engine.md R120, 00_scope.md R16). -/
structure Point where
  x : Big
  y : Big
  deriving DecidableEq, Repr, Inhabited

/-- The engine port's Answer (40_curve_engine.md R120, R123). -/
inductive Answer where
  | ok (pt : Point)
  | fail
  deriving DecidableEq, Repr, Inhabited

/-- The engine port: a pair of total pure functions (40_curve_engine.md R120). -/
structure Engine where
  mul : Curve → Nat → Point → Answer
  add : Curve → Point → Point → Answer
  deriving Inhabited

/-- The hash port: 32 bytes for every byte string (43_kdf_ecies.md R190). -/
abbrev Hash := Bytes → Vector Byte 32

/-- ENGINE, the external curve engine (00_scope.md R10). Its answers, inside and outside the contract of
40_curve_engine.md R121, are free values of the model (R122). -/
opaque engine : Engine

/-- HASH, the external hash engine (00_scope.md R10). -/
opaque hash : Hash

/-- DIGEST_ORDER, how host Sign and Verify read a digest (00_scope.md R10, 45_host_sequences.md R243). -/
opaque digestOrder : ByteOrder

end Sys2Proof.Config
end

