-- ==== Sys2Proof/Machine/State.lean ====
section
/-! DEFINITION. The state of the block (10_state.md, 20_memory.md R64), the reasons a step can stop, and reset. -/

namespace Sys2Proof.Machine

/-- The reasons the machine stops with a fault: none. 60_exceptions.md R270: the block has command errors (ERRCODE) and
refused accesses (ACCERR) and no other failure, and "never halts, locks up or needs a reset after either". Safe: there
is no constructor, so nothing raises a fault. -/
inductive Fault
  deriving DecidableEq, Repr

/-- The reasons a step is refused. -/
inductive Refusal where
  /-- Raised by an arm of `exec` for a command that has no meaning yet; no arm raises it now. Safe: the machine stops. -/
  | notModelled (mnemonic : String)
  deriving DecidableEq, Repr

/-- The error codes of STATUS.ERRCODE that commands produce (60_exceptions.md R271); the values 9 to 15 never occur. -/
inductive ErrCode where
  | none
  | illegalCmd
  | illegalOperand
  | badModulus
  | notInvertible
  | unsupportedCurveForm
  | engineFail
  | length
  | operandRange
  deriving DecidableEq, Repr

/-- The sequencer: Idle, or Busy with the latched command word (10_state.md R36). -/
inductive Seq where
  | idle
  | busy (c : Word32)
  deriving DecidableEq, Repr

/-- The four flags of STATUS (10_state.md R33). -/
structure Flags where
  z : Bool
  eq : Bool
  inRange : Bool
  mz : Bool
  deriving DecidableEq, Repr

/-- The Edwards cache (EDV, EDS, EDT) (10_state.md R37, R32). -/
structure EdwardsCache where
  edv : Bool
  eds : Big
  edt : Big
  deriving DecidableEq, Repr

/-- The curve parameter registers (10_state.md R31). -/
structure CurveRegs where
  p : Big
  q : Big
  a : Big
  b : Big
  gx : Big
  gy : Big
  e : Big
  d : Big
  deriving DecidableEq, Repr

/-- BUF by byte offset (20_memory.md R64), in canonical form (`Memory.wf`): addresses strictly rising, no byte listed
that equals what an unlisted one reads as. -/
abbrev Memory := List Host.Cell

/-- What an access does: read a word or write one (20_memory.md R61). -/
inductive AccessOp where
  | read
  | write (data : Word32)
  deriving DecidableEq, Repr

/-- One host access on the bus: its physical address, its width in bits and its direction (20_memory.md R60, R61). -/
structure Access where
  addr : BitVec 32
  bits : Nat
  op : AccessOp
  deriving DecidableEq, Repr

/-- The atomic steps of 70_reset_and_hazards.md R310 that are still to come: a host access, a slot at which the command
in flight completes, or a hardware reset. -/
inductive Input where
  | access (a : Access)
  | completion
  | hardwareReset
  deriving DecidableEq, Repr

/-- The state of the machine. The fields `rdata` and `inputs` are the model's own; all others are the spec's. -/
structure State where
  /-- SEQ; STATUS.BUSY is 1 exactly in `busy` (10_state.md R36). -/
  seq : Seq
  /-- CTRL.IE (10_state.md R22). -/
  ie : Bool
  /-- CTRL.LOCK (10_state.md R22, R38). -/
  lock : Bool
  /-- STATUS.DONE (10_state.md R23). -/
  done : Bool
  /-- STATUS.ACCERR (10_state.md R23). -/
  accerr : Bool
  /-- STATUS.ERRCODE; STATUS.ERR is 1 exactly when it is not `none` (10_state.md R23). -/
  errcode : ErrCode
  /-- Z, EQ, IN, MZ (10_state.md R33). -/
  flags : Flags
  /-- EDV, EDS, EDT (10_state.md R37). -/
  cache : EdwardsCache
  /-- BUF_SRC (10_state.md R25). -/
  bufSrc : BitVec 16
  /-- BUF_DST (10_state.md R26). -/
  bufDst : BitVec 16
  /-- BUF_LEN (10_state.md R27). -/
  bufLen : BitVec 16
  /-- CMDCNT (10_state.md R28). -/
  cmdcnt : BitVec 32
  /-- CURVE_CFG.EDW (10_state.md R30). -/
  edw : Bool
  /-- P, Q, A, B, GX, GY, E, D (10_state.md R31). -/
  curve : CurveRegs
  /-- V0..V15 (10_state.md R34). -/
  v : Vector Big 16
  /-- BUF (20_memory.md R64). -/
  buf : Memory
  /-- The model's own: what the last read access of the window answered (20_memory.md R67, R68). -/
  rdata : Word32
  /-- The model's own: the atomic steps still to come, the next one first (70_reset_and_hazards.md R310). -/
  inputs : List Input
  deriving DecidableEq, Repr

/-- The state after a hardware reset (10_state.md R41). The read data and the inputs, the model's own, are 0 and none
(DESIGN CHOICE, log entries 1 and 5). -/
def State.reset : State where
  seq := .idle
  ie := false
  lock := false
  done := false
  accerr := false
  errcode := .none
  flags := ⟨false, false, false, false⟩
  cache := ⟨false, 0#512, 0#512⟩
  bufSrc := 0#16
  bufDst := 0#16
  bufLen := 0#16
  cmdcnt := 0#32
  edw := false
  curve := ⟨0#512, 0#512, 0#512, 0#512, 0#512, 0#512, 0#512, 0#512⟩
  v := Vector.replicate 16 0#512
  buf := []
  rdata := 0#32
  inputs := []

end Sys2Proof.Machine
end

