-- ==== Sys2Proof/Machine/Ops.lean ====
section
/-! DEFINITION. The shared operations: integers and byte strings (00_scope.md R11 to R13), BUF as memory
(20_memory.md R64), words of wide registers (20_memory.md R62), and completion, the one place where a command ends,
with or without error (60_exceptions.md R273, R274). -/

namespace Sys2Proof.Machine

/-! ### Integers (00_scope.md R11) -/

/-- `bitlen(v)`: the bits of v without leading zeros, 0 for 0. -/
def bitlen (v : Nat) : Nat := if v = 0 then 0 else Nat.log2 v + 1

/-- `ceil(a/b)` for b > 0. -/
def ceilDiv (a b : Nat) : Nat := (a + b - 1) / b

/-- `(a - b) mod m` as a Euclidean residue: never negative. -/
def subMod (a b m : Nat) : Nat := (((a : Int) - (b : Int)) % (m : Int)).toNat

/-- The extended Euclidean algorithm on remainders `r0`, `r1` with the coefficients `t0`, `t1`: the coefficient of the
last non-zero remainder. `fuel` bounds the number of divisions; more than `r1` is always enough. -/
def euclidCoeff : (fuel r0 r1 : Nat) → (t0 t1 : Int) → Int
  | 0, _, _, t0, _ => t0
  | fuel + 1, r0, r1, t0, t1 =>
    if r1 = 0 then t0 else euclidCoeff fuel r1 (r0 % r1) t1 (t0 - ((r0 / r1 : Nat) : Int) * t1)

/-- `inv_m(a)`: the unique x in [0, m) with (a * x) mod m = 1 mod m, when gcd(a mod m, m) = 1; `none` otherwise. How it
is found is not visible (41_field_arith.md R146; log entry 12). -/
def invMod (a m : Nat) : Option Nat :=
  if Nat.gcd (a % m) m = 1 then some ((euclidCoeff (m + 1) m (a % m) 0 1) % (m : Int)).toNat else none

/-- A non-negative integer below 2^512 as register contents (41_field_arith.md R149). -/
def toBig (n : Nat) : Big := BitVec.ofNat 512 n

/-! ### Byte strings (00_scope.md R13) -/

/-- `le_n(v)`: n bytes, the least significant first. -/
def leBytes : (n v : Nat) → Bytes
  | 0, _ => []
  | n + 1, v => BitVec.ofNat 8 v :: leBytes n (v / 256)

/-- `be_n(v)`: n bytes, the most significant first. -/
def beBytes (n v : Nat) : Bytes := (leBytes n v).reverse

/-- `int_le(s)`. -/
def intLE : Bytes → Nat
  | [] => 0
  | b :: s => b.toNat + 256 * intLE s

/-- `int_be(s)`. -/
def intBE (s : Bytes) : Nat := intLE s.reverse

/-- `be_n(v)` or `le_n(v)`, as LE selects (20_memory.md R65). -/
def toBytes : ByteOrder → (n v : Nat) → Bytes
  | .be, n, v => beBytes n v
  | .le, n, v => leBytes n v

/-- `int_be(s)` or `int_le(s)`, as LE selects (20_memory.md R65). -/
def ofBytes : ByteOrder → Bytes → Nat
  | .be, s => intBE s
  | .le, s => intLE s

/-- `s XOR t`, bytewise, of strings of one length (00_scope.md R12). -/
def xorBytes (s t : Bytes) : Bytes := List.zipWith (· ^^^ ·) s t

/-! ### BUF (20_memory.md R64) -/

/-- What a byte of BUF that is not listed reads as: 0x00, its value after either reset (10_state.md R41). -/
def Memory.unlisted : Byte := 0x00#8

/-- The byte of BUF at a byte offset. -/
def Memory.read : Memory → Nat → Byte
  | [], _ => Memory.unlisted
  | (x, c) :: rest, a => if x = a then c else Memory.read rest a

/-- The entry for one byte, or none where the byte is what an unlisted one reads as. -/
def Memory.entry (a : Nat) (b : Byte) : Memory := if b = Memory.unlisted then [] else [(a, b)]

/-- Replace one byte, keeping the addresses rising and listing only what differs from `unlisted`. -/
def Memory.put : Memory → Nat → Byte → Memory
  | [], a, b => Memory.entry a b
  | (x, c) :: rest, a, b =>
    if a < x then Memory.entry a b ++ (x, c) :: rest
    else if a = x then Memory.entry a b ++ rest
    else (x, c) :: Memory.put rest a b

/-- Write one byte of BUF. BUF has the offsets 0 to 8191 and no others (20_memory.md R64); every caller stays inside
(log entry 9). -/
def Memory.write (m : Memory) (a : Nat) (b : Byte) : Memory :=
  if a < Config.bufSize then m.put a b else m

/-- The canonical form: offsets of BUF, strictly rising, no entry equal to what an unlisted byte reads as. -/
abbrev Memory.wf (m : Memory) : Prop :=
  m.Pairwise (fun x y => x.1 < y.1) ∧ ∀ c ∈ m, c.1 < Config.bufSize ∧ c.2 ≠ Memory.unlisted

/-- `BufRead(off, n)` (00_scope.md R14). -/
def Memory.readBytes (m : Memory) : (off n : Nat) → Bytes
  | _, 0 => []
  | off, n + 1 => m.read off :: Memory.readBytes m (off + 1) n

/-- `BufWrite(off, s)` (00_scope.md R14). -/
def Memory.writeBytes : Memory → Nat → Bytes → Memory
  | m, _, [] => m
  | m, off, b :: s => Memory.writeBytes (m.write off b) (off + 1) s

/-- A region [off, off + n) lies in BUF; an empty region at the end does (20_memory.md R64). -/
def inBuf (off n : Nat) : Bool := decide (off + n ≤ Config.bufSize)

/-! ### Words of wide registers (20_memory.md R62) -/

/-- Word j of a register: its bits [32j+31:32j]. -/
def getWord (r : Big) (j : Fin 16) : Word32 := r.extractLsb' (32 * j.val) 32

/-- Replace word j of a register and keep the other 480 bits. -/
def setWord (r : Big) (j : Fin 16) (w : Word32) : Big :=
  (r &&& ~~~((0xFFFFFFFF#512) <<< (32 * j.val))) ||| ((w.setWidth 512) <<< (32 * j.val))

/-! ### Completion (60_exceptions.md R273, R274) -/

/-- What evaluating a command gives: an error code, or the state with all the command's writes made (00_scope.md R15). -/
abbrev Result := Except ErrCode State

/-- The completion effects of 60_exceptions.md R274 (2) to (5): ERRCODE, DONE, CMDCNT, BUSY. -/
def State.finish (s : State) (code : ErrCode) : State :=
  { s with errcode := code, done := true, cmdcnt := s.cmdcnt + 1#32, seq := .idle }

/-- The completion step (60_exceptions.md R274, 70_reset_and_hazards.md R311): a command that succeeded has its writes
and completes with code 0; one that raised an error has no other effect than completing with its code (R273). This is
the block's whole error mechanism: it has no trap entry and no return (R276, R277). -/
def State.complete (s : State) : Result → State
  | .ok t => t.finish .none
  | .error code => s.finish code

/-! ### The rest of STATUS -/

/-- STATUS.BUSY (10_state.md R36). -/
def State.busy (s : State) : Bool :=
  match s.seq with
  | .idle => false
  | .busy _ => true

/-- The interrupt output: CTRL.IE and STATUS.DONE at every instant (60_exceptions.md R280). -/
def State.irq (s : State) : Bool := s.ie && s.done

/-- The values of ERRCODE (60_exceptions.md R271). -/
def ErrCode.code : ErrCode → BitVec 4
  | .none => 0
  | .illegalCmd => 1
  | .illegalOperand => 2
  | .badModulus => 3
  | .notInvertible => 4
  | .unsupportedCurveForm => 5
  | .engineFail => 6
  | .length => 7
  | .operandRange => 8

end Sys2Proof.Machine
end

