-- ==== Sys2Proof/Machine/Operands.lean ====
section
/-! DEFINITION. The operands of commands: registers, points, moduli, BUF regions, ECIES coordinates
(30_encoding.md R93, R94; 10_state.md R34, R35). -/

namespace Sys2Proof.Machine

/-- `V[r]` (00_scope.md R14). -/
def State.getV (s : State) (r : Reg) : Big := s.v[r]

/-- `V[r]` as the integer it holds (41_field_arith.md R149). -/
def State.natV (s : State) (r : Reg) : Nat := (s.getV r).toNat

/-- `V[r] <- x` (00_scope.md R14). No register is hardwired or aliased (10_state.md R34). -/
def State.setV (s : State) (r : Reg) (x : Big) : State := { s with v := s.v.set r x }

/-- A field that names a point holds an even register number (10_state.md R35); the commands that have such a field check
it first (60_exceptions.md R272). -/
def pointReg (r : Reg) : Bool := r.val % 2 == 0

/-- The register after r: the y register of the pair whose x register is r (10_state.md R35; log entry 21). -/
def yReg (r : Reg) : Reg := r + 1

/-- The point in the pair (V[r], V[r+1]) (00_scope.md R16). -/
def State.getPoint (s : State) (r : Reg) : Config.Point := ⟨s.getV r, s.getV (yReg r)⟩

/-- `(V[r], V[r+1]) <- pt`. -/
def State.setPoint (s : State) (r : Reg) (pt : Config.Point) : State := (s.setV r pt.x).setV (yReg r) pt.y

/-- The modulus M that MS selects (41_field_arith.md R140). -/
def State.modulus (s : State) : ModSel → Nat
  | .p => s.curve.p.toNat
  | .q => s.curve.q.toNat

/-- The check that begins every command with a modulus: M = 0 is BAD_MODULUS (41_field_arith.md R140). -/
def State.withModulus (s : State) (ms : ModSel) (k : Nat → Result) : Result :=
  if s.modulus ms = 0 then .error .badModulus else k (s.modulus ms)

/-- The curve registers as the engine port takes them (40_curve_engine.md R120, R124). -/
def State.engineCurve (s : State) : Config.Curve :=
  ⟨s.curve.p.toNat, s.curve.q.toNat, s.curve.a.toNat, s.curve.b.toNat, s.curve.gx.toNat, s.curve.gy.toNat⟩

/-- The base point (GX, GY) (10_state.md R31). -/
def State.basePoint (s : State) : Config.Point := ⟨s.curve.gx, s.curve.gy⟩

/-- BUF_SRC as a byte offset (10_state.md R25). -/
def State.src (s : State) : Nat := s.bufSrc.toNat

/-- BUF_DST as a byte offset (10_state.md R26). -/
def State.dst (s : State) : Nat := s.bufDst.toNat

/-- BUF_LEN as a byte count (10_state.md R27). -/
def State.len (s : State) : Nat := s.bufLen.toNat

/-- `BufRead(off, n)` on the state. -/
def State.bufRead (s : State) (off n : Nat) : Bytes := s.buf.readBytes off n

/-- `BufWrite(off, b)` on the state. -/
def State.bufWrite (s : State) (off : Nat) (b : Bytes) : State := { s with buf := s.buf.writeBytes off b }

/-- A coordinate fits the 32 bytes of the ECIES scheme (43_kdf_ecies.md R193). -/
def fitsCoord (x : Nat) : Bool := decide (x < 2 ^ 256)

/-- IMM16 zero-extended to 512 bits (30_encoding.md R94). -/
def immBig (imm : BitVec 16) : Big := imm.setWidth 512

end Sys2Proof.Machine
end

