-- ==== Sys2Proof/Machine/Flags.lean ====
section
/-! DEFINITION. The four flags (10_state.md R33): the value each one is given, and the writes of them. -/

namespace Sys2Proof.Machine

/-- Z of a result: 1 if the 512-bit result is 0 (10_state.md R33). -/
def zeroFlag (x : Big) : Bool := x == 0#512

/-- EQ of two operands (10_state.md R33). -/
def eqFlag (x y : Big) : Bool := x == y

/-- EQ of two byte strings (43_kdf_ecies.md R197). -/
def eqBytesFlag (a b : Bytes) : Bool := a == b

/-- IN: 0 < x < m (10_state.md R33, 41_field_arith.md R147). -/
def inRangeFlag (x m : Nat) : Bool := decide (0 < x) && decide (x < m)

/-- MZ: the mask has at least one byte and all its bytes are 0x00 (43_kdf_ecies.md R194). -/
def allZero (m : Bytes) : Bool := !m.isEmpty && m.all (· == 0x00#8)

/-- `F.Z <- b`. -/
def State.setZ (s : State) (b : Bool) : State := { s with flags := { s.flags with z := b } }

/-- `F.EQ <- b`. -/
def State.setEQ (s : State) (b : Bool) : State := { s with flags := { s.flags with eq := b } }

/-- `F.IN <- b`. -/
def State.setIN (s : State) (b : Bool) : State := { s with flags := { s.flags with inRange := b } }

/-- `F.MZ <- b`. -/
def State.setMZ (s : State) (b : Bool) : State := { s with flags := { s.flags with mz := b } }

/-- `V[rd] <- x ; F.Z <- (x = 0)`, how every command that writes one register ends (41_field_arith.md R149). -/
def State.writeResult (s : State) (rd : Reg) (x : Big) : State := (s.setV rd x).setZ (zeroFlag x)

end Sys2Proof.Machine
end

