-- ==== Sys2Proof/Machine/CurveEngine.lean ====
section
/-! DEFINITION. The curve-engine family: ECMUL, ECMULB, ECADD (40_curve_engine.md). The engine is an argument of each
result, so that a test can name one; the meanings pass it `Config.engine`, whose answers are free (R120, R122). -/

namespace Sys2Proof.Machine

/-- How every engine command ends: the answered point is written, Fail is ENGINE_FAIL (40_curve_engine.md R123). -/
def answerResult (rd : Reg) (s : State) : Config.Answer → Result
  | .ok pt => .ok (s.setPoint rd pt)
  | .fail => .error .engineFail

/-- What ECMUL gives (40_curve_engine.md R124): the scalar is passed unreduced. -/
def ecmulResult (engine : Config.Engine) (rd ra rb : Reg) (s : State) : Result :=
  if !pointReg rd || !pointReg rb then .error .illegalOperand
  else answerResult rd s (engine.mul s.engineCurve (s.natV ra) (s.getPoint rb))

/-- ECMUL (40_curve_engine.md R124). -/
def execEcmul (rd ra rb : Reg) (s : State) : Host.Outcome State Fault Refusal :=
  .next (s.complete (ecmulResult Config.engine rd ra rb s))

/-- What ECMULB gives (40_curve_engine.md R125): the scalar multiplication of the base point. -/
def ecmulbResult (engine : Config.Engine) (rd ra : Reg) (s : State) : Result :=
  if !pointReg rd then .error .illegalOperand
  else answerResult rd s (engine.mul s.engineCurve (s.natV ra) s.basePoint)

/-- ECMULB (40_curve_engine.md R125). -/
def execEcmulb (rd ra : Reg) (s : State) : Host.Outcome State Fault Refusal :=
  .next (s.complete (ecmulbResult Config.engine rd ra s))

/-- What ECADD gives (40_curve_engine.md R126). -/
def ecaddResult (engine : Config.Engine) (rd ra rb : Reg) (s : State) : Result :=
  if !pointReg rd || !pointReg ra || !pointReg rb then .error .illegalOperand
  else answerResult rd s (engine.add s.engineCurve (s.getPoint ra) (s.getPoint rb))

/-- ECADD (40_curve_engine.md R126). -/
def execEcadd (rd ra rb : Reg) (s : State) : Host.Outcome State Fault Refusal :=
  .next (s.complete (ecaddResult Config.engine rd ra rb s))

end Sys2Proof.Machine
end

