-- ==== Sys2Proof/Machine/Ecies.lean ====
section
/-! DEFINITION. The ECIES family: KDFX, HTAG, BCMP (43_kdf_ecies.md). The hash is an argument of each result, so that a
test can name one; the meanings pass it `Config.hash` (R190). -/

namespace Sys2Proof.Machine

/-- `be_32(x)`, a coordinate as it enters the hash (43_kdf_ecies.md R193). -/
def coordBytes (x : Nat) : Bytes := beBytes 32 x

/-- One block of the KDF stream: HASH(z || be_4(c)), z the two coordinates (43_kdf_ecies.md R192). -/
def kdfBlock (hash : Config.Hash) (x y c : Nat) : Bytes :=
  (hash (coordBytes x ++ coordBytes y ++ beBytes 4 c)).toList

/-- `k` blocks of the KDF stream, from the counter `c` on (43_kdf_ecies.md R192). -/
def kdfBlocks (hash : Config.Hash) (x y : Nat) : (k c : Nat) → Bytes
  | 0, _ => []
  | k + 1, c => kdfBlock hash x y c ++ kdfBlocks hash x y k (c + 1)

/-- `KDF(x, y, n)`: the blocks from counter 1 on, concatenated and truncated (43_kdf_ecies.md R192). -/
def kdf (hash : Config.Hash) (x y n : Nat) : Bytes :=
  (kdfBlocks hash x y (ceilDiv n Config.hashLen) 1).take n

/-- What KDFX gives (43_kdf_ecies.md R195): all of the source is read before any write. -/
def kdfxResult (hash : Config.Hash) (ra : Reg) (s : State) : Result :=
  if !pointReg ra then .error .illegalOperand
  else if !inBuf s.src s.len || !inBuf s.dst s.len then .error .length
  else if !fitsCoord (s.natV ra) || !fitsCoord (s.natV (yReg ra)) then .error .operandRange
  else
    let mask := kdf hash (s.natV ra) (s.natV (yReg ra)) s.len
    .ok ((s.bufWrite s.dst (xorBytes (s.bufRead s.src s.len) mask)).setMZ (allZero mask))

/-- KDFX (43_kdf_ecies.md R195). -/
def execKdfx (ra : Reg) (s : State) : Host.Outcome State Fault Refusal :=
  .next (s.complete (kdfxResult Config.hash ra s))

/-- The integrity tag HASH(be_32(x) || data || be_32(y)) (43_kdf_ecies.md R196). -/
def tagBytes (hash : Config.Hash) (x y : Nat) (data : Bytes) : Bytes :=
  (hash (coordBytes x ++ data ++ coordBytes y)).toList

/-- What HTAG gives (43_kdf_ecies.md R196). -/
def htagResult (hash : Config.Hash) (ra : Reg) (s : State) : Result :=
  if !pointReg ra then .error .illegalOperand
  else if !inBuf s.src s.len || !inBuf s.dst Config.hashLen then .error .length
  else if !fitsCoord (s.natV ra) || !fitsCoord (s.natV (yReg ra)) then .error .operandRange
  else .ok (s.bufWrite s.dst (tagBytes hash (s.natV ra) (s.natV (yReg ra)) (s.bufRead s.src s.len)))

/-- HTAG (43_kdf_ecies.md R196). -/
def execHtag (ra : Reg) (s : State) : Host.Outcome State Fault Refusal :=
  .next (s.complete (htagResult Config.hash ra s))

/-- What BCMP gives (43_kdf_ecies.md R197): BUF_DST is its second source. -/
def bcmpResult (s : State) : Result :=
  if !inBuf s.src s.len || !inBuf s.dst s.len then .error .length
  else .ok (s.setEQ (eqBytesFlag (s.bufRead s.src s.len) (s.bufRead s.dst s.len)))

/-- BCMP (43_kdf_ecies.md R197). -/
def execBcmp (s : State) : Host.Outcome State Fault Refusal := .next (s.complete (bcmpResult s))

end Sys2Proof.Machine
end

