-- ==== Sys2Proof/Machine/Field.lean ====
section
/-! DEFINITION. The field-arithmetic family: MRED, MREDNZ, MADD, MSUB, MMUL, MINV, RCHK, CMPEQ (41_field_arith.md).
Every result is computed on unbounded integers and is a residue below M, so it fits the register (R149). -/

namespace Sys2Proof.Machine

/-- MRED (41_field_arith.md R141). -/
def execMred (rd ra : Reg) (ms : ModSel) (s : State) : Host.Outcome State Fault Refusal :=
  .next (s.complete (s.withModulus ms fun m => .ok (s.writeResult rd (toBig (s.natV ra % m)))))

/-- The zero-to-one substitution of digest reduction (41_field_arith.md R142). -/
def zeroToOne (r : Nat) : Nat := if r = 0 then 1 else r

/-- MREDNZ (41_field_arith.md R142): Z is computed from the value written, so it is always 0. -/
def execMrednz (rd ra : Reg) (ms : ModSel) (s : State) : Host.Outcome State Fault Refusal :=
  .next (s.complete (s.withModulus ms fun m => .ok (s.writeResult rd (toBig (zeroToOne (s.natV ra % m))))))

/-- MADD (41_field_arith.md R143). -/
def execMadd (rd ra rb : Reg) (ms : ModSel) (s : State) : Host.Outcome State Fault Refusal :=
  .next (s.complete (s.withModulus ms fun m => .ok (s.writeResult rd (toBig ((s.natV ra + s.natV rb) % m)))))

/-- MSUB (41_field_arith.md R144): the Euclidean residue, never negative. -/
def execMsub (rd ra rb : Reg) (ms : ModSel) (s : State) : Host.Outcome State Fault Refusal :=
  .next (s.complete (s.withModulus ms fun m => .ok (s.writeResult rd (toBig (subMod (s.natV ra) (s.natV rb) m)))))

/-- MMUL (41_field_arith.md R145): the product is exact, up to 1024 bits. -/
def execMmul (rd ra rb : Reg) (ms : ModSel) (s : State) : Host.Outcome State Fault Refusal :=
  .next (s.complete (s.withModulus ms fun m => .ok (s.writeResult rd (toBig ((s.natV ra * s.natV rb) % m)))))

/-- What MINV gives for a modulus m > 0 (41_field_arith.md R146). -/
def minvResult (rd ra : Reg) (s : State) (m : Nat) : Result :=
  match invMod (s.natV ra) m with
  | none => .error .notInvertible
  | some r => .ok (s.writeResult rd (toBig r))

/-- MINV (41_field_arith.md R146). -/
def execMinv (rd ra : Reg) (ms : ModSel) (s : State) : Host.Outcome State Fault Refusal :=
  .next (s.complete (s.withModulus ms (minvResult rd ra s)))

/-- RCHK (41_field_arith.md R147). -/
def execRchk (ra : Reg) (ms : ModSel) (s : State) : Host.Outcome State Fault Refusal :=
  .next (s.complete (s.withModulus ms fun m => .ok (s.setIN (inRangeFlag (s.natV ra) m))))

/-- CMPEQ (41_field_arith.md R148): all 512 bits, no modulus. -/
def execCmpeq (ra rb : Reg) (s : State) : Host.Outcome State Fault Refusal :=
  .next (s.complete (.ok (s.setEQ (eqFlag (s.getV ra) (s.getV rb)))))

end Sys2Proof.Machine
end

