-- ==== Sys2Proof/Machine/Transfer.lean ====
section
/-! DEFINITION. The transfer family: NOP, MOV, LDI, LDB, STB (42_transfer.md). -/

namespace Sys2Proof.Machine

/-- NOP (42_transfer.md R170): nothing but completing. -/
def execNop (s : State) : Host.Outcome State Fault Refusal := .next (s.complete (.ok s))

/-- MOV (42_transfer.md R171). -/
def execMov (rd ra : Reg) (s : State) : Host.Outcome State Fault Refusal :=
  .next (s.complete (.ok (s.writeResult rd (s.getV ra))))

/-- LDI (42_transfer.md R172). -/
def execLdi (rd : Reg) (imm : BitVec 16) (s : State) : Host.Outcome State Fault Refusal :=
  .next (s.complete (.ok (s.writeResult rd (immBig imm))))

/-- What LDB gives (42_transfer.md R173): the region's bytes as an integer, zero-extended. -/
def ldbResult (rd : Reg) (order : ByteOrder) (s : State) : Result :=
  if s.len > Config.maxLd || !inBuf s.src s.len then .error .length
  else .ok (s.writeResult rd (toBig (ofBytes order (s.bufRead s.src s.len))))

/-- LDB (42_transfer.md R173). -/
def execLdb (rd : Reg) (order : ByteOrder) (s : State) : Host.Outcome State Fault Refusal :=
  .next (s.complete (ldbResult rd order s))

/-- What STB gives (42_transfer.md R174): the value in exactly BUF_LEN bytes, or no write where it does not fit. -/
def stbResult (ra : Reg) (order : ByteOrder) (s : State) : Result :=
  if s.len > Config.maxLd || !inBuf s.dst s.len then .error .length
  else if s.natV ra ≥ 2 ^ (8 * s.len) then .error .operandRange
  else .ok (s.bufWrite s.dst (toBytes order s.len (s.natV ra)))

/-- STB (42_transfer.md R174). -/
def execStb (ra : Reg) (order : ByteOrder) (s : State) : Host.Outcome State Fault Refusal :=
  .next (s.complete (stbResult ra order s))

end Sys2Proof.Machine
end

