-- ==== Sys2Proof/Machine/Transform.lean ====
section
/-! DEFINITION. The coordinate-transform family: TOEDW, TOWEI and the Edwards cache (44_coord_transform.md). -/

namespace Sys2Proof.Machine

/-- `EdConsts()`: (edS, edT) = ((E - D) / 4, (E + D) / 6) mod P, or NOT_INVERTIBLE where P shares a factor with 4 or 6
(44_coord_transform.md R221). -/
def edConsts (p e d : Nat) : Except ErrCode (Nat × Nat) :=
  match invMod 4 p, invMod 6 p with
  | some i4, some i6 => .ok (subMod e d p * i4 % p, (e + d) % p * i6 % p)
  | _, _ => .error .notInvertible

/-- The pair a transform uses: the cached one while EDV = 1, else EdConsts() (44_coord_transform.md R222). -/
def State.edPair (s : State) : Except ErrCode (Nat × Nat) :=
  if s.cache.edv then .ok (s.cache.eds.toNat, s.cache.edt.toNat)
  else edConsts s.curve.p.toNat s.curve.e.toNat s.curve.d.toNat

/-- The cache after a transform that succeeded: filled if it was not valid (44_coord_transform.md R222). -/
def State.fillCache (s : State) (es et : Nat) : State :=
  if s.cache.edv then s else { s with cache := ⟨true, toBig es, toBig et⟩ }

/-- The checks and constants both transforms begin with, in the order of 60_exceptions.md R272: evenness, EDW, P = 0,
then the Edwards constants (44_coord_transform.md R220, R222). `k` takes p, edS and edT. -/
def State.withTransform (s : State) (rd ra : Reg) (k : Nat → Nat → Nat → Result) : Result :=
  if !pointReg rd || !pointReg ra then .error .illegalOperand
  else if !s.edw then .error .unsupportedCurveForm
  else if s.curve.p.toNat = 0 then .error .badModulus
  else
    match s.edPair with
    | .error code => .error code
    | .ok (es, et) => k s.curve.p.toNat es et

/-- (x, y) to (u, v) with the constants es, et modulo p (44_coord_transform.md R223); `none` where y or x - et + es has
no inverse. -/
def toEdwards (p es et x y : Nat) : Option (Nat × Nat) :=
  let w := subMod x et p
  match invMod y p, invMod ((w + es) % p) p with
  | some iy, some iden => some (w * iy % p, subMod w es p * iden % p)
  | _, _ => none

/-- (u, v) to (x, y) with the constants es, et modulo p (44_coord_transform.md R224); `none` where 1 - v or u has no
inverse. -/
def toWeierstrass (p es et u v : Nat) : Option (Nat × Nat) :=
  match invMod (subMod 1 v p) p, invMod u p with
  | some iden, some iu =>
    let w := es * (1 + v) % p * iden % p
    some ((w + et) % p, w * iu % p)
  | _, _ => none

/-- How a transform ends: the pair is written and the cache filled, or NOT_INVERTIBLE (44_coord_transform.md R222). -/
def transformResult (rd : Reg) (es et : Nat) (s : State) : Option (Nat × Nat) → Result
  | some (a, b) => .ok ((s.setPoint rd ⟨toBig a, toBig b⟩).fillCache es et)
  | none => .error .notInvertible

/-- TOEDW (44_coord_transform.md R223). -/
def execToedw (rd ra : Reg) (s : State) : Host.Outcome State Fault Refusal :=
  .next (s.complete (s.withTransform rd ra fun p es et =>
    transformResult rd es et s (toEdwards p es et (s.natV ra) (s.natV (yReg ra)))))

/-- TOWEI (44_coord_transform.md R224). -/
def execTowei (rd ra : Reg) (s : State) : Host.Outcome State Fault Refusal :=
  .next (s.complete (s.withTransform rd ra fun p es et =>
    transformResult rd es et s (toWeierstrass p es et (s.natV ra) (s.natV (yReg ra)))))

end Sys2Proof.Machine
end

