-- ==== Sys2Proof/Machine/Dispatch.lean ====
section
/-! DEFINITION. The dispatch of a command to its meaning: one arm per constructor of Instr. -/

namespace Sys2Proof.Machine

def exec (i : Instr) (s : State) : Host.Outcome State Fault Refusal :=
  match i with
  | .nop => Sys2Proof.Machine.execNop s
  | .mov rd ra => Sys2Proof.Machine.execMov rd ra s
  | .ldi rd imm => Sys2Proof.Machine.execLdi rd imm s
  | .ldb rd order => Sys2Proof.Machine.execLdb rd order s
  | .stb ra order => Sys2Proof.Machine.execStb ra order s
  | .mred rd ra ms => Sys2Proof.Machine.execMred rd ra ms s
  | .mrednz rd ra ms => Sys2Proof.Machine.execMrednz rd ra ms s
  | .madd rd ra rb ms => Sys2Proof.Machine.execMadd rd ra rb ms s
  | .msub rd ra rb ms => Sys2Proof.Machine.execMsub rd ra rb ms s
  | .mmul rd ra rb ms => Sys2Proof.Machine.execMmul rd ra rb ms s
  | .minv rd ra ms => Sys2Proof.Machine.execMinv rd ra ms s
  | .rchk ra ms => Sys2Proof.Machine.execRchk ra ms s
  | .cmpeq ra rb => Sys2Proof.Machine.execCmpeq ra rb s
  | .ecmul rd ra rb => Sys2Proof.Machine.execEcmul rd ra rb s
  | .ecmulb rd ra => Sys2Proof.Machine.execEcmulb rd ra s
  | .ecadd rd ra rb => Sys2Proof.Machine.execEcadd rd ra rb s
  | .toedw rd ra => Sys2Proof.Machine.execToedw rd ra s
  | .towei rd ra => Sys2Proof.Machine.execTowei rd ra s
  | .kdfx ra => Sys2Proof.Machine.execKdfx ra s
  | .htag ra => Sys2Proof.Machine.execHtag ra s
  | .bcmp => Sys2Proof.Machine.execBcmp s

end Sys2Proof.Machine
end

