-- ==== Sys2Proof/WellFormed.lean ====
section
/-! DEFINITION. Which commands name their point operands by even registers (10_state.md R35). Register numbers and
immediates are in range by their types; this is the one check the types leave. -/

namespace Sys2Proof

/-- A register number that may name a point: the even ones, x in V[r] and y in V[r+1] (10_state.md R35). -/
def Reg.isEven (r : Reg) : Bool := r.val % 2 == 0

/-- Every field that names a point is even: the entries E of the table of 30_encoding.md R95. A command that is not
well formed still decodes and runs, and completes with ILLEGAL_OPERAND (60_exceptions.md R271). -/
def Instr.wellFormed : Instr → Bool
  | .nop => true
  | .mov _ _ => true
  | .ldi _ _ => true
  | .ldb _ _ => true
  | .stb _ _ => true
  | .mred _ _ _ => true
  | .mrednz _ _ _ => true
  | .madd _ _ _ _ => true
  | .msub _ _ _ _ => true
  | .mmul _ _ _ _ => true
  | .minv _ _ _ => true
  | .rchk _ _ => true
  | .cmpeq _ _ => true
  | .ecmul rd _ rb => rd.isEven && rb.isEven
  | .ecmulb rd _ => rd.isEven
  | .ecadd rd ra rb => rd.isEven && ra.isEven && rb.isEven
  | .toedw rd ra => rd.isEven && ra.isEven
  | .towei rd ra => rd.isEven && ra.isEven
  | .kdfx ra => ra.isEven
  | .htag ra => ra.isEven
  | .bcmp => true

end Sys2Proof
end

