-- ==== Sys2Proof/Decode.lean ====
section
/-! DEFINITION. Command words: the decoder, strict as 30_encoding.md R95 and R97 ask, and after it the encoder. -/

namespace Sys2Proof

/-! The fields of the formats R and I (30_encoding.md R91, R92). -/

/-- OPC, bits [7:0]. -/
def opcField (c : Word32) : BitVec 8 := c.extractLsb' 0 8
/-- RD, bits [11:8]. -/
def rdField (c : Word32) : BitVec 4 := c.extractLsb' 8 4
/-- RA, bits [15:12]. -/
def raField (c : Word32) : BitVec 4 := c.extractLsb' 12 4
/-- RB, bits [19:16]. -/
def rbField (c : Word32) : BitVec 4 := c.extractLsb' 16 4
/-- MS, bit 20. -/
def msField (c : Word32) : BitVec 1 := c.extractLsb' 20 1
/-- LE, bit 21. -/
def leField (c : Word32) : BitVec 1 := c.extractLsb' 21 1
/-- The bits [31:22] of format R, which must be 0. -/
def topField (c : Word32) : BitVec 10 := c.extractLsb' 22 10
/-- IMM16 of format I, bits [31:16]. -/
def immField (c : Word32) : BitVec 16 := c.extractLsb' 16 16

/-- A 4-bit field as a register number (30_encoding.md R93). -/
def regOf (b : BitVec 4) : Reg := b.toFin

/-- MS as a modulus select (30_encoding.md R93). -/
def modSelOf (b : BitVec 1) : ModSel := if b = 0#1 then .p else .q

/-- LE as a byte order (30_encoding.md R93). -/
def orderOf (b : BitVec 1) : ByteOrder := if b = 0#1 then .be else .le

/-- The command a word stands for, by the table of 30_encoding.md R95: the opcode names the row, and every field the
row does not use must be 0. All other words are illegal (R97) and decode to nothing. -/
def decode (c : Word32) : Option Instr :=
  let rd := regOf (rdField c)
  let ra := regOf (raField c)
  let rb := regOf (rbField c)
  let ms := modSelOf (msField c)
  let order := orderOf (leField c)
  match opcField c with
  | 0x00#8 =>
    if rdField c = 0 ∧ raField c = 0 ∧ rbField c = 0 ∧ msField c = 0 ∧ leField c = 0 ∧ topField c = 0 then some .nop
    else none
  | 0x01#8 =>
    if rbField c = 0 ∧ msField c = 0 ∧ leField c = 0 ∧ topField c = 0 then some (.mov rd ra) else none
  | 0x02#8 => if raField c = 0 then some (.ldi rd (immField c)) else none
  | 0x03#8 =>
    if raField c = 0 ∧ rbField c = 0 ∧ msField c = 0 ∧ topField c = 0 then some (.ldb rd order) else none
  | 0x04#8 =>
    if rdField c = 0 ∧ rbField c = 0 ∧ msField c = 0 ∧ topField c = 0 then some (.stb ra order) else none
  | 0x10#8 => if rbField c = 0 ∧ leField c = 0 ∧ topField c = 0 then some (.mred rd ra ms) else none
  | 0x11#8 => if rbField c = 0 ∧ leField c = 0 ∧ topField c = 0 then some (.mrednz rd ra ms) else none
  | 0x12#8 => if leField c = 0 ∧ topField c = 0 then some (.madd rd ra rb ms) else none
  | 0x13#8 => if leField c = 0 ∧ topField c = 0 then some (.msub rd ra rb ms) else none
  | 0x14#8 => if leField c = 0 ∧ topField c = 0 then some (.mmul rd ra rb ms) else none
  | 0x15#8 => if rbField c = 0 ∧ leField c = 0 ∧ topField c = 0 then some (.minv rd ra ms) else none
  | 0x18#8 =>
    if rdField c = 0 ∧ rbField c = 0 ∧ leField c = 0 ∧ topField c = 0 then some (.rchk ra ms) else none
  | 0x19#8 =>
    if rdField c = 0 ∧ msField c = 0 ∧ leField c = 0 ∧ topField c = 0 then some (.cmpeq ra rb) else none
  | 0x20#8 => if msField c = 0 ∧ leField c = 0 ∧ topField c = 0 then some (.ecmul rd ra rb) else none
  | 0x21#8 =>
    if rbField c = 0 ∧ msField c = 0 ∧ leField c = 0 ∧ topField c = 0 then some (.ecmulb rd ra) else none
  | 0x22#8 => if msField c = 0 ∧ leField c = 0 ∧ topField c = 0 then some (.ecadd rd ra rb) else none
  | 0x30#8 =>
    if rbField c = 0 ∧ msField c = 0 ∧ leField c = 0 ∧ topField c = 0 then some (.toedw rd ra) else none
  | 0x31#8 =>
    if rbField c = 0 ∧ msField c = 0 ∧ leField c = 0 ∧ topField c = 0 then some (.towei rd ra) else none
  | 0x40#8 =>
    if rdField c = 0 ∧ rbField c = 0 ∧ msField c = 0 ∧ leField c = 0 ∧ topField c = 0 then some (.kdfx ra) else none
  | 0x41#8 =>
    if rdField c = 0 ∧ rbField c = 0 ∧ msField c = 0 ∧ leField c = 0 ∧ topField c = 0 then some (.htag ra) else none
  | 0x42#8 =>
    if rdField c = 0 ∧ raField c = 0 ∧ rbField c = 0 ∧ msField c = 0 ∧ leField c = 0 ∧ topField c = 0 then some .bcmp
    else none
  | _ => none

/-! The encoder, written from the same tables. -/

/-- A word of format R (30_encoding.md R91). -/
def formatR (opc : BitVec 8) (rd ra rb : BitVec 4) (ms le : BitVec 1) : Word32 :=
  0#10 ++ le ++ ms ++ rb ++ ra ++ rd ++ opc

/-- A word of format I (30_encoding.md R92). -/
def formatI (opc : BitVec 8) (rd : BitVec 4) (imm : BitVec 16) : Word32 :=
  imm ++ 0#4 ++ rd ++ opc

/-- A register number as a 4-bit field. -/
def Reg.bits (r : Reg) : BitVec 4 := BitVec.ofFin r

/-- A modulus select as the bit MS. -/
def ModSel.bit : ModSel → BitVec 1
  | .p => 0#1
  | .q => 1#1

/-- A byte order as the bit LE. -/
def ByteOrder.bit : ByteOrder → BitVec 1
  | .be => 0#1
  | .le => 1#1

/-- The word of a command (30_encoding.md R95); unused fields are 0. -/
def encode : Instr → Word32
  | .nop => formatR 0x00 0 0 0 0 0
  | .mov rd ra => formatR 0x01 rd.bits ra.bits 0 0 0
  | .ldi rd imm => formatI 0x02 rd.bits imm
  | .ldb rd order => formatR 0x03 rd.bits 0 0 0 order.bit
  | .stb ra order => formatR 0x04 0 ra.bits 0 0 order.bit
  | .mred rd ra ms => formatR 0x10 rd.bits ra.bits 0 ms.bit 0
  | .mrednz rd ra ms => formatR 0x11 rd.bits ra.bits 0 ms.bit 0
  | .madd rd ra rb ms => formatR 0x12 rd.bits ra.bits rb.bits ms.bit 0
  | .msub rd ra rb ms => formatR 0x13 rd.bits ra.bits rb.bits ms.bit 0
  | .mmul rd ra rb ms => formatR 0x14 rd.bits ra.bits rb.bits ms.bit 0
  | .minv rd ra ms => formatR 0x15 rd.bits ra.bits 0 ms.bit 0
  | .rchk ra ms => formatR 0x18 0 ra.bits 0 ms.bit 0
  | .cmpeq ra rb => formatR 0x19 0 ra.bits rb.bits 0 0
  | .ecmul rd ra rb => formatR 0x20 rd.bits ra.bits rb.bits 0 0
  | .ecmulb rd ra => formatR 0x21 rd.bits ra.bits 0 0 0
  | .ecadd rd ra rb => formatR 0x22 rd.bits ra.bits rb.bits 0 0
  | .toedw rd ra => formatR 0x30 rd.bits ra.bits 0 0 0
  | .towei rd ra => formatR 0x31 rd.bits ra.bits 0 0 0
  | .kdfx ra => formatR 0x40 0 ra.bits 0 0 0
  | .htag ra => formatR 0x41 0 ra.bits 0 0 0
  | .bcmp => formatR 0x42 0 0 0 0 0

/-- The `nbits` low bits of `w` as the one 32-bit command word they are, bit 0 the least significant
(30_encoding.md R90); `none` where they do not fit one word. -/
def tableWord (nbits w : Nat) : Option Word32 :=
  if w % 2 ^ nbits < 2 ^ 32 then some (BitVec.ofNat 32 (w % 2 ^ nbits)) else none

/-- What the decoder reads from an instruction whose bits are `w`, numbered as spec/opcode_table.json numbers them. -/
def decodeTableWord (nbits w : Nat) : Option Instr :=
  match tableWord nbits w with
  | some c => decode c
  | none => none

end Sys2Proof
end

