-- ==== Sys2Proof/Machine/Mmio.lean ====
section
/-! DEFINITION. The MMIO window: the offset map, refused accesses, reads and writes (20_memory.md R60 to R70, 10_state.md
R20 to R39), soft and hardware reset (70_reset_and_hazards.md R312, R313). -/

namespace Sys2Proof.Machine

/-! ### The offset map (20_memory.md R60) -/

/-- The curve registers by name (10_state.md R31). -/
inductive CurveReg where
  | p | q | a | b | gx | gy | e | d
  deriving DecidableEq, Repr

/-- The 32-bit words of the window that an access can name: a control register, or word j of a wide register, or word j
of BUF. -/
inductive MmioReg where
  | id | ctrl | status | cmd | bufSrc | bufDst | bufLen | curveCfg | psize | cmdcnt
  | curve (r : CurveReg) (j : Fin 16)
  | eds (j : Fin 16)
  | edt (j : Fin 16)
  | v (i : Reg) (j : Fin 16)
  | buf (j : Fin 2048)
  deriving DecidableEq, Repr

/-- The curve register at offset 0x100 + 64 * k. -/
def curveRegAt : Fin 8 → CurveReg
  | 0 => .p
  | 1 => .q
  | 2 => .a
  | 3 => .b
  | 4 => .gx
  | 5 => .gy
  | 6 => .e
  | 7 => .d

/-- The word of a 64-byte register that an offset names (20_memory.md R62). -/
def wordIndex (off : Nat) : Fin 16 := Fin.ofNat 16 (off % 64 / 4)

/-- The register at a word-aligned offset of the window, `none` in a reserved range (20_memory.md R60). -/
def regAt (off : Nat) : Option MmioReg :=
  if off < 0x100 then
    match off with
    | 0x000 => some .id
    | 0x004 => some .ctrl
    | 0x008 => some .status
    | 0x00C => some .cmd
    | 0x010 => some .bufSrc
    | 0x014 => some .bufDst
    | 0x018 => some .bufLen
    | 0x01C => some .curveCfg
    | 0x020 => some .psize
    | 0x024 => some .cmdcnt
    | _ => none
  else if off < 0x300 then some (.curve (curveRegAt (Fin.ofNat 8 ((off - 0x100) / 64))) (wordIndex off))
  else if off < 0x340 then some (.eds (wordIndex off))
  else if off < 0x380 then some (.edt (wordIndex off))
  else if off < 0x400 then none
  else if off < 0x800 then some (.v (Fin.ofNat 16 ((off - 0x400) / 64)) (wordIndex off))
  else if off < 0x2000 then none
  else if off < 0x4000 then some (.buf (Fin.ofNat 2048 ((off - 0x2000) / 4)))
  else none

/-! ### Refused accesses (20_memory.md R66, R67) -/

/-- Reads that are refused: the idle-only registers while BUSY (20_memory.md R66). A read of CMD never is
(10_state.md R24). -/
def refusesRead (s : State) : MmioReg → Bool
  | .id | .ctrl | .status | .cmd | .psize | .cmdcnt => false
  | .bufSrc | .bufDst | .bufLen | .curveCfg | .curve _ _ | .eds _ | .edt _ | .v _ _ | .buf _ => s.busy

/-- Writes that are refused: to the read-only registers, to idle-only registers and CMD while BUSY, to the curve
registers and CURVE_CFG while LOCK = 1 (20_memory.md R67 c, d, e). -/
def refusesWrite (s : State) : MmioReg → Bool
  | .id | .psize | .cmdcnt | .eds _ | .edt _ => true
  | .ctrl | .status => false
  | .cmd | .bufSrc | .bufDst | .bufLen | .v _ _ | .buf _ => s.busy
  | .curveCfg | .curve _ _ => s.busy || s.lock

/-- The only effects of a refused access: ACCERR, and 0 as the answer of a read (20_memory.md R67, 60_exceptions.md
R275). -/
def State.refuse (s : State) : AccessOp → State
  | .read => { s with accerr := true, rdata := 0#32 }
  | .write _ => { s with accerr := true }

/-! ### Reads (10_state.md R21 to R34) -/

/-- PSIZE: ceil(bitlen(Q) / 8), from Q as it is now (10_state.md R29). -/
def State.psize (s : State) : Nat := ceilDiv (bitlen s.curve.q.toNat) 8

/-- STATUS (10_state.md R23), from bit 31 down to bit 0; ERR is 1 exactly when ERRCODE is not 0. -/
def State.statusWord (s : State) : Word32 :=
  0#19 ++ BitVec.ofBool s.cache.edv
    ++ BitVec.ofBool s.flags.mz ++ BitVec.ofBool s.flags.inRange ++ BitVec.ofBool s.flags.eq ++ BitVec.ofBool s.flags.z
    ++ s.errcode.code
    ++ BitVec.ofBool s.accerr ++ BitVec.ofBool (s.errcode.code != 0) ++ BitVec.ofBool s.done ++ BitVec.ofBool s.busy

/-- CTRL (10_state.md R22): SRST always reads 0. -/
def State.ctrlWord (s : State) : Word32 := 0#30 ++ BitVec.ofBool s.lock ++ BitVec.ofBool s.ie

/-- The curve register a name stands for. -/
def CurveRegs.get (c : CurveRegs) : CurveReg → Big
  | .p => c.p
  | .q => c.q
  | .a => c.a
  | .b => c.b
  | .gx => c.gx
  | .gy => c.gy
  | .e => c.e
  | .d => c.d

/-- Replace the curve register a name stands for. -/
def CurveRegs.set (c : CurveRegs) (r : CurveReg) (x : Big) : CurveRegs :=
  match r with
  | .p => { c with p := x }
  | .q => { c with q := x }
  | .a => { c with a := x }
  | .b => { c with b := x }
  | .gx => { c with gx := x }
  | .gy => { c with gy := x }
  | .e => { c with e := x }
  | .d => { c with d := x }

/-- The MMIO word j of BUF: byte 4j + k is lane k, bits [8k+7:8k] (20_memory.md R63). -/
def Memory.word (m : Memory) (j : Fin 2048) : Word32 :=
  m.read (4 * j + 3) ++ m.read (4 * j + 2) ++ m.read (4 * j + 1) ++ m.read (4 * j)

/-- The byte in lane k of an MMIO word (20_memory.md R63). -/
def lane (w : Word32) (k : Fin 4) : Byte := w.extractLsb' (8 * k.val) 8

/-- What an accepted read of a register answers. -/
def readReg (s : State) : MmioReg → Word32
  | .id => Config.idValue
  | .ctrl => s.ctrlWord
  | .status => s.statusWord
  | .cmd => 0#32
  | .bufSrc => s.bufSrc.setWidth 32
  | .bufDst => s.bufDst.setWidth 32
  | .bufLen => s.bufLen.setWidth 32
  | .curveCfg => 0#31 ++ BitVec.ofBool s.edw
  | .psize => BitVec.ofNat 32 s.psize
  | .cmdcnt => s.cmdcnt
  | .curve r j => getWord (s.curve.get r) j
  | .eds j => getWord s.cache.eds j
  | .edt j => getWord s.cache.edt j
  | .v i j => getWord (s.getV i) j
  | .buf j => s.buf.word j

/-! ### Resets (10_state.md R41) -/

/-- A soft reset: the second value column of 10_state.md R41 (70_reset_and_hazards.md R313). IE, LOCK, CURVE_CFG, the
curve registers and the Edwards cache keep their values; a command in flight is discarded. -/
def State.softReset (s : State) : State :=
  { s with
    seq := .idle
    done := false
    accerr := false
    errcode := .none
    flags := ⟨false, false, false, false⟩
    bufSrc := 0#16
    bufDst := 0#16
    bufLen := 0#16
    cmdcnt := 0#32
    v := Vector.replicate 16 0#512
    buf := [] }

/-- A hardware reset: the first value column of 10_state.md R41 (70_reset_and_hazards.md R312). What the host still has
to do and what it last read are not the block's and stay (log entry 5). -/
def State.hardwareReset (s : State) : State := { State.reset with rdata := s.rdata, inputs := s.inputs }

/-! ### Writes (10_state.md R22 to R39, 20_memory.md R69) -/

/-- An accepted write to CMD accepts the command word, whatever it is (10_state.md R24). -/
def State.acceptCommand (s : State) (c : Word32) : State := { s with seq := .busy c, done := false }

/-- A write to CTRL: IE and LOCK first, LOCK set-only, then the soft reset if bit 2 is 1 (10_state.md R22). -/
def State.writeCtrl (s : State) (w : Word32) : State :=
  let t := { s with ie := w.getLsbD 0, lock := s.lock || w.getLsbD 1 }
  if w.getLsbD 2 then t.softReset else t

/-- A write to STATUS: DONE and ACCERR are cleared by writing 1 (10_state.md R23). -/
def State.writeStatus (s : State) (w : Word32) : State :=
  { s with done := s.done && !w.getLsbD 1, accerr := s.accerr && !w.getLsbD 3 }

/-- EDV <- 0 (10_state.md R39). -/
def State.dropCache (s : State) : State := { s with cache := { s.cache with edv := false } }

/-- The curve registers whose writes clear EDV: P, E and D (10_state.md R39). -/
def CurveReg.feedsCache : CurveReg → Bool
  | .p | .e | .d => true
  | .q | .a | .b | .gx | .gy => false

/-- An accepted write of word j of a curve register (10_state.md R31, R39; 20_memory.md R62). -/
def State.writeCurve (s : State) (r : CurveReg) (j : Fin 16) (w : Word32) : State :=
  let t := { s with curve := s.curve.set r (setWord (s.curve.get r) j w) }
  if r.feedsCache then t.dropCache else t

/-- An accepted write of word j of BUF: its four bytes (20_memory.md R63). -/
def State.writeBufWord (s : State) (j : Fin 2048) (w : Word32) : State :=
  s.bufWrite (4 * j) [lane w 0, lane w 1, lane w 2, lane w 3]

/-- The effect of an accepted write. The read-only registers have none: a write to them is refused (20_memory.md
R67 c). -/
def writeReg (s : State) (w : Word32) : MmioReg → State
  | .id | .psize | .cmdcnt | .eds _ | .edt _ => s
  | .ctrl => s.writeCtrl w
  | .status => s.writeStatus w
  | .cmd => s.acceptCommand w
  | .bufSrc => { s with bufSrc := w.setWidth 16 }
  | .bufDst => { s with bufDst := w.setWidth 16 }
  | .bufLen => { s with bufLen := w.setWidth 16 }
  | .curveCfg => { s with edw := w.getLsbD 0 }.dropCache
  | .curve r j => s.writeCurve r j w
  | .v i j => s.setV i (setWord (s.getV i) j w)
  | .buf j => s.writeBufWord j w

/-! ### One access -/

/-- An access to the register at an offset that names one. -/
def regAccess (s : State) (r : MmioReg) : AccessOp → State
  | .read => if refusesRead s r then s.refuse .read else { s with rdata := readReg s r }
  | .write w => if refusesWrite s r then s.refuse (.write w) else writeReg s w r

/-- An access to the window at an offset: refused where it is not a 32-bit aligned one, where the offset is reserved,
and where the register refuses it (20_memory.md R61, R67). -/
def windowAccess (s : State) (off bits : Nat) (op : AccessOp) : State :=
  if bits ≠ 32 ∨ off % 4 ≠ 0 then s.refuse op
  else
    match regAt off with
    | none => s.refuse op
    | some r => regAccess s r op

/-- A host access. An address outside the window is not the block's (20_memory.md R60; log entry 6). -/
def hostAccess (s : State) (a : Access) : State :=
  if a.addr.extractLsb' 14 18 = Config.basePage then
    windowAccess s (a.addr.extractLsb' 0 14).toNat a.bits a.op
  else s

/-- The physical address of an offset of the window (20_memory.md R60). -/
def windowAddr (off : BitVec 14) : BitVec 32 := Config.basePage ++ off

end Sys2Proof.Machine
end

