-- ==== Sys2Proof/Machine/Sequencer.lean ====
section
/-! DEFINITION. The sequencer: what a latched word does at its completion (70_reset_and_hazards.md R311). -/

namespace Sys2Proof.Machine

/-- The completion of a latched word: the command it decodes to, or ILLEGAL_CMD and no other effect
(30_encoding.md R97). -/
def runWord (c : Word32) (s : State) : Host.Outcome State Fault Refusal :=
  match decode c with
  | some i => exec i s
  | none => .next (s.complete (.error .illegalCmd))

/-- A completion slot: the command in flight completes; an idle block has none (10_state.md R36). -/
def completionStep (s : State) : Host.Outcome State Fault Refusal :=
  match s.seq with
  | .idle => .next s
  | .busy c => runWord c s

end Sys2Proof.Machine
end

