-- ==== Sys2Proof/Machine/Step.lean ====
section
/-! DEFINITION. One atomic step of the machine (70_reset_and_hazards.md R310). -/

namespace Sys2Proof.Machine

/-- One step: the next host access, completion slot or hardware reset of `inputs` takes place (70_reset_and_hazards.md
R310). With nothing left to come, a command in flight completes (R311, R332) and an idle block stays as it is (log
entries 1, 2, 3). -/
def step (s : State) : Host.Outcome State Fault Refusal :=
  match s.inputs with
  | [] => completionStep s
  | .access a :: rest => .next (hostAccess { s with inputs := rest } a)
  | .completion :: rest => completionStep { s with inputs := rest }
  | .hardwareReset :: rest => .next { s with inputs := rest }.hardwareReset

/-- The state with the command word latched and its completion next: what acceptance leaves (10_state.md R24), with a
completion slot as the next input (log entry 4). Where `w` is no one-word instruction, the state itself. -/
def State.withFetchWord (s : State) (nbits w : Nat) : State :=
  match tableWord nbits w with
  | some c => { s.acceptCommand c with inputs := .completion :: s.inputs }
  | none => s

end Sys2Proof.Machine
end

