-- ==== Sys2Proof/Machine/Reference.lean ====
section
/-! DEFINITION. The spec's test instances of its two external engines: ENGINE_REF (40_curve_engine.md R127) and TOYHASH
(43_kdf_ecies.md R199). They serve tests only: the machine's own engines are `Config.engine` and `Config.hash`, and no
claim may assume that they are these. -/

namespace Sys2Proof.Machine

/-- A point of the internal group of ENGINE_REF, `none` being the point at infinity O. -/
abbrev RefPoint := Option (Nat × Nat)

/-- `inv_P(a)` inside ENGINE_REF; where there is no inverse the input is outside the contract and the answer is free
(40_curve_engine.md R122). -/
def refInv (p a : Nat) : Nat := (invMod a p).getD 0

/-- The third point of the chord or tangent with slope l (40_curve_engine.md R127). -/
def refChord (p l x1 y1 x2 : Nat) : RefPoint :=
  let x3 := subMod (l * l) (x1 + x2) p
  some (x3, subMod (l * subMod x1 x3 p) y1 p)

/-- `add'` of ENGINE_REF, O allowed (40_curve_engine.md R127). -/
def refAdd (p a : Nat) : RefPoint → RefPoint → RefPoint
  | none, q => q
  | some p1, none => some p1
  | some (x1, y1), some (x2, y2) =>
    if x1 % p = x2 % p ∧ (y1 + y2) % p = 0 then none
    else if x1 = x2 ∧ y1 = y2 then refChord p ((3 * (x1 * x1) + a) * refInv p (2 * y1) % p) x1 y1 x2
    else refChord p (subMod y2 y1 p * refInv p (subMod x2 x1 p) % p) x1 y1 x2

/-- Double and add over the low `n` bits of k, the most significant first (40_curve_engine.md R127). -/
def refMul (p a : Nat) (pt : RefPoint) (k : Nat) : (n : Nat) → RefPoint → RefPoint
  | 0, r => r
  | n + 1, r =>
    let d := refAdd p a r r
    refMul p a pt k n (if k.testBit n then refAdd p a d pt else d)

/-- An answer of ENGINE_REF: O is Fail (40_curve_engine.md R127). -/
def refAnswer : RefPoint → Config.Answer
  | none => .fail
  | some (x, y) => .ok ⟨toBig x, toBig y⟩

/-- A point of the engine port as a point of the internal group. -/
def refPoint (pt : Config.Point) : RefPoint := some (pt.x.toNat, pt.y.toNat)

/-- ENGINE_REF (40_curve_engine.md R127). -/
def engineRef : Config.Engine where
  mul c k pt := refAnswer (refMul c.p c.a (refPoint pt) k (bitlen k) none)
  add c p1 p2 := refAnswer (refAdd c.p c.a (refPoint p1) (refPoint p2))

/-- The sum of the bytes of a string. -/
def sumBytes : Bytes → Nat
  | [] => 0
  | b :: s => b.toNat + sumBytes s

/-- TOYHASH (43_kdf_ecies.md R199): byte i is (len(s) + i + sum of the bytes of s) mod 256. -/
def toyHash : Config.Hash := fun s => Vector.ofFn fun i : Fin 32 => BitVec.ofNat 8 (s.length + i.val + sumBytes s)

end Sys2Proof.Machine
end

