-- ==== Sys2Proof/Safety.lean ====
section
/-! DEFINITION. What claims are stated in: the invariants of the machine's states, and the contract of the curve engine
(40_curve_engine.md R121). -/

namespace Sys2Proof.Safety

open Sys2Proof.Machine

/-- A valid Edwards cache holds EdConsts() of the current P, E, D, for a P that is not 0 (10_state.md R37,
44_coord_transform.md R222). -/
def CacheCoherent (s : State) : Prop :=
  s.cache.edv = true →
    s.curve.p.toNat ≠ 0 ∧
    edConsts s.curve.p.toNat s.curve.e.toNat s.curve.d.toNat = .ok (s.cache.eds.toNat, s.cache.edt.toNat)

/-- DONE is cleared by acceptance and set by completion, so it is 0 while BUSY (10_state.md R23, R24). -/
def DoneOnlyIdle (s : State) : Prop := s.done = true → s.seq = .idle

/-- EDV is set only while EDW = 1 and cleared by every write of CURVE_CFG (10_state.md R37, R39). -/
def ValidNeedsEdwards (s : State) : Prop := s.cache.edv = true → s.edw = true

/-- The invariant that every step keeps, from any state that has it. -/
def Inv (s : State) : Prop :=
  Memory.wf s.buf ∧ CacheCoherent s ∧ DoneOnlyIdle s ∧ ValidNeedsEdwards s

/-! ### The curve engine's contract (40_curve_engine.md R121; the group law is general knowledge, log entry 19;
the base point is read modulo P, log entry 27) -/

/-- The short Weierstrass curve y^2 = x^3 + A x + B over the field of P. -/
def weierstrass (c : Config.Curve) : WeierstrassCurve.Affine (ZMod c.p) where
  a₁ := 0
  a₂ := 0
  a₃ := 0
  a₄ := (c.a : ZMod c.p)
  a₆ := (c.b : ZMod c.p)

/-- A point of the group as an answer of the engine: its coordinates in [0, P), or Fail for O. -/
def answerOf {p : Nat} {W : WeierstrassCurve.Affine (ZMod p)} : W.Point → Config.Answer
  | .zero => .fail
  | .some x y _ => .ok ⟨toBig x.val, toBig y.val⟩

/-- The conditions of R121 on the curve registers: P is a prime above 3 (and fits its register), the discriminant is not
0, Q is a prime and (GX, GY) a point of order Q. The registers A, B, GX and GY are read modulo P: GX or GY at P or above
does not put a curve outside the contract (DESIGN CHOICE, log entry 27; R121 and R122 leave it open). -/
def GoodCurve (c : Config.Curve) : Prop :=
  ∃ _ : Fact c.p.Prime, 3 < c.p ∧ c.p < 2 ^ 512 ∧ (4 * (c.a : ZMod c.p) ^ 3 + 27 * (c.b : ZMod c.p) ^ 2) ≠ 0 ∧
    c.q.Prime ∧
    ∃ h : (weierstrass c).Nonsingular (c.gx : ZMod c.p) (c.gy : ZMod c.p),
      addOrderOf (WeierstrassCurve.Affine.Point.some (W' := weierstrass c) _ _ h) = c.q

/-- The contract of an engine: on a good curve and points of its group with coordinates in [0, P), `mul` is the scalar
multiple and `add` the sum, Fail standing for O (40_curve_engine.md R121). Outside it nothing is said (R122). -/
def EngineContract (engine : Config.Engine) : Prop :=
  ∀ (c : Config.Curve) (_ : Fact c.p.Prime), GoodCurve c →
    ∀ (g1 g2 : (weierstrass c).Point) (pt1 pt2 : Config.Point),
      answerOf g1 = .ok pt1 → answerOf g2 = .ok pt2 →
      (∀ k : Nat, engine.mul c k pt1 = answerOf (k • g1)) ∧ engine.add c pt1 pt2 = answerOf (g1 + g2)

end Sys2Proof.Safety
end

