-- ==== Sys2Proof/Certificates/Slice0/Obligations.lean ====
section
/-! DEFINITION. The statements about the machine, one per obligation, in the terms of the spec's rules. -/

open Sys2Proof Sys2Proof.Machine

namespace Sys2Proof.Claims

/-! ### The vocabulary of the statements -/

/-- The completion effects of 60_exceptions.md R274: ERRCODE, DONE, CMDCNT, BUSY, and ACCERR unchanged. -/
def Completes (s t : State) (code : ErrCode) : Prop :=
  t.errcode = code ∧ t.done = true ∧ t.seq = .idle ∧ t.cmdcnt.toNat = (s.cmdcnt.toNat + 1) % 2 ^ 32 ∧
    t.accerr = s.accerr

/-- What no command writes: CTRL, the BUF_* registers, CURVE_CFG, the curve registers, and the model's own fields. -/
def KeepsSettings (s t : State) : Prop :=
  t.ie = s.ie ∧ t.lock = s.lock ∧ t.bufSrc = s.bufSrc ∧ t.bufDst = s.bufDst ∧ t.bufLen = s.bufLen ∧ t.edw = s.edw ∧
    t.curve = s.curve ∧ t.rdata = s.rdata ∧ t.inputs = s.inputs

/-- Every V register but those named keeps its value. -/
def KeepsRegsBut (rs : List Reg) (s t : State) : Prop := ∀ r : Reg, r ∉ rs → t.v[r] = s.v[r]

/-- Every byte of BUF reads as before. -/
def KeepsBytes (s t : State) : Prop := ∀ a, t.buf.read a = s.buf.read a

/-- Every byte of BUF outside [off, off + n) reads as before. -/
def KeepsBytesBut (off n : Nat) (s t : State) : Prop :=
  ∀ a, a < off ∨ off + n ≤ a → t.buf.read a = s.buf.read a

/-- A command that writes the value x to V[rd] and Z, and nothing else (10_state.md R33). -/
def WritesReg (rd : Reg) (x : Nat) (s t : State) : Prop :=
  t.v[rd].toNat = x ∧ t.flags = { s.flags with z := decide (x = 0) } ∧ KeepsRegsBut [rd] s t ∧ KeepsBytes s t ∧
    t.cache = s.cache ∧ KeepsSettings s t ∧ Completes s t .none

/-- A command that writes only a flag: everything but `flags` and the completion fields is as before. -/
def WritesFlagsOnly (f : Flags) (s t : State) : Prop :=
  t.flags = f ∧ KeepsRegsBut [] s t ∧ KeepsBytes s t ∧ t.cache = s.cache ∧ KeepsSettings s t ∧ Completes s t .none

/-- A command that ends in an error: the state before it but for the completion fields (60_exceptions.md R273). -/
def FailsWith (code : ErrCode) (s t : State) : Prop :=
  t = { s with errcode := code, done := true, seq := .idle, cmdcnt := s.cmdcnt + 1#32 }

/-- `z mod m = r` as 00_scope.md R11 defines it: the unique r in [0, m) such that m divides z - r. -/
def IsResidue (z : Int) (m r : Nat) : Prop := r < m ∧ (m : Int) ∣ z - r

/-- The register MS selects (41_field_arith.md R140). -/
def modulusOf (ms : ModSel) (s : State) : Nat :=
  match ms with
  | .p => s.curve.p.toNat
  | .q => s.curve.q.toNat

/-- The byte string of n bytes whose byte i is (v div 2^(8(n-1-i))) mod 256: `be_n(v)` (00_scope.md R13). -/
def beString (n v : Nat) : Bytes := List.ofFn fun i : Fin n => BitVec.ofNat 8 (v / 2 ^ (8 * (n - 1 - i.val)))

/-- `BUF[off .. off + n)` as a byte string. -/
def bufString (s : State) (off n : Nat) : Bytes := List.ofFn fun i : Fin n => s.buf.read (off + i.val)

/-- The weight of byte i of n in an integer read in a byte order (00_scope.md R13). -/
def weight (order : ByteOrder) (n i : Nat) : Nat :=
  match order with
  | .be => 256 ^ (n - 1 - i)
  | .le => 256 ^ i

/-- A region lies in BUF (20_memory.md R64). -/
abbrev Legal (off n : Nat) : Prop := off + n ≤ 8192

/-- Byte i of the KDF mask: the block numbered i / 32 + 1, its byte i mod 32 (43_kdf_ecies.md R192). -/
def maskByte (hash : Config.Hash) (x y i : Nat) : Byte :=
  (hash (beString 32 x ++ beString 32 y ++ beString 4 (i / 32 + 1)))[Fin.ofNat 32 i]

/-- How an engine command ends: with the answered point, or with ENGINE_FAIL (40_curve_engine.md R123). -/
def EndsWithAnswer (rd : Reg) (s t : State) : Config.Answer → Prop
  | .ok pt =>
    t.v[rd] = pt.x ∧ t.v[rd + 1] = pt.y ∧ KeepsRegsBut [rd, rd + 1] s t ∧ t.flags = s.flags ∧ KeepsBytes s t ∧
      t.cache = s.cache ∧ KeepsSettings s t ∧ Completes s t .none
  | .fail => FailsWith .engineFail s t

/-- The curve the engine is given (40_curve_engine.md R124). -/
def curveArg (s : State) : Config.Curve :=
  ⟨s.curve.p.toNat, s.curve.q.toNat, s.curve.a.toNat, s.curve.b.toNat, s.curve.gx.toNat, s.curve.gy.toNat⟩

/-- es and et are the constants a transform uses: the cached ones while EDV = 1, otherwise the residues with
4 es = E - D and 6 et = E + D modulo P (44_coord_transform.md R221, R222). -/
def TransformConstants (s : State) (es et : Nat) : Prop :=
  if s.cache.edv then es = s.cache.eds.toNat ∧ et = s.cache.edt.toNat
  else es < s.curve.p.toNat ∧ et < s.curve.p.toNat ∧
    (s.curve.p.toNat : Int) ∣ 4 * es - (s.curve.e.toNat - s.curve.d.toNat) ∧
    (s.curve.p.toNat : Int) ∣ 6 * et - (s.curve.e.toNat + s.curve.d.toNat)

/-- What a transform that succeeds leaves: the pair (a, b) in V[rd], V[rd+1], the cache filled, nothing else changed. -/
def WritesPairAndCache (rd : Reg) (a b es et : Nat) (s t : State) : Prop :=
  t.v[rd].toNat = a ∧ t.v[rd + 1].toNat = b ∧ KeepsRegsBut [rd, rd + 1] s t ∧ t.flags = s.flags ∧ KeepsBytes s t ∧
    t.cache.edv = true ∧ t.cache.eds.toNat = es ∧ t.cache.edt.toNat = et ∧ KeepsSettings s t ∧ Completes s t .none

/-- A write access. -/
def isWrite : AccessOp → Prop
  | .read => False
  | .write _ => True

/-- An access that performs a soft reset: a 32-bit write to CTRL with bit 2 = 1 (10_state.md R22). -/
def SoftResets (a : Access) : Prop := ∃ w : Word32, a = ⟨windowAddr 0x004#14, 32, .write w⟩ ∧ w.getLsbD 2 = true

/-- The next step resets the block, by hardware or by software (70_reset_and_hazards.md R312, R313). -/
def Resetting (s : State) : Prop :=
  (∃ rest, s.inputs = .hardwareReset :: rest) ∨ ∃ a rest, s.inputs = .access a :: rest ∧ SoftResets a

/-- The next step completes the command in flight: a completion slot is next, or no input is left (log entry 2). -/
def Completing (s : State) : Prop :=
  (∃ c, s.seq = .busy c) ∧ (s.inputs = [] ∨ ∃ rest, s.inputs = .completion :: rest)

/-- The refused accesses of 20_memory.md R67, a to e, with the offsets of R60. -/
def Refused (s : State) (off bits : Nat) (op : AccessOp) : Prop :=
  (bits ≠ 32 ∨ off % 4 ≠ 0)
  ∨ (0x028 ≤ off ∧ off < 0x100 ∨ 0x380 ≤ off ∧ off < 0x400 ∨ 0x800 ≤ off ∧ off < 0x2000)
  ∨ (isWrite op ∧ (off = 0x000 ∨ off = 0x020 ∨ off = 0x024 ∨ 0x300 ≤ off ∧ off < 0x380))
  ∨ ((∃ c, s.seq = .busy c) ∧ (isWrite op ∧ off = 0x00C ∨ 0x010 ≤ off ∧ off < 0x020 ∨ 0x100 ≤ off))
  ∨ (s.lock = true ∧ isWrite op ∧ (off = 0x01C ∨ 0x100 ≤ off ∧ off < 0x300))

/-- What a read of a 512-bit register's word at an offset answers (20_memory.md R62). -/
def wideWord (r : Big) (off : Nat) : Nat := r.toNat / 2 ^ (32 * (off % 64 / 4)) % 2 ^ 32

/-- What an accepted read answers, offset by offset (10_state.md R21 to R34, 20_memory.md R60, R62, R63). -/
def readValue (s : State) (off : Nat) : Nat :=
  if off = 0x000 then 0x47450100
  else if off = 0x004 then s.ie.toNat + 2 * s.lock.toNat
  else if off = 0x008 then
    (if s.seq = .idle then 0 else 1) + 2 * s.done.toNat + 4 * (if s.errcode = .none then 0 else 1) + 8 * s.accerr.toNat
      + 16 * s.errcode.code.toNat + 256 * s.flags.z.toNat + 512 * s.flags.eq.toNat + 1024 * s.flags.inRange.toNat
      + 2048 * s.flags.mz.toNat + 4096 * s.cache.edv.toNat
  else if off = 0x00C then 0
  else if off = 0x010 then s.bufSrc.toNat
  else if off = 0x014 then s.bufDst.toNat
  else if off = 0x018 then s.bufLen.toNat
  else if off = 0x01C then s.edw.toNat
  else if off = 0x020 then (Nat.size s.curve.q.toNat + 7) / 8
  else if off = 0x024 then s.cmdcnt.toNat
  else if off < 0x140 then wideWord s.curve.p off
  else if off < 0x180 then wideWord s.curve.q off
  else if off < 0x1C0 then wideWord s.curve.a off
  else if off < 0x200 then wideWord s.curve.b off
  else if off < 0x240 then wideWord s.curve.gx off
  else if off < 0x280 then wideWord s.curve.gy off
  else if off < 0x2C0 then wideWord s.curve.e off
  else if off < 0x300 then wideWord s.curve.d off
  else if off < 0x340 then wideWord s.cache.eds off
  else if off < 0x380 then wideWord s.cache.edt off
  else if off < 0x800 then wideWord (s.v[Fin.ofNat 16 ((off - 0x400) / 64)]) off
  else (s.buf.read (off - 0x2000)).toNat + 256 * (s.buf.read (off - 0x2000 + 1)).toNat
    + 65536 * (s.buf.read (off - 0x2000 + 2)).toNat + 16777216 * (s.buf.read (off - 0x2000 + 3)).toNat

/-- x is r with word j replaced by w and the other 480 bits kept (20_memory.md R62). -/
def IsWordWrite (r x : Big) (j : Fin 16) (w : Word32) : Prop :=
  ∀ k : Nat, k < 512 → x.getLsbD k = if k / 32 = j.val then w.getLsbD (k % 32) else r.getLsbD k

/-- The rows of 30_encoding.md R95: match and mask. -/
def rows : List (Word32 × Word32) :=
  [(0x00000000, 0xFFFFFFFF), (0x00000001, 0xFFFF00FF), (0x00000002, 0x0000F0FF), (0x00000003, 0xFFDFF0FF),
   (0x00000004, 0xFFDF0FFF), (0x00000010, 0xFFEF00FF), (0x00000011, 0xFFEF00FF)] ++
  [(0x00000012, 0xFFE000FF), (0x00000013, 0xFFE000FF), (0x00000014, 0xFFE000FF), (0x00000015, 0xFFEF00FF),
   (0x00000018, 0xFFEF0FFF), (0x00000019, 0xFFF00FFF), (0x00000020, 0xFFF000FF)] ++
  [(0x00000021, 0xFFFF00FF), (0x00000022, 0xFFF000FF), (0x00000030, 0xFFFF00FF), (0x00000031, 0xFFFF00FF),
   (0x00000040, 0xFFFF0FFF), (0x00000041, 0xFFFF0FFF), (0x00000042, 0xFFFFFFFF)]

/-- The row of a command by its place in `rows`. -/
def rowIndex : Instr → Nat
  | .nop => 0
  | .mov _ _ => 1
  | .ldi _ _ => 2
  | .ldb _ _ => 3
  | .stb _ _ => 4
  | .mred _ _ _ => 5
  | .mrednz _ _ _ => 6
  | .madd _ _ _ _ => 7
  | .msub _ _ _ _ => 8
  | .mmul _ _ _ _ => 9
  | .minv _ _ _ => 10
  | .rchk _ _ => 11
  | .cmpeq _ _ => 12
  | .ecmul _ _ _ => 13
  | .ecmulb _ _ => 14
  | .ecadd _ _ _ => 15
  | .toedw _ _ => 16
  | .towei _ _ => 17
  | .kdfx _ => 18
  | .htag _ => 19
  | .bcmp => 20

/-- The codes a command can end with (60_exceptions.md R271, "raised by"). -/
def mayRaise : Instr → List ErrCode
  | .nop => [.none]
  | .mov _ _ => [.none]
  | .ldi _ _ => [.none]
  | .ldb _ _ => [.none, .length]
  | .stb _ _ => [.none, .length, .operandRange]
  | .mred _ _ _ => [.none, .badModulus]
  | .mrednz _ _ _ => [.none, .badModulus]
  | .madd _ _ _ _ => [.none, .badModulus]
  | .msub _ _ _ _ => [.none, .badModulus]
  | .mmul _ _ _ _ => [.none, .badModulus]
  | .minv _ _ _ => [.none, .badModulus, .notInvertible]
  | .rchk _ _ => [.none, .badModulus]
  | .cmpeq _ _ => [.none]
  | .ecmul _ _ _ => [.none, .illegalOperand, .engineFail]
  | .ecmulb _ _ => [.none, .illegalOperand, .engineFail]
  | .ecadd _ _ _ => [.none, .illegalOperand, .engineFail]
  | .toedw _ _ => [.none, .illegalOperand, .unsupportedCurveForm, .badModulus, .notInvertible]
  | .towei _ _ => [.none, .illegalOperand, .unsupportedCurveForm, .badModulus, .notInvertible]
  | .kdfx _ => [.none, .illegalOperand, .length, .operandRange]
  | .htag _ => [.none, .illegalOperand, .length, .operandRange]
  | .bcmp => [.none, .length]

end Sys2Proof.Claims

open Sys2Proof.Claims

/-! ### Encoding -/

/-- Decoding the word of any command gives the command back, with every operand at every value (30_encoding.md R90 to
R95). -/
def Obligations.DecodeOfEncodeIsSelf : Prop := ∀ i : Instr, decode (encode i) = some i

/-- Decoding is strict: a word that decodes is the one word of the command it decodes to (30_encoding.md R95, R97). -/
def Obligations.DecodedWordIsItsEncoding : Prop := ∀ (c : Word32) (i : Instr), decode c = some i → encode i = c

/-- A word is the command of a row exactly when (c AND mask) = match for that row (30_encoding.md R95). -/
def Obligations.RowIsDecodedExactlyByMaskAndMatch : Prop :=
  ∀ (c : Word32) (n : Nat) (h : n < rows.length),
    c &&& (rows[n]).2 = (rows[n]).1 ↔ ∃ i, decode c = some i ∧ rowIndex i = n

/-- No word matches two rows: a word that decodes matches exactly one row, and one that does not decode matches none
(30_encoding.md R95, R97). -/
def Obligations.NoWordMatchesTwoRows : Prop :=
  ∀ c : Word32,
    (∀ i, decode c = some i → ∃! r : Word32 × Word32, r ∈ rows ∧ c &&& r.2 = r.1) ∧
    (decode c = none → ∀ r : Word32 × Word32, r ∈ rows → c &&& r.2 ≠ r.1)

/-- The worked encodings of 30_encoding.md R102: each command has the word given there, and the word decodes to it. -/
def Obligations.WorkedEncodings : Prop :=
  ∀ p ∈ [(Instr.mmul 7 0 6 .q, 0x00160714#32), (.ldi 3 10, 0x000A0302#32), (.ldb 1 .le, 0x00200103#32),
    (.ecmul 2 6 8, 0x00086220#32), (.bcmp, 0x00000042#32)], encode p.1 = p.2 ∧ decode p.2 = some p.1

/-! ### Steps and completion -/

/-- A step in which the latched word completes is exec of the command the word decodes to, on the state with that step's
input taken away; with no inputs left, the completion is what comes (log entries 1 and 2). -/
def Obligations.CompletionStepRunsDecodedCommand : Prop :=
  ∀ (s : State) (c : Word32) (i : Instr), s.seq = .busy c → decode c = some i →
    (s.inputs = [] → step s = exec i s) ∧
    ∀ rest, s.inputs = .completion :: rest → step s = exec i { s with inputs := rest }

/-- Any word written to CMD while idle is accepted, whether or not a row matches it: the step latches the word, sets BUSY,
clears DONE and changes nothing else (10_state.md R24). The completion that follows is exec of the command the word
decodes to, or ILLEGAL_CMD and no other effect (30_encoding.md R97). -/
def Obligations.WrittenCommandIsAcceptedThenRun : Prop :=
  ∀ (s : State) (c : Word32) (rest : List Input), s.seq = .idle →
    s.inputs = .access ⟨windowAddr 0x00C#14, 32, .write c⟩ :: rest →
    step s = .next { s with seq := .busy c, done := false, inputs := rest } ∧
    ∀ rest', rest = .completion :: rest' →
      (∀ i, decode c = some i →
        step { s with seq := .busy c, done := false, inputs := rest } =
          exec i { s with seq := .busy c, done := false, inputs := rest' }) ∧
      (decode c = none → ∃ u, step { s with seq := .busy c, done := false, inputs := rest } = .next u ∧
        FailsWith .illegalCmd { s with seq := .busy c, done := false, inputs := rest' } u)

/-- A latched word that no row matches completes with ILLEGAL_CMD and no other effect (30_encoding.md R97), in the
completion slot that comes next, or, with no inputs left, at once (the latter is the model's choice, log entry 2). -/
def Obligations.IllegalWordOnlyReportsIllegalCmd : Prop :=
  ∀ (s : State) (c : Word32), s.seq = .busy c → (∀ r : Word32 × Word32, r ∈ rows → c &&& r.2 ≠ r.1) →
    (∀ rest, s.inputs = .completion :: rest →
      ∃ t, step s = .next t ∧ FailsWith .illegalCmd { s with inputs := rest } t) ∧
    (s.inputs = [] → ∃ t, step s = .next t ∧ FailsWith .illegalCmd s t)

/-- Every command completes, with or without error: ERRCODE is a code the command can raise, DONE is 1, BUSY 0, CMDCNT
counts, ACCERR and the settings stay (60_exceptions.md R271, R274). -/
def Obligations.EveryCommandCompletesOnce : Prop :=
  ∀ (i : Instr) (s : State), ∃ t, exec i s = .next t ∧ t.errcode ∈ mayRaise i ∧ Completes s t t.errcode ∧
    KeepsSettings s t

/-- Errors are precise: after a latched word, legal or not, that ended with an error the state is the one before it, but
for the completion fields (60_exceptions.md R273). -/
def Obligations.FailedCommandChangesOnlyCompletionFields : Prop :=
  ∀ (c : Word32) (s t : State), runWord c s = .next t → t.errcode ≠ .none → FailsWith t.errcode s t

/-- A command ends with ILLEGAL_OPERAND exactly when a field that names a point is odd: the check comes before every
other one (10_state.md R35, 60_exceptions.md R272). -/
def Obligations.OddPointFieldIsIllegalOperand : Prop :=
  ∀ (i : Instr) (s : State), ∃ t, exec i s = .next t ∧ (t.errcode = .illegalOperand ↔ i.wellFormed = false)

/-! ### Transfer -/

/-- NOP completes and changes nothing else (42_transfer.md R170). -/
def Obligations.NopOnlyCompletes : Prop :=
  ∀ s : State, ∃ t, exec .nop s = .next t ∧ WritesFlagsOnly s.flags s t

/-- MOV copies V[ra] to V[rd] and sets Z, whether or not rd = ra (42_transfer.md R171). -/
def Obligations.MovCopiesRegister : Prop :=
  ∀ (rd ra : Reg) (s : State), ∃ t, exec (.mov rd ra) s = .next t ∧ WritesReg rd s.v[ra].toNat s t

/-- LDI loads the immediate, zero-extended, and sets Z (42_transfer.md R172, 30_encoding.md R94). -/
def Obligations.LdiLoadsZeroExtendedImmediate : Prop :=
  ∀ (rd : Reg) (imm : BitVec 16) (s : State), ∃ t, exec (.ldi rd imm) s = .next t ∧ WritesReg rd imm.toNat s t

/-- LDB: a region of at most 64 bytes inside BUF is loaded as the integer its bytes are in the order LE selects; any
other region is LENGTH (42_transfer.md R173). -/
def Obligations.LdbLoadsIntegerOrReportsLength : Prop :=
  ∀ (rd : Reg) (order : ByteOrder) (s : State), ∃ t, exec (.ldb rd order) s = .next t ∧
    if s.bufLen.toNat ≤ 64 ∧ Legal s.bufSrc.toNat s.bufLen.toNat then
      WritesReg rd
        (∑ i ∈ Finset.range s.bufLen.toNat,
          (s.buf.read (s.bufSrc.toNat + i)).toNat * weight order s.bufLen.toNat i) s t
    else FailsWith .length s t

/-- STB, by its first failing check: LENGTH, then OPERAND_RANGE, else the value's bytes in the order LE selects, and no
other byte, register or flag (42_transfer.md R174). BUF in canonical form. -/
def Obligations.StbStoresFixedWidthOrRefuses : Prop :=
  ∀ (ra : Reg) (order : ByteOrder) (s : State), Memory.wf s.buf → ∃ t, exec (.stb ra order) s = .next t ∧
    if 64 < s.bufLen.toNat ∨ ¬ Legal s.bufDst.toNat s.bufLen.toNat then FailsWith .length s t
    else if 2 ^ (8 * s.bufLen.toNat) ≤ s.v[ra].toNat then FailsWith .operandRange s t
    else
      (∀ i, i < s.bufLen.toNat →
        (t.buf.read (s.bufDst.toNat + i)).toNat = s.v[ra].toNat / weight order s.bufLen.toNat i % 256) ∧
      KeepsBytesBut s.bufDst.toNat s.bufLen.toNat s t ∧ KeepsRegsBut [] s t ∧ t.flags = s.flags ∧
      t.cache = s.cache ∧ KeepsSettings s t ∧ Completes s t .none

/-- The laws of 42_transfer.md R175: STB of a value that fits, then LDB of the same region with the same LE value, returns
the value; and the bytes STB.LE writes are the byte reversal of those STB.BE writes. BUF in canonical form. -/
def Obligations.StbLdbFamilyLaws : Prop :=
  ∀ (ra : Reg) (s : State), Memory.wf s.buf → s.bufLen.toNat ≤ 64 → Legal s.bufDst.toNat s.bufLen.toNat →
    s.v[ra].toNat < 2 ^ (8 * s.bufLen.toNat) →
    (∀ (rd : Reg) (order : ByteOrder), s.bufSrc = s.bufDst →
      ∃ t u, exec (.stb ra order) s = .next t ∧ t.errcode = .none ∧ exec (.ldb rd order) t = .next u ∧
        u.errcode = .none ∧ u.v[rd] = s.v[ra]) ∧
    ∃ t u, exec (.stb ra .le) s = .next t ∧ t.errcode = .none ∧ exec (.stb ra .be) s = .next u ∧ u.errcode = .none ∧
      bufString t s.bufDst.toNat s.bufLen.toNat = (bufString u s.bufDst.toNat s.bufLen.toNat).reverse

/-! ### Field arithmetic -/

/-- MRED, MADD, MSUB and MMUL write the Euclidean residue of the exact value, operator, sum, difference and product of
the whole registers, and Z (41_field_arith.md R141, R143, R144, R145, R149). -/
def Obligations.ModularResultsAreResidues : Prop :=
  ∀ (rd ra rb : Reg) (ms : ModSel) (s : State), modulusOf ms s ≠ 0 →
    (∃ r t, IsResidue (s.v[ra].toNat : Int) (modulusOf ms s) r ∧ exec (.mred rd ra ms) s = .next t ∧
      WritesReg rd r s t) ∧
    (∃ r t, IsResidue ((s.v[ra].toNat : Int) + s.v[rb].toNat) (modulusOf ms s) r ∧
      exec (.madd rd ra rb ms) s = .next t ∧ WritesReg rd r s t) ∧
    (∃ r t, IsResidue ((s.v[ra].toNat : Int) - s.v[rb].toNat) (modulusOf ms s) r ∧
      exec (.msub rd ra rb ms) s = .next t ∧ WritesReg rd r s t) ∧
    (∃ r t, IsResidue ((s.v[ra].toNat : Int) * s.v[rb].toNat) (modulusOf ms s) r ∧
      exec (.mmul rd ra rb ms) s = .next t ∧ WritesReg rd r s t)

/-- MREDNZ writes the residue, or 1 in place of 0, and so always Z = 0 (41_field_arith.md R142). -/
def Obligations.MrednzReplacesZeroByOne : Prop :=
  ∀ (rd ra : Reg) (ms : ModSel) (s : State), modulusOf ms s ≠ 0 →
    ∃ r t, IsResidue (s.v[ra].toNat : Int) (modulusOf ms s) r ∧ exec (.mrednz rd ra ms) s = .next t ∧
      WritesReg rd (if r = 0 then 1 else r) s t ∧ t.flags.z = false

/-- MINV writes the r in [0, M) with (a * r) mod M = 1 mod M when V[ra] is coprime to M, and is NOT_INVERTIBLE
otherwise (41_field_arith.md R146). -/
def Obligations.MinvWritesInverseOrReportsNotInvertible : Prop :=
  ∀ (rd ra : Reg) (ms : ModSel) (s : State), modulusOf ms s ≠ 0 →
    ∃ t, exec (.minv rd ra ms) s = .next t ∧
      if Nat.Coprime s.v[ra].toNat (modulusOf ms s) then
        ∃ r, r < modulusOf ms s ∧ s.v[ra].toNat * r % modulusOf ms s = 1 % modulusOf ms s ∧ WritesReg rd r s t
      else FailsWith .notInvertible s t

/-- RCHK writes IN with 0 < V[ra] < M and nothing else (41_field_arith.md R147). -/
def Obligations.RchkTestsRange : Prop :=
  ∀ (ra : Reg) (ms : ModSel) (s : State), modulusOf ms s ≠ 0 →
    ∃ t, exec (.rchk ra ms) s = .next t ∧
      WritesFlagsOnly { s.flags with inRange := decide (0 < s.v[ra].toNat ∧ s.v[ra].toNat < modulusOf ms s) } s t

/-- CMPEQ writes EQ with V[ra] = V[rb] on all 512 bits and nothing else, whatever the moduli (41_field_arith.md R148). -/
def Obligations.CmpeqComparesWholeRegisters : Prop :=
  ∀ (ra rb : Reg) (s : State), ∃ t, exec (.cmpeq ra rb) s = .next t ∧
    WritesFlagsOnly { s.flags with eq := decide (s.v[ra].toNat = s.v[rb].toNat) } s t

/-- Every command with a modulus but CMPEQ is BAD_MODULUS, and writes nothing, when M = 0 (41_field_arith.md R140). -/
def Obligations.ZeroModulusIsBadModulus : Prop :=
  ∀ (rd ra rb : Reg) (ms : ModSel) (s : State), modulusOf ms s = 0 →
    ∀ i ∈ [Instr.mred rd ra ms, .mrednz rd ra ms, .madd rd ra rb ms, .msub rd ra rb ms, .mmul rd ra rb ms,
      .minv rd ra ms, .rchk ra ms], ∃ t, exec i s = .next t ∧ FailsWith .badModulus s t

/-! ### Curve engine -/

/-- ECMUL writes the engine's answer to the scalar V[ra], unreduced, and the point in (V[rb], V[rb+1]), or reports its
Fail (40_curve_engine.md R124, R123). -/
def Obligations.EcmulWritesEngineAnswer : Prop :=
  ∀ (rd ra rb : Reg) (s : State), rd.val % 2 = 0 → rb.val % 2 = 0 →
    ∃ t, exec (.ecmul rd ra rb) s = .next t ∧
      EndsWithAnswer rd s t (Config.engine.mul (curveArg s) s.v[ra].toNat ⟨s.v[rb], s.v[rb + 1]⟩)

/-- ECMULB does so for the base point (40_curve_engine.md R125). -/
def Obligations.EcmulbWritesEngineAnswerForBasePoint : Prop :=
  ∀ (rd ra : Reg) (s : State), rd.val % 2 = 0 →
    ∃ t, exec (.ecmulb rd ra) s = .next t ∧
      EndsWithAnswer rd s t (Config.engine.mul (curveArg s) s.v[ra].toNat ⟨s.curve.gx, s.curve.gy⟩)

/-- ECADD does so for the engine's sum of two points (40_curve_engine.md R126). -/
def Obligations.EcaddWritesEngineAnswer : Prop :=
  ∀ (rd ra rb : Reg) (s : State), rd.val % 2 = 0 → ra.val % 2 = 0 → rb.val % 2 = 0 →
    ∃ t, exec (.ecadd rd ra rb) s = .next t ∧
      EndsWithAnswer rd s t (Config.engine.add (curveArg s) ⟨s.v[ra], s.v[ra + 1]⟩ ⟨s.v[rb], s.v[rb + 1]⟩)

/-- The reference engine of the spec's vectors meets the engine contract, with its internal point at infinity
(40_curve_engine.md R127, R121). That the group of R121 is Mathlib's group of a Weierstrass curve is the model's reading
(PRESUMED, log entry 19), that the contract takes GX and GY modulo P is its choice (DESIGN CHOICE, log entry 27), and so is
what the engine does outside the contract (log entry 20). -/
def Obligations.ReferenceEngineMeetsContract : Prop := Safety.EngineContract engineRef

/-! ### Coordinate transform -/

/-- TOEDW on a curve with EDW = 1, where y and x - edT + edS are invertible: u and v are the residues with
u y = x - edT and v (x - edT + edS) = x - edT - edS modulo P, and the cache is filled (44_coord_transform.md R222,
R223). -/
def Obligations.ToedwSolvesTheMap : Prop :=
  ∀ (rd ra : Reg) (s : State) (es et : Nat), rd.val % 2 = 0 → ra.val % 2 = 0 → s.edw = true →
    s.curve.p.toNat ≠ 0 → (s.cache.edv = false → Nat.Coprime 6 s.curve.p.toNat) → TransformConstants s es et →
    Nat.Coprime s.v[ra + 1].toNat s.curve.p.toNat →
    Int.gcd ((s.v[ra].toNat : Int) - et + es) s.curve.p.toNat = 1 →
    ∃ t u v, exec (.toedw rd ra) s = .next t ∧ WritesPairAndCache rd u v es et s t ∧
      u < s.curve.p.toNat ∧ v < s.curve.p.toNat ∧
      (s.curve.p.toNat : Int) ∣ (u : Int) * s.v[ra + 1].toNat - (s.v[ra].toNat - et) ∧
      (s.curve.p.toNat : Int) ∣ (v : Int) * (s.v[ra].toNat - et + es) - (s.v[ra].toNat - et - es)

/-- TOWEI on such a curve, where u and 1 - v are invertible: x and y are the residues for which w = x - edT has
w (1 - v) = edS (1 + v) and y u = w modulo P, and the cache is filled (44_coord_transform.md R222, R224). -/
def Obligations.ToweiSolvesTheInverseMap : Prop :=
  ∀ (rd ra : Reg) (s : State) (es et : Nat), rd.val % 2 = 0 → ra.val % 2 = 0 → s.edw = true →
    s.curve.p.toNat ≠ 0 → (s.cache.edv = false → Nat.Coprime 6 s.curve.p.toNat) → TransformConstants s es et →
    Nat.Coprime s.v[ra].toNat s.curve.p.toNat →
    Int.gcd (1 - (s.v[ra + 1].toNat : Int)) s.curve.p.toNat = 1 →
    ∃ t x y, exec (.towei rd ra) s = .next t ∧ WritesPairAndCache rd x y es et s t ∧
      x < s.curve.p.toNat ∧ y < s.curve.p.toNat ∧
      (s.curve.p.toNat : Int) ∣ ((x : Int) - et) * (1 - s.v[ra + 1].toNat) - es * (1 + s.v[ra + 1].toNat) ∧
      (s.curve.p.toNat : Int) ∣ (y : Int) * s.v[ra].toNat - (x - et)

/-- Both transforms, by their first failing check: an odd field, EDW = 0, P = 0, and P sharing a factor with 2 or 3 while
the cache is invalid (44_coord_transform.md R220, R221; 60_exceptions.md R272). -/
def Obligations.TransformChecksInOrder : Prop :=
  ∀ (rd ra : Reg) (s : State), ∀ i ∈ [Instr.toedw rd ra, .towei rd ra], ∃ t, exec i s = .next t ∧
    if rd.val % 2 = 1 ∨ ra.val % 2 = 1 then FailsWith .illegalOperand s t
    else if s.edw = false then FailsWith .unsupportedCurveForm s t
    else if s.curve.p.toNat = 0 then FailsWith .badModulus s t
    else if s.cache.edv = false ∧ (2 ∣ s.curve.p.toNat ∨ 3 ∣ s.curve.p.toNat) then FailsWith .notInvertible s t
    else FailsWith .notInvertible s t ∨ t.errcode = .none

/-- TOEDW is NOT_INVERTIBLE when y or x - edT + edS shares a factor with P (44_coord_transform.md R223), and TOWEI when
u or 1 - v does (R224). -/
def Obligations.TransformReportsNotInvertible : Prop :=
  ∀ (rd ra : Reg) (s : State) (es et : Nat), rd.val % 2 = 0 → ra.val % 2 = 0 → s.edw = true →
    s.curve.p.toNat ≠ 0 → TransformConstants s es et →
    (¬ Nat.Coprime s.v[ra + 1].toNat s.curve.p.toNat ∨
      Int.gcd ((s.v[ra].toNat : Int) - et + es) s.curve.p.toNat ≠ 1 →
      ∃ t, exec (.toedw rd ra) s = .next t ∧ FailsWith .notInvertible s t) ∧
    (¬ Nat.Coprime s.v[ra].toNat s.curve.p.toNat ∨
      Int.gcd (1 - (s.v[ra + 1].toNat : Int)) s.curve.p.toNat ≠ 1 →
      ∃ t, exec (.towei rd ra) s = .next t ∧ FailsWith .notInvertible s t)

/-- Whether the Edwards cache is valid never changes a transform's result, only whether EDV reads 1 before it
(10_state.md R37, 44_coord_transform.md R222). -/
def Obligations.CacheNeverChangesTransformResult : Prop :=
  ∀ (rd ra : Reg) (s : State), Safety.CacheCoherent s →
    ∀ i ∈ [Instr.toedw rd ra, .towei rd ra], ∃ t u, exec i s = .next t ∧
      exec i { s with cache := { s.cache with edv := false } } = .next u ∧
      u = { t with cache := if t.errcode = .none then t.cache else { s.cache with edv := false } }

/-- For a prime P > 3 and edS not 0: where y, w = x - edT and w + edS are not 0 modulo P, TOEDW succeeds, TOWEI succeeds
on its result, and returns x mod P and y mod P (44_coord_transform.md R225, law 1). -/
def Obligations.ToweiUndoesToedw : Prop :=
  ∀ (rd ra rx : Reg) (s : State) (es et : Nat), rd.val % 2 = 0 → ra.val % 2 = 0 → rx.val % 2 = 0 → s.edw = true →
    s.curve.p.toNat.Prime → 3 < s.curve.p.toNat → Safety.CacheCoherent s → TransformConstants s es et → es ≠ 0 →
    ¬ (s.curve.p.toNat : Int) ∣ s.v[ra + 1].toNat →
    ¬ (s.curve.p.toNat : Int) ∣ (s.v[ra].toNat : Int) - et →
    ¬ (s.curve.p.toNat : Int) ∣ (s.v[ra].toNat : Int) - et + es →
    ∃ t u, exec (.toedw rd ra) s = .next t ∧ t.errcode = .none ∧ exec (.towei rx rd) t = .next u ∧
      u.errcode = .none ∧ u.v[rx].toNat = s.v[ra].toNat % s.curve.p.toNat ∧
      u.v[rx + 1].toNat = s.v[ra + 1].toNat % s.curve.p.toNat

/-- For a prime P > 3 and edS not 0: where u is not 0 and v is neither 1 nor -1 modulo P, TOWEI succeeds, TOEDW succeeds
on its result, and returns u mod P and v mod P (44_coord_transform.md R225, law 2). -/
def Obligations.ToedwUndoesTowei : Prop :=
  ∀ (rd ra rx : Reg) (s : State) (es et : Nat), rd.val % 2 = 0 → ra.val % 2 = 0 → rx.val % 2 = 0 → s.edw = true →
    s.curve.p.toNat.Prime → 3 < s.curve.p.toNat → Safety.CacheCoherent s → TransformConstants s es et → es ≠ 0 →
    ¬ (s.curve.p.toNat : Int) ∣ s.v[ra].toNat →
    ¬ (s.curve.p.toNat : Int) ∣ (s.v[ra + 1].toNat : Int) - 1 →
    ¬ (s.curve.p.toNat : Int) ∣ (s.v[ra + 1].toNat : Int) + 1 →
    ∃ t u, exec (.towei rd ra) s = .next t ∧ t.errcode = .none ∧ exec (.toedw rx rd) t = .next u ∧
      u.errcode = .none ∧ u.v[rx].toNat = s.v[ra].toNat % s.curve.p.toNat ∧
      u.v[rx + 1].toNat = s.v[ra + 1].toNat % s.curve.p.toNat

/-- For a prime P > 3 and edS = 0: every TOEDW that succeeds has v = 1, and TOWEI of its result is NOT_INVERTIBLE
(44_coord_transform.md R225). -/
def Obligations.EqualCoefficientsMakeToedwOneWay : Prop :=
  ∀ (rd ra rx : Reg) (s : State) (et : Nat), rd.val % 2 = 0 → ra.val % 2 = 0 → rx.val % 2 = 0 → s.edw = true →
    s.curve.p.toNat.Prime → 3 < s.curve.p.toNat → TransformConstants s 0 et →
    ∃ t, exec (.toedw rd ra) s = .next t ∧ (t.errcode = .none →
      t.v[rd + 1] = 1 ∧ ∃ u, exec (.towei rx rd) t = .next u ∧ FailsWith .notInvertible t u)

/-! ### ECIES -/

/-- KDFX, by its first failing check: ILLEGAL_OPERAND, LENGTH, OPERAND_RANGE; else every byte of the destination is the
source byte as it was XOR the mask byte, MZ says whether the mask is non-empty and all zero, and nothing else changes
(43_kdf_ecies.md R192 to R195). BUF in canonical form. -/
def Obligations.KdfxXorsMaskOverRegion : Prop :=
  ∀ (ra : Reg) (s : State), Memory.wf s.buf → ∃ t, exec (.kdfx ra) s = .next t ∧
    if ra.val % 2 = 1 then FailsWith .illegalOperand s t
    else if ¬ Legal s.bufSrc.toNat s.bufLen.toNat ∨ ¬ Legal s.bufDst.toNat s.bufLen.toNat then FailsWith .length s t
    else if 2 ^ 256 ≤ s.v[ra].toNat ∨ 2 ^ 256 ≤ s.v[ra + 1].toNat then FailsWith .operandRange s t
    else
      (∀ i, i < s.bufLen.toNat → t.buf.read (s.bufDst.toNat + i) =
        s.buf.read (s.bufSrc.toNat + i) ^^^ maskByte Config.hash s.v[ra].toNat s.v[ra + 1].toNat i) ∧
      KeepsBytesBut s.bufDst.toNat s.bufLen.toNat s t ∧
      (t.flags.mz = true ↔ 0 < s.bufLen.toNat ∧
        ∀ i, i < s.bufLen.toNat → maskByte Config.hash s.v[ra].toNat s.v[ra + 1].toNat i = 0#8) ∧
      t.flags.z = s.flags.z ∧ t.flags.eq = s.flags.eq ∧ t.flags.inRange = s.flags.inRange ∧
      KeepsRegsBut [] s t ∧ t.cache = s.cache ∧ KeepsSettings s t ∧ Completes s t .none

/-- HTAG, by its first failing check: ILLEGAL_OPERAND, LENGTH, OPERAND_RANGE; else the 32 bytes of
HASH(be_32(x) || data || be_32(y)) at BUF_DST, and nothing else changes (43_kdf_ecies.md R196). BUF in canonical form. -/
def Obligations.HtagStoresTag : Prop :=
  ∀ (ra : Reg) (s : State), Memory.wf s.buf → ∃ t, exec (.htag ra) s = .next t ∧
    if ra.val % 2 = 1 then FailsWith .illegalOperand s t
    else if ¬ Legal s.bufSrc.toNat s.bufLen.toNat ∨ ¬ Legal s.bufDst.toNat 32 then FailsWith .length s t
    else if 2 ^ 256 ≤ s.v[ra].toNat ∨ 2 ^ 256 ≤ s.v[ra + 1].toNat then FailsWith .operandRange s t
    else
      (∀ i : Fin 32, t.buf.read (s.bufDst.toNat + i.val) =
        (Config.hash (beString 32 s.v[ra].toNat ++ bufString s s.bufSrc.toNat s.bufLen.toNat ++
          beString 32 s.v[ra + 1].toNat))[i]) ∧
      KeepsBytesBut s.bufDst.toNat 32 s t ∧ t.flags = s.flags ∧ KeepsRegsBut [] s t ∧ t.cache = s.cache ∧
      KeepsSettings s t ∧ Completes s t .none

/-- BCMP writes EQ with the equality of the two regions, byte by byte, and nothing else; a region that leaves BUF is
LENGTH (43_kdf_ecies.md R197). -/
def Obligations.BcmpComparesRegions : Prop :=
  ∀ s : State, ∃ t, exec .bcmp s = .next t ∧
    if Legal s.bufSrc.toNat s.bufLen.toNat ∧ Legal s.bufDst.toNat s.bufLen.toNat then
      WritesFlagsOnly { s.flags with eq := decide (∀ i < s.bufLen.toNat,
        s.buf.read (s.bufSrc.toNat + i) = s.buf.read (s.bufDst.toNat + i)) } s t
    else FailsWith .length s t

/-- The mask of a shorter length is a prefix of the mask of a longer one (43_kdf_ecies.md R198, law 1). -/
def Obligations.ShorterMaskIsPrefix : Prop :=
  ∀ (hash : Config.Hash) (x y m n : Nat), m ≤ n →
    (kdf hash x y n).length = n ∧ kdf hash x y m = (kdf hash x y n).take m

/-- KDFX in place, twice with the same pair and length, restores the region and all of BUF (43_kdf_ecies.md R198,
law 2). -/
def Obligations.KdfxTwiceRestoresBuffer : Prop :=
  ∀ (ra : Reg) (s : State), Memory.wf s.buf → ra.val % 2 = 0 → s.bufSrc = s.bufDst →
    Legal s.bufSrc.toNat s.bufLen.toNat → s.v[ra].toNat < 2 ^ 256 → s.v[ra + 1].toNat < 2 ^ 256 →
    ∃ t u, exec (.kdfx ra) s = .next t ∧ t.errcode = .none ∧ exec (.kdfx ra) t = .next u ∧ u.errcode = .none ∧
      u.buf = s.buf

/-! ### The window -/

/-- The refused accesses are exactly those of 20_memory.md R67, and a refused access only sets ACCERR, a read answering
0; an access that is not refused never sets ACCERR. That the answer stands in `rdata`, and the next inputs in `inputs`, is
the model's own (log entries 1 and 5). -/
def Obligations.RefusedAccessesAreExactlyTheListed : Prop :=
  ∀ (s : State) (off : BitVec 14) (bits : Nat) (op : AccessOp) (rest : List Input),
    s.inputs = .access ⟨windowAddr off, bits, op⟩ :: rest →
    ∃ t, step s = .next t ∧
      (Refused s off.toNat bits op →
        t = { s with inputs := rest, accerr := true, rdata := if op = .read then 0#32 else s.rdata }) ∧
      (¬ Refused s off.toNat bits op → t.accerr = true → s.accerr = true)

/-- An accepted read changes no state of the block and answers what the register map says (20_memory.md R68, R62, R63;
10_state.md R21 to R34). -/
def Obligations.AcceptedReadAnswersRegisterMap : Prop :=
  ∀ (s : State) (off : BitVec 14) (rest : List Input),
    s.inputs = .access ⟨windowAddr off, 32, .read⟩ :: rest → ¬ Refused s off.toNat 32 .read →
    ∃ w : Word32, step s = .next { s with inputs := rest, rdata := w } ∧ w.toNat = readValue s off.toNat

/-- A write of word j of V[i] while idle replaces those 32 bits and leaves everything else (20_memory.md R62,
10_state.md R34). -/
def Obligations.WordWriteToVReplacesOneWord : Prop :=
  ∀ (s : State) (i : Reg) (j : Fin 16) (w : Word32) (rest : List Input), s.seq = .idle →
    s.inputs = .access ⟨windowAddr (BitVec.ofNat 14 (0x400 + 64 * i.val + 4 * j.val)), 32, .write w⟩ :: rest →
    ∃ x : Big, step s = .next { s with inputs := rest, v := s.v.set i x } ∧ IsWordWrite s.v[i] x j w

/-- A write of word j of a curve register while idle and not locked replaces those 32 bits; EDV is cleared for P, E and
D and kept for Q, A, B, GX and GY; nothing else changes (10_state.md R31, R39). -/
def Obligations.CurveWriteReplacesWordAndDropsCache : Prop :=
  ∀ (s : State) (k : Fin 8) (j : Fin 16) (w : Word32) (rest : List Input), s.seq = .idle → s.lock = false →
    s.inputs = .access ⟨windowAddr (BitVec.ofNat 14 (0x100 + 64 * k.val + 4 * j.val)), 32, .write w⟩ :: rest →
    ∃ x : Big, step s = .next { s with
        inputs := rest
        curve := s.curve.set (curveRegAt k) x
        cache := { s.cache with edv := s.cache.edv && decide (k ∈ ([1, 2, 3, 4, 5] : List (Fin 8))) } } ∧
      IsWordWrite (s.curve.get (curveRegAt k)) x j w

/-- A word write to BUF while idle replaces the four bytes of its lanes and no other byte or register (20_memory.md
R63). BUF in canonical form. -/
def Obligations.WordWriteToBufReplacesFourBytes : Prop :=
  ∀ (s : State) (j : Fin 2048) (w : Word32) (rest : List Input), Memory.wf s.buf → s.seq = .idle →
    s.inputs = .access ⟨windowAddr (BitVec.ofNat 14 (0x2000 + 4 * j.val)), 32, .write w⟩ :: rest →
    ∃ m : Memory, step s = .next { s with inputs := rest, buf := m } ∧
      (∀ k, k < 4 → (m.read (4 * j.val + k)).toNat = w.toNat / 256 ^ k % 256) ∧
      ∀ a, a < 4 * j.val ∨ 4 * j.val + 4 ≤ a → m.read a = s.buf.read a

/-- A write to CTRL, also while BUSY: IE takes bit 0, LOCK is set by bit 1 and never cleared, and bit 2 performs the soft
reset of 10_state.md R41, which discards a command in flight (10_state.md R22, 70_reset_and_hazards.md R313). The clauses
on `rdata` and `inputs` are the model's own (log entries 1 and 5). -/
def Obligations.CtrlWriteSetsFieldsThenSoftResets : Prop :=
  ∀ (s : State) (w : Word32) (rest : List Input),
    s.inputs = .access ⟨windowAddr 0x004#14, 32, .write w⟩ :: rest →
    ∃ t, step s = .next t ∧ t.ie = w.getLsbD 0 ∧ t.lock = (s.lock || w.getLsbD 1) ∧ t.edw = s.edw ∧
      t.curve = s.curve ∧ t.cache = s.cache ∧ t.rdata = s.rdata ∧ t.inputs = rest ∧
      if w.getLsbD 2 then
        t.seq = .idle ∧ t.done = false ∧ t.accerr = false ∧ t.errcode = .none ∧
        t.flags = ⟨false, false, false, false⟩ ∧ t.bufSrc = 0 ∧ t.bufDst = 0 ∧ t.bufLen = 0 ∧ t.cmdcnt = 0 ∧
        (∀ r : Reg, t.v[r] = 0) ∧ ∀ a, t.buf.read a = 0
      else
        t.seq = s.seq ∧ t.done = s.done ∧ t.accerr = s.accerr ∧ t.errcode = s.errcode ∧ t.flags = s.flags ∧
        t.bufSrc = s.bufSrc ∧ t.bufDst = s.bufDst ∧ t.bufLen = s.bufLen ∧ t.cmdcnt = s.cmdcnt ∧ t.v = s.v ∧
        t.buf = s.buf

/-- A write to STATUS clears DONE if bit 1 is 1 and ACCERR if bit 3 is 1, and nothing else (10_state.md R23). -/
def Obligations.StatusWriteClearsDoneAndAccerr : Prop :=
  ∀ (s : State) (w : Word32) (rest : List Input),
    s.inputs = .access ⟨windowAddr 0x008#14, 32, .write w⟩ :: rest →
    ∃ t, step s = .next t ∧ t = { s with
      inputs := rest
      done := if w.getLsbD 1 then false else s.done
      accerr := if w.getLsbD 3 then false else s.accerr }

/-- Writes to BUF_SRC, BUF_DST and BUF_LEN while idle store bits [15:0] and nothing else (10_state.md R25, R26, R27). -/
def Obligations.BufRegisterWritesStoreLowHalf : Prop :=
  ∀ (s : State) (w : Word32) (rest : List Input), s.seq = .idle →
    (s.inputs = .access ⟨windowAddr 0x010#14, 32, .write w⟩ :: rest →
      step s = .next { s with inputs := rest, bufSrc := BitVec.ofNat 16 w.toNat }) ∧
    (s.inputs = .access ⟨windowAddr 0x014#14, 32, .write w⟩ :: rest →
      step s = .next { s with inputs := rest, bufDst := BitVec.ofNat 16 w.toNat }) ∧
    (s.inputs = .access ⟨windowAddr 0x018#14, 32, .write w⟩ :: rest →
      step s = .next { s with inputs := rest, bufLen := BitVec.ofNat 16 w.toNat })

/-- A write to CURVE_CFG while idle and not locked sets EDW to bit 0, clears EDV and does nothing else (10_state.md R30,
R39). -/
def Obligations.CurveCfgWriteSetsEdwAndDropsCache : Prop :=
  ∀ (s : State) (w : Word32) (rest : List Input), s.seq = .idle → s.lock = false →
    s.inputs = .access ⟨windowAddr 0x01C#14, 32, .write w⟩ :: rest →
    step s = .next { s with inputs := rest, edw := w.getLsbD 0, cache := { s.cache with edv := false } }

/-! ### Whole-machine rules -/

/-- A hardware reset sets every piece of state to its reset value and discards a command in flight (10_state.md R41,
70_reset_and_hazards.md R312). The two fields that are the model's own stay (log entry 5). -/
def Obligations.HardwareResetRestoresResetState : Prop :=
  ∀ (s : State) (rest : List Input), s.inputs = .hardwareReset :: rest →
    step s = .next { State.reset with rdata := s.rdata, inputs := rest }

/-- The values of 10_state.md R41 after a hardware reset. -/
def Obligations.ResetStateIsAllZeroAndIdle : Prop :=
  State.reset.seq = .idle ∧ State.reset.ie = false ∧ State.reset.lock = false ∧ State.reset.done = false ∧
    State.reset.accerr = false ∧ State.reset.errcode = .none ∧ State.reset.flags = ⟨false, false, false, false⟩ ∧
    State.reset.cache = ⟨false, 0, 0⟩ ∧ State.reset.bufSrc = 0 ∧ State.reset.bufDst = 0 ∧ State.reset.bufLen = 0 ∧
    State.reset.cmdcnt = 0 ∧ State.reset.edw = false ∧ State.reset.curve = ⟨0, 0, 0, 0, 0, 0, 0, 0⟩ ∧
    (∀ r : Reg, State.reset.v[r] = 0) ∧ (∀ a, State.reset.buf.read a = 0) ∧ State.reset.psize = 0 ∧
    State.reset.irq = false

/-- While LOCK = 1 no step but a hardware reset changes LOCK, a curve register or CURVE_CFG (10_state.md R22, R38). -/
def Obligations.LockedCurveChangesOnlyByHardwareReset : Prop :=
  ∀ s t : State, s.lock = true → step s = .next t → (∀ rest, s.inputs ≠ .hardwareReset :: rest) →
    t.lock = true ∧ t.curve = s.curve ∧ t.edw = s.edw

/-- While BUSY a host access that is not a soft reset, to whatever address and of whatever width, leaves the latched word
and everything a command reads as it was (10_state.md R36, 20_memory.md R66); one that is discards the command
(70_reset_and_hazards.md R313). -/
def Obligations.BusyAccessKeepsWhatTheCommandReads : Prop :=
  ∀ (s t : State) (c : Word32) (a : Access) (rest : List Input), s.seq = .busy c → s.inputs = .access a :: rest →
    step s = .next t →
    (SoftResets a → t.seq = .idle ∧ t.done = false ∧ t.cmdcnt = 0) ∧
    (¬ SoftResets a →
      t.seq = .busy c ∧ t.v = s.v ∧ t.buf = s.buf ∧ t.curve = s.curve ∧ t.edw = s.edw ∧ t.cache = s.cache ∧
        t.bufSrc = s.bufSrc ∧ t.bufDst = s.bufDst ∧ t.bufLen = s.bufLen ∧ t.flags = s.flags ∧
        t.errcode = s.errcode ∧ t.cmdcnt = s.cmdcnt)

/-- CMDCNT counts completions: a step that completes a command adds 1 modulo 2^32, a hardware or soft reset clears the
count, and every other step keeps it (10_state.md R28, 60_exceptions.md R274). That a busy block with no inputs left
completes is the model's choice (log entry 2). -/
def Obligations.CmdcntCountsCompletions : Prop :=
  ∀ s t : State, step s = .next t →
    (Completing s → t.cmdcnt.toNat = (s.cmdcnt.toNat + 1) % 2 ^ 32 ∧ t.seq = .idle ∧ t.done = true) ∧
    (Resetting s → t.cmdcnt = 0) ∧
    (¬ Completing s → ¬ Resetting s → t.cmdcnt = s.cmdcnt)

/-- The interrupt output is CTRL.IE and STATUS.DONE: after a command completes it is IE; the acceptance of a command,
writing 1 to DONE, clearing IE, a soft reset and a hardware reset leave it deasserted; while it is deasserted no refused
access asserts it (60_exceptions.md R280, R275). -/
def Obligations.InterruptFollowsCompletion : Prop :=
  ∀ s : State, (s.irq = true ↔ s.ie = true ∧ s.done = true) ∧
    (∀ i, ∃ t, exec i s = .next t ∧ t.irq = s.ie) ∧
    (∀ rest, s.inputs = .hardwareReset :: rest → ∃ t, step s = .next t ∧ t.irq = false) ∧
    (∀ w rest, s.inputs = .access ⟨windowAddr 0x00C#14, 32, .write w⟩ :: rest → s.seq = .idle →
      ∃ t, step s = .next t ∧ t.irq = false) ∧
    (∀ w rest, s.inputs = .access ⟨windowAddr 0x008#14, 32, .write w⟩ :: rest → w.getLsbD 1 = true →
      ∃ t, step s = .next t ∧ t.irq = false) ∧
    (∀ w rest, s.inputs = .access ⟨windowAddr 0x004#14, 32, .write w⟩ :: rest →
      w.getLsbD 0 = false ∨ w.getLsbD 2 = true → ∃ t, step s = .next t ∧ t.irq = false) ∧
    ∀ (off : BitVec 14) (bits : Nat) (op : AccessOp) rest, s.inputs = .access ⟨windowAddr off, bits, op⟩ :: rest →
      Refused s off.toNat bits op → ∃ t, step s = .next t ∧ t.irq = s.irq

/-- The machine never stops: every step of every state answers a next state (60_exceptions.md R270). -/
def Obligations.EveryStepAnswersNextState : Prop := ∀ s : State, ∃ t, step s = .next t

/-- Every step keeps the invariant: BUF in canonical form, a valid cache equal to EdConsts() of the current P, E, D with
P not 0, DONE = 0 while BUSY, EDV = 1 only with EDW = 1 (44_coord_transform.md R222, 10_state.md R37, R39). -/
def Obligations.EveryStepKeepsTheInvariant : Prop :=
  ∀ s t : State, Safety.Inv s → step s = .next t → Safety.Inv t

/-- The invariant holds after a hardware reset. -/
def Obligations.InvariantHoldsAtReset : Prop := Safety.Inv State.reset
end

