-- ==== Sys2Proof/Laws/Integers.lean ====
section
/-! SUPPORT. The integer and byte-string operations against their definitions in 00_scope.md R11 and R13. -/

namespace Sys2Proof.Machine

/-! ### Residues -/

/-- `subMod` is the Euclidean residue of the difference. -/
theorem subMod_cast (a b m : Nat) (hm : m ≠ 0) : ((subMod a b m : Nat) : Int) = ((a : Int) - b) % m := by
  unfold subMod
  exact Int.toNat_of_nonneg (Int.emod_nonneg _ (by exact_mod_cast hm))

theorem subMod_lt (a b m : Nat) (hm : m ≠ 0) : subMod a b m < m := by
  have := subMod_cast a b m hm
  have h2 : ((a : Int) - b) % m < m := Int.emod_lt_of_pos _ (by omega)
  omega

/-- The loop invariant of the extended Euclidean algorithm: from remainders that are t0 * a and t1 * a modulo m, it ends
with a coefficient t for which t * a is the gcd of the remainders modulo m. -/
theorem euclidCoeff_spec (m a : Int) : ∀ (fuel r0 r1 : Nat) (t0 t1 : Int), r1 < fuel →
    m ∣ (r0 : Int) - t0 * a → m ∣ (r1 : Int) - t1 * a →
    m ∣ (Nat.gcd r0 r1 : Int) - euclidCoeff fuel r0 r1 t0 t1 * a := by
  intro fuel
  induction fuel with
  | zero => intro r0 r1 t0 t1 h; omega
  | succ fuel ih =>
    intro r0 r1 t0 t1 h h0 h1
    unfold euclidCoeff
    split
    · next hr => subst hr; simpa using h0
    · next hr =>
      have hlt : r0 % r1 < r1 := Nat.mod_lt _ (by omega)
      have hg : Nat.gcd r0 r1 = Nat.gcd r1 (r0 % r1) := by
        rw [Nat.gcd_comm, Nat.gcd_rec, Nat.gcd_comm]
      rw [hg]
      refine ih r1 (r0 % r1) t1 _ (by omega) h1 ?_
      have hdm : (r0 : Int) = r1 * (r0 / r1 : Nat) + (r0 % r1 : Nat) := by exact_mod_cast (Nat.div_add_mod r0 r1).symm
      have : ((r0 % r1 : Nat) : Int) - (t0 - ((r0 / r1 : Nat) : Int) * t1) * a
          = ((r0 : Int) - t0 * a) - ((r0 / r1 : Nat) : Int) * ((r1 : Int) - t1 * a) := by
        rw [hdm]; ring
      rw [this]
      exact dvd_sub h0 (Dvd.dvd.mul_left h1 _)

/-- What `invMod` answers: exactly on the invertible residues, and there the inverse in [0, m) (00_scope.md R11). -/
theorem invMod_eq_some {a m x : Nat} (hm : m ≠ 0) (h : invMod a m = some x) :
    Nat.gcd (a % m) m = 1 ∧ x < m ∧ (a * x) % m = 1 % m := by
  unfold invMod at h
  split at h
  · next hg =>
    set k := euclidCoeff (m + 1) m (a % m) 0 1 with hk
    have hx : ((x : Nat) : Int) = k % m := by
      have := Option.some.inj h
      rw [← this]
      exact Int.toNat_of_nonneg (Int.emod_nonneg _ (by exact_mod_cast hm))
    have hlt : k % (m : Int) < m := Int.emod_lt_of_pos _ (by omega)
    have hspec := euclidCoeff_spec (m : Int) ((a % m : Nat) : Int) (m + 1) m (a % m) 0 1
      (by have := Nat.mod_lt a (Nat.pos_of_ne_zero hm); omega) (by simp) (by simp)
    rw [Nat.gcd_comm, hg, ← hk] at hspec
    refine ⟨hg, by omega, ?_⟩
    have h1 : k * ((a % m : Nat) : Int) ≡ 1 [ZMOD m] := (Int.modEq_iff_dvd.2 (by simpa using hspec))
    have h2 : (a : Int) * x ≡ 1 [ZMOD m] := by
      have hxk : (x : Int) ≡ k [ZMOD m] := by rw [hx]; exact Int.mod_modEq k m
      have ham : (a : Int) ≡ ((a % m : Nat) : Int) [ZMOD m] := by
        rw [Int.natCast_mod]; exact (Int.mod_modEq _ _).symm
      calc (a : Int) * x ≡ ((a % m : Nat) : Int) * k [ZMOD m] := ham.mul hxk
        _ = k * ((a % m : Nat) : Int) := Int.mul_comm _ _
        _ ≡ 1 [ZMOD m] := h1
    have h3 : ((a * x : Nat) : Int) % m = ((1 : Nat) : Int) % m := by push_cast; exact h2
    exact_mod_cast h3
  · cases h

theorem invMod_eq_none {a m : Nat} : invMod a m = none ↔ Nat.gcd (a % m) m ≠ 1 := by
  unfold invMod; split <;> simp [*]

theorem invMod_isSome {a m : Nat} : (∃ x, invMod a m = some x) ↔ Nat.gcd (a % m) m = 1 := by
  unfold invMod; split <;> simp [*]

/-- The inverse is unique in [0, m). -/
theorem inverse_unique {a m x y : Nat} (hx : x < m) (hy : y < m) (h1 : (a * x) % m = 1 % m)
    (h2 : (a * y) % m = 1 % m) : x = y := by
  have e1 : a * x ≡ 1 [MOD m] := h1
  have e2 : a * y ≡ 1 [MOD m] := h2
  have : x ≡ y [MOD m] := by
    calc x = 1 * x := (one_mul x).symm
      _ ≡ (a * y) * x [MOD m] := (e2.symm.mul_right x)
      _ = (a * x) * y := by ring
      _ ≡ 1 * y [MOD m] := e1.mul_right y
      _ = y := one_mul y
  exact Nat.ModEq.eq_of_lt_of_lt this hx hy

/-- A value below 2^512 is kept by a register. -/
theorem toNat_toBig {n : Nat} (h : n < 2 ^ 512) : (toBig n).toNat = n := by
  rw [toBig, BitVec.toNat_ofNat, Nat.mod_eq_of_lt h]

/-! ### Byte strings -/

@[simp] theorem length_leBytes (n v : Nat) : (leBytes n v).length = n := by
  induction n generalizing v with
  | zero => rfl
  | succ n ih => simp [leBytes, ih]

@[simp] theorem length_beBytes (n v : Nat) : (beBytes n v).length = n := by simp [beBytes]

@[simp] theorem length_toBytes (o : ByteOrder) (n v : Nat) : (toBytes o n v).length = n := by
  cases o <;> simp [toBytes]

/-- Byte i of le_n(v) is (v div 256^i) mod 256. -/
theorem getElem_leBytes (n v i : Nat) (h : i < (leBytes n v).length) :
    (leBytes n v)[i] = BitVec.ofNat 8 (v / 256 ^ i) := by
  induction n generalizing v i with
  | zero => simp at h
  | succ n ih =>
    cases i with
    | zero => simp [leBytes]
    | succ i =>
      simp only [leBytes, List.getElem_cons_succ]
      rw [ih (v / 256) i (by simpa [leBytes] using h), Nat.div_div_eq_div_mul, pow_succ, Nat.mul_comm]

/-- Byte i of be_n(v) is (v div 256^(n-1-i)) mod 256 (00_scope.md R13). -/
theorem getElem_beBytes (n v i : Nat) (h : i < (beBytes n v).length) :
    (beBytes n v)[i] = BitVec.ofNat 8 (v / 256 ^ (n - 1 - i)) := by
  have h' : i < (leBytes n v).reverse.length := h
  show (leBytes n v).reverse[i] = _
  rw [List.getElem_reverse, getElem_leBytes]
  simp

theorem intLE_lt (s : Bytes) : intLE s < 256 ^ s.length := by
  induction s with
  | nil => simp [intLE]
  | cons b s ih =>
    simp only [intLE, List.length_cons, pow_succ]
    have := b.isLt
    omega

theorem intBE_lt (s : Bytes) : intBE s < 256 ^ s.length := by
  simpa [intBE] using intLE_lt s.reverse

theorem ofBytes_lt (o : ByteOrder) (s : Bytes) : ofBytes o s < 256 ^ s.length := by
  cases o
  · exact intBE_lt s
  · exact intLE_lt s

theorem intLE_leBytes (n v : Nat) (h : v < 256 ^ n) : intLE (leBytes n v) = v := by
  induction n generalizing v with
  | zero => simp at h; simp [leBytes, intLE, h]
  | succ n ih =>
    have hd : v / 256 < 256 ^ n := by
      rw [Nat.div_lt_iff_lt_mul (by omega)]; rw [pow_succ] at h; exact h
    simp only [leBytes, intLE, ih _ hd, BitVec.toNat_ofNat]
    have := Nat.mod_add_div v 256
    norm_num at this ⊢
    exact this

theorem intBE_beBytes (n v : Nat) (h : v < 256 ^ n) : intBE (beBytes n v) = v := by
  simp [intBE, beBytes, intLE_leBytes n v h]

/-- Reading the bytes of a value that fits gives the value back, in either order. -/
theorem ofBytes_toBytes (o : ByteOrder) (n v : Nat) (h : v < 256 ^ n) : ofBytes o (toBytes o n v) = v := by
  cases o
  · exact intBE_beBytes n v h
  · exact intLE_leBytes n v h

/-- int_le as a sum over the bytes. -/
theorem intLE_eq_sum (s : Bytes) : intLE s = ∑ i : Fin s.length, s[i].toNat * 256 ^ i.val := by
  induction s with
  | nil => simp [intLE]
  | cons b s ih =>
    rw [intLE, ih]
    simp only [List.length_cons]
    rw [Fin.sum_univ_succ]
    simp only [Fin.getElem_fin, Fin.val_zero, List.getElem_cons_zero, pow_zero, mul_one, Fin.val_succ,
      List.getElem_cons_succ]
    rw [Finset.mul_sum]
    congr 1
    refine Finset.sum_congr rfl fun i _ => ?_
    rw [pow_succ]; ring

theorem toBytes_le_eq_reverse (n v : Nat) : toBytes .le n v = (toBytes .be n v).reverse := by
  simp [toBytes, beBytes]

@[simp] theorem length_xorBytes (s t : Bytes) : (xorBytes s t).length = min s.length t.length := by
  simp [xorBytes]

/-- XOR with one string twice is the identity. -/
theorem xorBytes_xorBytes (s t : Bytes) (h : s.length = t.length) : xorBytes (xorBytes s t) t = s := by
  refine List.ext_getElem (by simp [h]) fun i h1 h2 => ?_
  simp [xorBytes]

end Sys2Proof.Machine
end

