-- ==== Sys2Proof/Laws/Memory.lean ====
section
/-! SUPPORT. BUF as memory: what a read after a write gives, and that every operation keeps the canonical form. -/

namespace Sys2Proof.Machine.Memory

@[simp] theorem read_nil (a : Nat) : read [] a = unlisted := rfl

theorem read_cons (x : Nat) (c : Byte) (m : Memory) (a : Nat) :
    read ((x, c) :: m) a = if x = a then c else read m a := rfl

/-- Below every listed address nothing is listed. -/
theorem read_of_lt {m : Memory} {a : Nat} (h : ∀ c ∈ m, a < c.1) : read m a = unlisted := by
  induction m with
  | nil => rfl
  | cons c m ih =>
    obtain ⟨x, v⟩ := c
    have hx : a < x := h (x, v) (by simp)
    rw [read_cons, if_neg (by omega), ih fun c hc => h c (by simp [hc])]

theorem read_entry_append (m : Memory) (a x : Nat) (b : Byte) :
    read (entry a b ++ m) x = if x = a ∧ b ≠ unlisted then b else read m x := by
  unfold entry
  by_cases hb : b = unlisted
  · simp [hb]
  · by_cases hx : x = a
    · subst hx; simp [hb, read_cons]
    · simp [hb, hx, read_cons, Ne.symm hx]

theorem read_put_other (m : Memory) {a x : Nat} (b : Byte) (h : x ≠ a) : read (put m a b) x = read m x := by
  induction m with
  | nil => simpa [put, h] using read_entry_append [] a x b
  | cons c m ih =>
    obtain ⟨y, v⟩ := c
    unfold put
    split
    · simp [read_entry_append, h]
    · split
      · next hay => subst hay; simp [read_entry_append, h, read_cons, Ne.symm h]
      · simp [read_cons, ih]

theorem read_put_same {m : Memory} (a : Nat) (b : Byte) (h : m.Pairwise fun x y => x.1 < y.1) :
    read (put m a b) a = b := by
  induction m with
  | nil =>
    have := read_entry_append [] a a b
    simp only [List.append_nil] at this
    unfold put
    rw [this]
    by_cases hb : b = unlisted <;> simp [hb]
  | cons c m ih =>
    obtain ⟨y, v⟩ := c
    obtain ⟨hlt, hm⟩ := List.pairwise_cons.1 h
    have hrest : ∀ z, z ≤ y → (∀ c ∈ m, z < c.1) := fun z hz c hc => lt_of_le_of_lt hz (hlt c hc)
    unfold put
    split
    · next hay =>
      rw [read_entry_append]
      by_cases hb : b = unlisted
      · simp [hb, read_cons, Nat.ne_of_gt hay, read_of_lt (hrest a (by omega))]
      · simp [hb]
    · split
      · next hay =>
        subst hay
        rw [read_entry_append]
        by_cases hb : b = unlisted
        · simp [hb, read_of_lt (hrest a le_rfl)]
        · simp [hb]
      · next hay => rw [read_cons, if_neg (Ne.symm hay), ih hm]

theorem mem_put {m : Memory} {a : Nat} {b : Byte} {c : Host.Cell} (h : c ∈ put m a b) :
    (c = (a, b) ∧ b ≠ unlisted) ∨ c ∈ m := by
  have hentry : c ∈ entry a b → c = (a, b) ∧ b ≠ unlisted := by
    unfold entry; split <;> simp_all
  induction m with
  | nil => exact .inl (hentry h)
  | cons d m ih =>
    obtain ⟨y, v⟩ := d
    unfold put at h
    split at h
    · rcases List.mem_append.1 h with h | h
      · exact .inl (hentry h)
      · exact .inr h
    · split at h
      · rcases List.mem_append.1 h with h | h
        · exact .inl (hentry h)
        · exact .inr (by simp [h])
      · rcases List.mem_cons.1 h with h | h
        · exact .inr (by simp [h])
        · rcases ih h with h | h
          · exact .inl h
          · exact .inr (by simp [h])

theorem pairwise_put {m : Memory} (a : Nat) (b : Byte) (h : m.Pairwise fun x y => x.1 < y.1) :
    (put m a b).Pairwise fun x y => x.1 < y.1 := by
  have hentry : ∀ l : Memory, l.Pairwise (fun x y => x.1 < y.1) → (∀ c ∈ l, a < c.1) →
      (entry a b ++ l).Pairwise fun x y => x.1 < y.1 := by
    intro l hl hlt
    unfold entry
    split
    · simpa using hl
    · exact List.pairwise_cons.2 ⟨hlt, hl⟩
  induction m with
  | nil => simpa [put] using hentry [] List.Pairwise.nil (by simp)
  | cons c m ih =>
    obtain ⟨y, v⟩ := c
    obtain ⟨hlt, hm⟩ := List.pairwise_cons.1 h
    unfold put
    split
    · next hay =>
      refine hentry _ h fun c hc => ?_
      rcases List.mem_cons.1 hc with rfl | hc
      · exact hay
      · exact lt_trans hay (hlt c hc)
    · split
      · next hay => subst hay; exact hentry _ hm hlt
      · next hn hne =>
        refine List.pairwise_cons.2 ⟨fun c hc => ?_, ih hm⟩
        rcases mem_put hc with ⟨rfl, _⟩ | hc
        · show y < a; omega
        · exact hlt c hc

/-- Writing a byte of BUF keeps the canonical form. -/
theorem wf_write {m : Memory} (a : Nat) (b : Byte) (h : wf m) : wf (write m a b) := by
  unfold write
  split
  · next ha =>
    refine ⟨pairwise_put a b h.1, fun c hc => ?_⟩
    rcases mem_put hc with ⟨rfl, hb⟩ | hc
    · exact ⟨ha, hb⟩
    · exact h.2 c hc
  · exact h

theorem wf_nil : wf [] := ⟨List.Pairwise.nil, by simp⟩

/-- Writing a byte string keeps the canonical form. -/
theorem wf_writeBytes {m : Memory} (off : Nat) (s : Bytes) (h : wf m) : wf (writeBytes m off s) := by
  induction s generalizing m off with
  | nil => exact h
  | cons b s ih => exact ih (off + 1) (wf_write off b h)

theorem read_write_other (m : Memory) {a x : Nat} (b : Byte) (h : x ≠ a) : read (write m a b) x = read m x := by
  unfold write
  split
  · exact read_put_other m b h
  · rfl

theorem read_write_same {m : Memory} {a : Nat} (b : Byte) (h : wf m) (ha : a < Config.bufSize) :
    read (write m a b) a = b := by
  simp [write, ha, read_put_same a b h.1]

@[simp] theorem length_readBytes (m : Memory) (off n : Nat) : (readBytes m off n).length = n := by
  induction n generalizing off with
  | zero => rfl
  | succ n ih => simp [readBytes, ih]

/-- Byte i of a region read is the byte at offset off + i. -/
theorem getElem_readBytes (m : Memory) (off n i : Nat) (h : i < (readBytes m off n).length) :
    (readBytes m off n)[i] = read m (off + i) := by
  induction n generalizing off i with
  | zero => simp [readBytes] at h
  | succ n ih =>
    cases i with
    | zero => rfl
    | succ i =>
      simp only [readBytes, List.getElem_cons_succ]
      rw [ih (off + 1) i (by simpa [readBytes] using h)]
      congr 1; omega

theorem readBytes_congr {m m' : Memory} (off n : Nat) (h : ∀ i, i < n → read m (off + i) = read m' (off + i)) :
    readBytes m off n = readBytes m' off n :=
  List.ext_getElem (by simp) fun i h1 _ => by
    rw [getElem_readBytes, getElem_readBytes]; exact h i (by simpa using h1)

/-- Outside the bytes written nothing changes. -/
theorem read_writeBytes_other (m : Memory) (off : Nat) (s : Bytes) (a : Nat) (h : a < off ∨ off + s.length ≤ a) :
    read (writeBytes m off s) a = read m a := by
  induction s generalizing m off with
  | nil => rfl
  | cons b s ih =>
    simp only [List.length_cons] at h
    rw [writeBytes, ih _ _ (by omega), read_write_other m b (by omega)]

/-- Inside the bytes written, each reads as it was written. -/
theorem read_writeBytes_at {m : Memory} (off : Nat) (s : Bytes) (i : Nat) (hi : i < s.length) (hm : wf m)
    (hb : off + s.length ≤ Config.bufSize) : read (writeBytes m off s) (off + i) = s[i] := by
  induction s generalizing m off i with
  | nil => simp at hi
  | cons b s ih =>
    simp only [List.length_cons] at hi hb
    cases i with
    | zero =>
      rw [writeBytes, read_writeBytes_other _ _ _ _ (by omega)]
      exact read_write_same b hm (by omega)
    | succ i =>
      have := ih (off := off + 1) i (by omega) (wf_write off b hm) (by omega)
      rw [writeBytes, ← Nat.add_assoc, Nat.add_right_comm, this]
      rfl

/-- A region that was written reads back as what was written. -/
theorem readBytes_writeBytes {m : Memory} (off : Nat) (s : Bytes) (hm : wf m) (hb : off + s.length ≤ Config.bufSize) :
    readBytes (writeBytes m off s) off s.length = s :=
  List.ext_getElem (by simp) fun i h1 h2 => by rw [getElem_readBytes, read_writeBytes_at off s i h2 hm hb]

/-- Equal memories are equal data: two canonical memories that read alike are one list. -/
theorem eq_of_read_eq {m m' : Memory} (h : wf m) (h' : wf m') (hr : ∀ a, read m a = read m' a) : m = m' := by
  induction m generalizing m' with
  | nil =>
    cases m' with
    | nil => rfl
    | cons c m' =>
      obtain ⟨x, v⟩ := c
      have := hr x
      simp [read_cons] at this
      exact absurd this.symm (h'.2 (x, v) (by simp)).2
  | cons c m ih =>
    obtain ⟨x, v⟩ := c
    obtain ⟨hlt, hm⟩ := List.pairwise_cons.1 h.1
    have hv := (h.2 (x, v) (by simp)).2
    cases m' with
    | nil =>
      have := hr x
      simp [read_cons] at this
      exact absurd this hv
    | cons c' m' =>
      obtain ⟨x', v'⟩ := c'
      obtain ⟨hlt', hm'⟩ := List.pairwise_cons.1 h'.1
      have hv' := (h'.2 (x', v') (by simp)).2
      have hbelow : ∀ a, a < x → read ((x, v) :: m) a = unlisted := fun a ha => read_of_lt fun c hc => by
        rcases List.mem_cons.1 hc with rfl | hc
        · exact ha
        · exact lt_trans ha (hlt c hc)
      have hbelow' : ∀ a, a < x' → read ((x', v') :: m') a = unlisted := fun a ha => read_of_lt fun c hc => by
        rcases List.mem_cons.1 hc with rfl | hc
        · exact ha
        · exact lt_trans ha (hlt' c hc)
      have hx : x = x' := by
        rcases Nat.lt_trichotomy x x' with hlt | heq | hgt
        · have := hr x
          rw [hbelow' x hlt, read_cons, if_pos rfl] at this
          exact absurd this hv
        · exact heq
        · have := hr x'
          rw [hbelow x' hgt, read_cons, if_pos rfl] at this
          exact absurd this.symm hv'
      subst hx
      have hvv : v = v' := by simpa [read_cons] using hr x
      subst hvv
      have htail : m = m' := by
        refine ih ⟨hm, fun c hc => h.2 c (by simp [hc])⟩ ⟨hm', fun c hc => h'.2 c (by simp [hc])⟩ fun a => ?_
        by_cases ha : x = a
        · subst ha; rw [read_of_lt hlt, read_of_lt hlt']
        · simpa [read_cons, ha] using hr a
      rw [htail]

end Sys2Proof.Machine.Memory
end

