-- ==== Sys2Proof/Laws/State.lean ====
section
/-! SUPPORT. What each update of the state leaves in each field: one lemma per field per update, true by rfl. -/

namespace Sys2Proof.Machine

variable (s : State)

/-! ### setV -/

@[simp] theorem State.setV_seq (r : Reg) (x : Big) : (s.setV r x).seq = s.seq := rfl
@[simp] theorem State.setV_ie (r : Reg) (x : Big) : (s.setV r x).ie = s.ie := rfl
@[simp] theorem State.setV_lock (r : Reg) (x : Big) : (s.setV r x).lock = s.lock := rfl
@[simp] theorem State.setV_done (r : Reg) (x : Big) : (s.setV r x).done = s.done := rfl
@[simp] theorem State.setV_accerr (r : Reg) (x : Big) : (s.setV r x).accerr = s.accerr := rfl
@[simp] theorem State.setV_errcode (r : Reg) (x : Big) : (s.setV r x).errcode = s.errcode := rfl
@[simp] theorem State.setV_flags (r : Reg) (x : Big) : (s.setV r x).flags = s.flags := rfl
@[simp] theorem State.setV_cache (r : Reg) (x : Big) : (s.setV r x).cache = s.cache := rfl
@[simp] theorem State.setV_bufSrc (r : Reg) (x : Big) : (s.setV r x).bufSrc = s.bufSrc := rfl
@[simp] theorem State.setV_bufDst (r : Reg) (x : Big) : (s.setV r x).bufDst = s.bufDst := rfl
@[simp] theorem State.setV_bufLen (r : Reg) (x : Big) : (s.setV r x).bufLen = s.bufLen := rfl
@[simp] theorem State.setV_cmdcnt (r : Reg) (x : Big) : (s.setV r x).cmdcnt = s.cmdcnt := rfl
@[simp] theorem State.setV_edw (r : Reg) (x : Big) : (s.setV r x).edw = s.edw := rfl
@[simp] theorem State.setV_curve (r : Reg) (x : Big) : (s.setV r x).curve = s.curve := rfl
@[simp] theorem State.setV_v (r : Reg) (x : Big) : (s.setV r x).v = s.v.set r x := rfl
@[simp] theorem State.setV_buf (r : Reg) (x : Big) : (s.setV r x).buf = s.buf := rfl
@[simp] theorem State.setV_rdata (r : Reg) (x : Big) : (s.setV r x).rdata = s.rdata := rfl
@[simp] theorem State.setV_inputs (r : Reg) (x : Big) : (s.setV r x).inputs = s.inputs := rfl

/-! ### bufWrite -/

@[simp] theorem State.bufWrite_seq (off : Nat) (b : Bytes) : (s.bufWrite off b).seq = s.seq := rfl
@[simp] theorem State.bufWrite_ie (off : Nat) (b : Bytes) : (s.bufWrite off b).ie = s.ie := rfl
@[simp] theorem State.bufWrite_lock (off : Nat) (b : Bytes) : (s.bufWrite off b).lock = s.lock := rfl
@[simp] theorem State.bufWrite_done (off : Nat) (b : Bytes) : (s.bufWrite off b).done = s.done := rfl
@[simp] theorem State.bufWrite_accerr (off : Nat) (b : Bytes) : (s.bufWrite off b).accerr = s.accerr := rfl
@[simp] theorem State.bufWrite_errcode (off : Nat) (b : Bytes) : (s.bufWrite off b).errcode = s.errcode := rfl
@[simp] theorem State.bufWrite_flags (off : Nat) (b : Bytes) : (s.bufWrite off b).flags = s.flags := rfl
@[simp] theorem State.bufWrite_cache (off : Nat) (b : Bytes) : (s.bufWrite off b).cache = s.cache := rfl
@[simp] theorem State.bufWrite_bufSrc (off : Nat) (b : Bytes) : (s.bufWrite off b).bufSrc = s.bufSrc := rfl
@[simp] theorem State.bufWrite_bufDst (off : Nat) (b : Bytes) : (s.bufWrite off b).bufDst = s.bufDst := rfl
@[simp] theorem State.bufWrite_bufLen (off : Nat) (b : Bytes) : (s.bufWrite off b).bufLen = s.bufLen := rfl
@[simp] theorem State.bufWrite_cmdcnt (off : Nat) (b : Bytes) : (s.bufWrite off b).cmdcnt = s.cmdcnt := rfl
@[simp] theorem State.bufWrite_edw (off : Nat) (b : Bytes) : (s.bufWrite off b).edw = s.edw := rfl
@[simp] theorem State.bufWrite_curve (off : Nat) (b : Bytes) : (s.bufWrite off b).curve = s.curve := rfl
@[simp] theorem State.bufWrite_v (off : Nat) (b : Bytes) : (s.bufWrite off b).v = s.v := rfl
@[simp] theorem State.bufWrite_buf (off : Nat) (b : Bytes) : (s.bufWrite off b).buf = s.buf.writeBytes off b := rfl
@[simp] theorem State.bufWrite_rdata (off : Nat) (b : Bytes) : (s.bufWrite off b).rdata = s.rdata := rfl
@[simp] theorem State.bufWrite_inputs (off : Nat) (b : Bytes) : (s.bufWrite off b).inputs = s.inputs := rfl

/-! ### setZ -/

@[simp] theorem State.setZ_seq (b : Bool) : (s.setZ b).seq = s.seq := rfl
@[simp] theorem State.setZ_ie (b : Bool) : (s.setZ b).ie = s.ie := rfl
@[simp] theorem State.setZ_lock (b : Bool) : (s.setZ b).lock = s.lock := rfl
@[simp] theorem State.setZ_done (b : Bool) : (s.setZ b).done = s.done := rfl
@[simp] theorem State.setZ_accerr (b : Bool) : (s.setZ b).accerr = s.accerr := rfl
@[simp] theorem State.setZ_errcode (b : Bool) : (s.setZ b).errcode = s.errcode := rfl
@[simp] theorem State.setZ_flags (b : Bool) : (s.setZ b).flags = { s.flags with z := b } := rfl
@[simp] theorem State.setZ_cache (b : Bool) : (s.setZ b).cache = s.cache := rfl
@[simp] theorem State.setZ_bufSrc (b : Bool) : (s.setZ b).bufSrc = s.bufSrc := rfl
@[simp] theorem State.setZ_bufDst (b : Bool) : (s.setZ b).bufDst = s.bufDst := rfl
@[simp] theorem State.setZ_bufLen (b : Bool) : (s.setZ b).bufLen = s.bufLen := rfl
@[simp] theorem State.setZ_cmdcnt (b : Bool) : (s.setZ b).cmdcnt = s.cmdcnt := rfl
@[simp] theorem State.setZ_edw (b : Bool) : (s.setZ b).edw = s.edw := rfl
@[simp] theorem State.setZ_curve (b : Bool) : (s.setZ b).curve = s.curve := rfl
@[simp] theorem State.setZ_v (b : Bool) : (s.setZ b).v = s.v := rfl
@[simp] theorem State.setZ_buf (b : Bool) : (s.setZ b).buf = s.buf := rfl
@[simp] theorem State.setZ_rdata (b : Bool) : (s.setZ b).rdata = s.rdata := rfl
@[simp] theorem State.setZ_inputs (b : Bool) : (s.setZ b).inputs = s.inputs := rfl

/-! ### setEQ -/

@[simp] theorem State.setEQ_seq (b : Bool) : (s.setEQ b).seq = s.seq := rfl
@[simp] theorem State.setEQ_ie (b : Bool) : (s.setEQ b).ie = s.ie := rfl
@[simp] theorem State.setEQ_lock (b : Bool) : (s.setEQ b).lock = s.lock := rfl
@[simp] theorem State.setEQ_done (b : Bool) : (s.setEQ b).done = s.done := rfl
@[simp] theorem State.setEQ_accerr (b : Bool) : (s.setEQ b).accerr = s.accerr := rfl
@[simp] theorem State.setEQ_errcode (b : Bool) : (s.setEQ b).errcode = s.errcode := rfl
@[simp] theorem State.setEQ_flags (b : Bool) : (s.setEQ b).flags = { s.flags with eq := b } := rfl
@[simp] theorem State.setEQ_cache (b : Bool) : (s.setEQ b).cache = s.cache := rfl
@[simp] theorem State.setEQ_bufSrc (b : Bool) : (s.setEQ b).bufSrc = s.bufSrc := rfl
@[simp] theorem State.setEQ_bufDst (b : Bool) : (s.setEQ b).bufDst = s.bufDst := rfl
@[simp] theorem State.setEQ_bufLen (b : Bool) : (s.setEQ b).bufLen = s.bufLen := rfl
@[simp] theorem State.setEQ_cmdcnt (b : Bool) : (s.setEQ b).cmdcnt = s.cmdcnt := rfl
@[simp] theorem State.setEQ_edw (b : Bool) : (s.setEQ b).edw = s.edw := rfl
@[simp] theorem State.setEQ_curve (b : Bool) : (s.setEQ b).curve = s.curve := rfl
@[simp] theorem State.setEQ_v (b : Bool) : (s.setEQ b).v = s.v := rfl
@[simp] theorem State.setEQ_buf (b : Bool) : (s.setEQ b).buf = s.buf := rfl
@[simp] theorem State.setEQ_rdata (b : Bool) : (s.setEQ b).rdata = s.rdata := rfl
@[simp] theorem State.setEQ_inputs (b : Bool) : (s.setEQ b).inputs = s.inputs := rfl

/-! ### setIN -/

@[simp] theorem State.setIN_seq (b : Bool) : (s.setIN b).seq = s.seq := rfl
@[simp] theorem State.setIN_ie (b : Bool) : (s.setIN b).ie = s.ie := rfl
@[simp] theorem State.setIN_lock (b : Bool) : (s.setIN b).lock = s.lock := rfl
@[simp] theorem State.setIN_done (b : Bool) : (s.setIN b).done = s.done := rfl
@[simp] theorem State.setIN_accerr (b : Bool) : (s.setIN b).accerr = s.accerr := rfl
@[simp] theorem State.setIN_errcode (b : Bool) : (s.setIN b).errcode = s.errcode := rfl
@[simp] theorem State.setIN_flags (b : Bool) : (s.setIN b).flags = { s.flags with inRange := b } := rfl
@[simp] theorem State.setIN_cache (b : Bool) : (s.setIN b).cache = s.cache := rfl
@[simp] theorem State.setIN_bufSrc (b : Bool) : (s.setIN b).bufSrc = s.bufSrc := rfl
@[simp] theorem State.setIN_bufDst (b : Bool) : (s.setIN b).bufDst = s.bufDst := rfl
@[simp] theorem State.setIN_bufLen (b : Bool) : (s.setIN b).bufLen = s.bufLen := rfl
@[simp] theorem State.setIN_cmdcnt (b : Bool) : (s.setIN b).cmdcnt = s.cmdcnt := rfl
@[simp] theorem State.setIN_edw (b : Bool) : (s.setIN b).edw = s.edw := rfl
@[simp] theorem State.setIN_curve (b : Bool) : (s.setIN b).curve = s.curve := rfl
@[simp] theorem State.setIN_v (b : Bool) : (s.setIN b).v = s.v := rfl
@[simp] theorem State.setIN_buf (b : Bool) : (s.setIN b).buf = s.buf := rfl
@[simp] theorem State.setIN_rdata (b : Bool) : (s.setIN b).rdata = s.rdata := rfl
@[simp] theorem State.setIN_inputs (b : Bool) : (s.setIN b).inputs = s.inputs := rfl

/-! ### setMZ -/

@[simp] theorem State.setMZ_seq (b : Bool) : (s.setMZ b).seq = s.seq := rfl
@[simp] theorem State.setMZ_ie (b : Bool) : (s.setMZ b).ie = s.ie := rfl
@[simp] theorem State.setMZ_lock (b : Bool) : (s.setMZ b).lock = s.lock := rfl
@[simp] theorem State.setMZ_done (b : Bool) : (s.setMZ b).done = s.done := rfl
@[simp] theorem State.setMZ_accerr (b : Bool) : (s.setMZ b).accerr = s.accerr := rfl
@[simp] theorem State.setMZ_errcode (b : Bool) : (s.setMZ b).errcode = s.errcode := rfl
@[simp] theorem State.setMZ_flags (b : Bool) : (s.setMZ b).flags = { s.flags with mz := b } := rfl
@[simp] theorem State.setMZ_cache (b : Bool) : (s.setMZ b).cache = s.cache := rfl
@[simp] theorem State.setMZ_bufSrc (b : Bool) : (s.setMZ b).bufSrc = s.bufSrc := rfl
@[simp] theorem State.setMZ_bufDst (b : Bool) : (s.setMZ b).bufDst = s.bufDst := rfl
@[simp] theorem State.setMZ_bufLen (b : Bool) : (s.setMZ b).bufLen = s.bufLen := rfl
@[simp] theorem State.setMZ_cmdcnt (b : Bool) : (s.setMZ b).cmdcnt = s.cmdcnt := rfl
@[simp] theorem State.setMZ_edw (b : Bool) : (s.setMZ b).edw = s.edw := rfl
@[simp] theorem State.setMZ_curve (b : Bool) : (s.setMZ b).curve = s.curve := rfl
@[simp] theorem State.setMZ_v (b : Bool) : (s.setMZ b).v = s.v := rfl
@[simp] theorem State.setMZ_buf (b : Bool) : (s.setMZ b).buf = s.buf := rfl
@[simp] theorem State.setMZ_rdata (b : Bool) : (s.setMZ b).rdata = s.rdata := rfl
@[simp] theorem State.setMZ_inputs (b : Bool) : (s.setMZ b).inputs = s.inputs := rfl

/-! ### writeResult -/

@[simp] theorem State.writeResult_seq (r : Reg) (x : Big) : (s.writeResult r x).seq = s.seq := rfl
@[simp] theorem State.writeResult_ie (r : Reg) (x : Big) : (s.writeResult r x).ie = s.ie := rfl
@[simp] theorem State.writeResult_lock (r : Reg) (x : Big) : (s.writeResult r x).lock = s.lock := rfl
@[simp] theorem State.writeResult_done (r : Reg) (x : Big) : (s.writeResult r x).done = s.done := rfl
@[simp] theorem State.writeResult_accerr (r : Reg) (x : Big) : (s.writeResult r x).accerr = s.accerr := rfl
@[simp] theorem State.writeResult_errcode (r : Reg) (x : Big) : (s.writeResult r x).errcode = s.errcode := rfl
@[simp] theorem State.writeResult_flags (r : Reg) (x : Big) : (s.writeResult r x).flags = { s.flags with z := zeroFlag x } := rfl
@[simp] theorem State.writeResult_cache (r : Reg) (x : Big) : (s.writeResult r x).cache = s.cache := rfl
@[simp] theorem State.writeResult_bufSrc (r : Reg) (x : Big) : (s.writeResult r x).bufSrc = s.bufSrc := rfl
@[simp] theorem State.writeResult_bufDst (r : Reg) (x : Big) : (s.writeResult r x).bufDst = s.bufDst := rfl
@[simp] theorem State.writeResult_bufLen (r : Reg) (x : Big) : (s.writeResult r x).bufLen = s.bufLen := rfl
@[simp] theorem State.writeResult_cmdcnt (r : Reg) (x : Big) : (s.writeResult r x).cmdcnt = s.cmdcnt := rfl
@[simp] theorem State.writeResult_edw (r : Reg) (x : Big) : (s.writeResult r x).edw = s.edw := rfl
@[simp] theorem State.writeResult_curve (r : Reg) (x : Big) : (s.writeResult r x).curve = s.curve := rfl
@[simp] theorem State.writeResult_v (r : Reg) (x : Big) : (s.writeResult r x).v = s.v.set r x := rfl
@[simp] theorem State.writeResult_buf (r : Reg) (x : Big) : (s.writeResult r x).buf = s.buf := rfl
@[simp] theorem State.writeResult_rdata (r : Reg) (x : Big) : (s.writeResult r x).rdata = s.rdata := rfl
@[simp] theorem State.writeResult_inputs (r : Reg) (x : Big) : (s.writeResult r x).inputs = s.inputs := rfl

/-! ### setPoint -/

@[simp] theorem State.setPoint_seq (r : Reg) (pt : Config.Point) : (s.setPoint r pt).seq = s.seq := rfl
@[simp] theorem State.setPoint_ie (r : Reg) (pt : Config.Point) : (s.setPoint r pt).ie = s.ie := rfl
@[simp] theorem State.setPoint_lock (r : Reg) (pt : Config.Point) : (s.setPoint r pt).lock = s.lock := rfl
@[simp] theorem State.setPoint_done (r : Reg) (pt : Config.Point) : (s.setPoint r pt).done = s.done := rfl
@[simp] theorem State.setPoint_accerr (r : Reg) (pt : Config.Point) : (s.setPoint r pt).accerr = s.accerr := rfl
@[simp] theorem State.setPoint_errcode (r : Reg) (pt : Config.Point) : (s.setPoint r pt).errcode = s.errcode := rfl
@[simp] theorem State.setPoint_flags (r : Reg) (pt : Config.Point) : (s.setPoint r pt).flags = s.flags := rfl
@[simp] theorem State.setPoint_cache (r : Reg) (pt : Config.Point) : (s.setPoint r pt).cache = s.cache := rfl
@[simp] theorem State.setPoint_bufSrc (r : Reg) (pt : Config.Point) : (s.setPoint r pt).bufSrc = s.bufSrc := rfl
@[simp] theorem State.setPoint_bufDst (r : Reg) (pt : Config.Point) : (s.setPoint r pt).bufDst = s.bufDst := rfl
@[simp] theorem State.setPoint_bufLen (r : Reg) (pt : Config.Point) : (s.setPoint r pt).bufLen = s.bufLen := rfl
@[simp] theorem State.setPoint_cmdcnt (r : Reg) (pt : Config.Point) : (s.setPoint r pt).cmdcnt = s.cmdcnt := rfl
@[simp] theorem State.setPoint_edw (r : Reg) (pt : Config.Point) : (s.setPoint r pt).edw = s.edw := rfl
@[simp] theorem State.setPoint_curve (r : Reg) (pt : Config.Point) : (s.setPoint r pt).curve = s.curve := rfl
@[simp] theorem State.setPoint_v (r : Reg) (pt : Config.Point) : (s.setPoint r pt).v = (s.v.set r pt.x).set (yReg r) pt.y := rfl
@[simp] theorem State.setPoint_buf (r : Reg) (pt : Config.Point) : (s.setPoint r pt).buf = s.buf := rfl
@[simp] theorem State.setPoint_rdata (r : Reg) (pt : Config.Point) : (s.setPoint r pt).rdata = s.rdata := rfl
@[simp] theorem State.setPoint_inputs (r : Reg) (pt : Config.Point) : (s.setPoint r pt).inputs = s.inputs := rfl

/-! ### finish -/

@[simp] theorem State.finish_seq (c : ErrCode) : (s.finish c).seq = .idle := rfl
@[simp] theorem State.finish_ie (c : ErrCode) : (s.finish c).ie = s.ie := rfl
@[simp] theorem State.finish_lock (c : ErrCode) : (s.finish c).lock = s.lock := rfl
@[simp] theorem State.finish_done (c : ErrCode) : (s.finish c).done = true := rfl
@[simp] theorem State.finish_accerr (c : ErrCode) : (s.finish c).accerr = s.accerr := rfl
@[simp] theorem State.finish_errcode (c : ErrCode) : (s.finish c).errcode = c := rfl
@[simp] theorem State.finish_flags (c : ErrCode) : (s.finish c).flags = s.flags := rfl
@[simp] theorem State.finish_cache (c : ErrCode) : (s.finish c).cache = s.cache := rfl
@[simp] theorem State.finish_bufSrc (c : ErrCode) : (s.finish c).bufSrc = s.bufSrc := rfl
@[simp] theorem State.finish_bufDst (c : ErrCode) : (s.finish c).bufDst = s.bufDst := rfl
@[simp] theorem State.finish_bufLen (c : ErrCode) : (s.finish c).bufLen = s.bufLen := rfl
@[simp] theorem State.finish_cmdcnt (c : ErrCode) : (s.finish c).cmdcnt = s.cmdcnt + 1#32 := rfl
@[simp] theorem State.finish_edw (c : ErrCode) : (s.finish c).edw = s.edw := rfl
@[simp] theorem State.finish_curve (c : ErrCode) : (s.finish c).curve = s.curve := rfl
@[simp] theorem State.finish_v (c : ErrCode) : (s.finish c).v = s.v := rfl
@[simp] theorem State.finish_buf (c : ErrCode) : (s.finish c).buf = s.buf := rfl
@[simp] theorem State.finish_rdata (c : ErrCode) : (s.finish c).rdata = s.rdata := rfl
@[simp] theorem State.finish_inputs (c : ErrCode) : (s.finish c).inputs = s.inputs := rfl

/-! ### acceptCommand -/

@[simp] theorem State.acceptCommand_seq (c : Word32) : (s.acceptCommand c).seq = .busy c := rfl
@[simp] theorem State.acceptCommand_ie (c : Word32) : (s.acceptCommand c).ie = s.ie := rfl
@[simp] theorem State.acceptCommand_lock (c : Word32) : (s.acceptCommand c).lock = s.lock := rfl
@[simp] theorem State.acceptCommand_done (c : Word32) : (s.acceptCommand c).done = false := rfl
@[simp] theorem State.acceptCommand_accerr (c : Word32) : (s.acceptCommand c).accerr = s.accerr := rfl
@[simp] theorem State.acceptCommand_errcode (c : Word32) : (s.acceptCommand c).errcode = s.errcode := rfl
@[simp] theorem State.acceptCommand_flags (c : Word32) : (s.acceptCommand c).flags = s.flags := rfl
@[simp] theorem State.acceptCommand_cache (c : Word32) : (s.acceptCommand c).cache = s.cache := rfl
@[simp] theorem State.acceptCommand_bufSrc (c : Word32) : (s.acceptCommand c).bufSrc = s.bufSrc := rfl
@[simp] theorem State.acceptCommand_bufDst (c : Word32) : (s.acceptCommand c).bufDst = s.bufDst := rfl
@[simp] theorem State.acceptCommand_bufLen (c : Word32) : (s.acceptCommand c).bufLen = s.bufLen := rfl
@[simp] theorem State.acceptCommand_cmdcnt (c : Word32) : (s.acceptCommand c).cmdcnt = s.cmdcnt := rfl
@[simp] theorem State.acceptCommand_edw (c : Word32) : (s.acceptCommand c).edw = s.edw := rfl
@[simp] theorem State.acceptCommand_curve (c : Word32) : (s.acceptCommand c).curve = s.curve := rfl
@[simp] theorem State.acceptCommand_v (c : Word32) : (s.acceptCommand c).v = s.v := rfl
@[simp] theorem State.acceptCommand_buf (c : Word32) : (s.acceptCommand c).buf = s.buf := rfl
@[simp] theorem State.acceptCommand_rdata (c : Word32) : (s.acceptCommand c).rdata = s.rdata := rfl
@[simp] theorem State.acceptCommand_inputs (c : Word32) : (s.acceptCommand c).inputs = s.inputs := rfl

/-! ### dropCache -/

@[simp] theorem State.dropCache_seq : (s.dropCache).seq = s.seq := rfl
@[simp] theorem State.dropCache_ie : (s.dropCache).ie = s.ie := rfl
@[simp] theorem State.dropCache_lock : (s.dropCache).lock = s.lock := rfl
@[simp] theorem State.dropCache_done : (s.dropCache).done = s.done := rfl
@[simp] theorem State.dropCache_accerr : (s.dropCache).accerr = s.accerr := rfl
@[simp] theorem State.dropCache_errcode : (s.dropCache).errcode = s.errcode := rfl
@[simp] theorem State.dropCache_flags : (s.dropCache).flags = s.flags := rfl
@[simp] theorem State.dropCache_cache : (s.dropCache).cache = { s.cache with edv := false } := rfl
@[simp] theorem State.dropCache_bufSrc : (s.dropCache).bufSrc = s.bufSrc := rfl
@[simp] theorem State.dropCache_bufDst : (s.dropCache).bufDst = s.bufDst := rfl
@[simp] theorem State.dropCache_bufLen : (s.dropCache).bufLen = s.bufLen := rfl
@[simp] theorem State.dropCache_cmdcnt : (s.dropCache).cmdcnt = s.cmdcnt := rfl
@[simp] theorem State.dropCache_edw : (s.dropCache).edw = s.edw := rfl
@[simp] theorem State.dropCache_curve : (s.dropCache).curve = s.curve := rfl
@[simp] theorem State.dropCache_v : (s.dropCache).v = s.v := rfl
@[simp] theorem State.dropCache_buf : (s.dropCache).buf = s.buf := rfl
@[simp] theorem State.dropCache_rdata : (s.dropCache).rdata = s.rdata := rfl
@[simp] theorem State.dropCache_inputs : (s.dropCache).inputs = s.inputs := rfl

/-! ### writeStatus -/

@[simp] theorem State.writeStatus_seq (w : Word32) : (s.writeStatus w).seq = s.seq := rfl
@[simp] theorem State.writeStatus_ie (w : Word32) : (s.writeStatus w).ie = s.ie := rfl
@[simp] theorem State.writeStatus_lock (w : Word32) : (s.writeStatus w).lock = s.lock := rfl
@[simp] theorem State.writeStatus_done (w : Word32) : (s.writeStatus w).done = (s.done && !w.getLsbD 1) := rfl
@[simp] theorem State.writeStatus_accerr (w : Word32) : (s.writeStatus w).accerr = (s.accerr && !w.getLsbD 3) := rfl
@[simp] theorem State.writeStatus_errcode (w : Word32) : (s.writeStatus w).errcode = s.errcode := rfl
@[simp] theorem State.writeStatus_flags (w : Word32) : (s.writeStatus w).flags = s.flags := rfl
@[simp] theorem State.writeStatus_cache (w : Word32) : (s.writeStatus w).cache = s.cache := rfl
@[simp] theorem State.writeStatus_bufSrc (w : Word32) : (s.writeStatus w).bufSrc = s.bufSrc := rfl
@[simp] theorem State.writeStatus_bufDst (w : Word32) : (s.writeStatus w).bufDst = s.bufDst := rfl
@[simp] theorem State.writeStatus_bufLen (w : Word32) : (s.writeStatus w).bufLen = s.bufLen := rfl
@[simp] theorem State.writeStatus_cmdcnt (w : Word32) : (s.writeStatus w).cmdcnt = s.cmdcnt := rfl
@[simp] theorem State.writeStatus_edw (w : Word32) : (s.writeStatus w).edw = s.edw := rfl
@[simp] theorem State.writeStatus_curve (w : Word32) : (s.writeStatus w).curve = s.curve := rfl
@[simp] theorem State.writeStatus_v (w : Word32) : (s.writeStatus w).v = s.v := rfl
@[simp] theorem State.writeStatus_buf (w : Word32) : (s.writeStatus w).buf = s.buf := rfl
@[simp] theorem State.writeStatus_rdata (w : Word32) : (s.writeStatus w).rdata = s.rdata := rfl
@[simp] theorem State.writeStatus_inputs (w : Word32) : (s.writeStatus w).inputs = s.inputs := rfl

/-! ### writeBufWord -/

@[simp] theorem State.writeBufWord_seq (j : Fin 2048) (w : Word32) : (s.writeBufWord j w).seq = s.seq := rfl
@[simp] theorem State.writeBufWord_ie (j : Fin 2048) (w : Word32) : (s.writeBufWord j w).ie = s.ie := rfl
@[simp] theorem State.writeBufWord_lock (j : Fin 2048) (w : Word32) : (s.writeBufWord j w).lock = s.lock := rfl
@[simp] theorem State.writeBufWord_done (j : Fin 2048) (w : Word32) : (s.writeBufWord j w).done = s.done := rfl
@[simp] theorem State.writeBufWord_accerr (j : Fin 2048) (w : Word32) : (s.writeBufWord j w).accerr = s.accerr := rfl
@[simp] theorem State.writeBufWord_errcode (j : Fin 2048) (w : Word32) : (s.writeBufWord j w).errcode = s.errcode := rfl
@[simp] theorem State.writeBufWord_flags (j : Fin 2048) (w : Word32) : (s.writeBufWord j w).flags = s.flags := rfl
@[simp] theorem State.writeBufWord_cache (j : Fin 2048) (w : Word32) : (s.writeBufWord j w).cache = s.cache := rfl
@[simp] theorem State.writeBufWord_bufSrc (j : Fin 2048) (w : Word32) : (s.writeBufWord j w).bufSrc = s.bufSrc := rfl
@[simp] theorem State.writeBufWord_bufDst (j : Fin 2048) (w : Word32) : (s.writeBufWord j w).bufDst = s.bufDst := rfl
@[simp] theorem State.writeBufWord_bufLen (j : Fin 2048) (w : Word32) : (s.writeBufWord j w).bufLen = s.bufLen := rfl
@[simp] theorem State.writeBufWord_cmdcnt (j : Fin 2048) (w : Word32) : (s.writeBufWord j w).cmdcnt = s.cmdcnt := rfl
@[simp] theorem State.writeBufWord_edw (j : Fin 2048) (w : Word32) : (s.writeBufWord j w).edw = s.edw := rfl
@[simp] theorem State.writeBufWord_curve (j : Fin 2048) (w : Word32) : (s.writeBufWord j w).curve = s.curve := rfl
@[simp] theorem State.writeBufWord_v (j : Fin 2048) (w : Word32) : (s.writeBufWord j w).v = s.v := rfl
@[simp] theorem State.writeBufWord_buf (j : Fin 2048) (w : Word32) : (s.writeBufWord j w).buf = s.buf.writeBytes (4 * j) [lane w 0, lane w 1, lane w 2, lane w 3] := rfl
@[simp] theorem State.writeBufWord_rdata (j : Fin 2048) (w : Word32) : (s.writeBufWord j w).rdata = s.rdata := rfl
@[simp] theorem State.writeBufWord_inputs (j : Fin 2048) (w : Word32) : (s.writeBufWord j w).inputs = s.inputs := rfl

/-! ### softReset -/

@[simp] theorem State.softReset_seq : (s.softReset).seq = .idle := rfl
@[simp] theorem State.softReset_ie : (s.softReset).ie = s.ie := rfl
@[simp] theorem State.softReset_lock : (s.softReset).lock = s.lock := rfl
@[simp] theorem State.softReset_done : (s.softReset).done = false := rfl
@[simp] theorem State.softReset_accerr : (s.softReset).accerr = false := rfl
@[simp] theorem State.softReset_errcode : (s.softReset).errcode = .none := rfl
@[simp] theorem State.softReset_flags : (s.softReset).flags = ⟨false, false, false, false⟩ := rfl
@[simp] theorem State.softReset_cache : (s.softReset).cache = s.cache := rfl
@[simp] theorem State.softReset_bufSrc : (s.softReset).bufSrc = 0#16 := rfl
@[simp] theorem State.softReset_bufDst : (s.softReset).bufDst = 0#16 := rfl
@[simp] theorem State.softReset_bufLen : (s.softReset).bufLen = 0#16 := rfl
@[simp] theorem State.softReset_cmdcnt : (s.softReset).cmdcnt = 0#32 := rfl
@[simp] theorem State.softReset_edw : (s.softReset).edw = s.edw := rfl
@[simp] theorem State.softReset_curve : (s.softReset).curve = s.curve := rfl
@[simp] theorem State.softReset_v : (s.softReset).v = Vector.replicate 16 0#512 := rfl
@[simp] theorem State.softReset_buf : (s.softReset).buf = [] := rfl
@[simp] theorem State.softReset_rdata : (s.softReset).rdata = s.rdata := rfl
@[simp] theorem State.softReset_inputs : (s.softReset).inputs = s.inputs := rfl

/-! ### hardwareReset -/

@[simp] theorem State.hardwareReset_seq : (s.hardwareReset).seq = State.reset.seq := rfl
@[simp] theorem State.hardwareReset_ie : (s.hardwareReset).ie = State.reset.ie := rfl
@[simp] theorem State.hardwareReset_lock : (s.hardwareReset).lock = State.reset.lock := rfl
@[simp] theorem State.hardwareReset_done : (s.hardwareReset).done = State.reset.done := rfl
@[simp] theorem State.hardwareReset_accerr : (s.hardwareReset).accerr = State.reset.accerr := rfl
@[simp] theorem State.hardwareReset_errcode : (s.hardwareReset).errcode = State.reset.errcode := rfl
@[simp] theorem State.hardwareReset_flags : (s.hardwareReset).flags = State.reset.flags := rfl
@[simp] theorem State.hardwareReset_cache : (s.hardwareReset).cache = State.reset.cache := rfl
@[simp] theorem State.hardwareReset_bufSrc : (s.hardwareReset).bufSrc = State.reset.bufSrc := rfl
@[simp] theorem State.hardwareReset_bufDst : (s.hardwareReset).bufDst = State.reset.bufDst := rfl
@[simp] theorem State.hardwareReset_bufLen : (s.hardwareReset).bufLen = State.reset.bufLen := rfl
@[simp] theorem State.hardwareReset_cmdcnt : (s.hardwareReset).cmdcnt = State.reset.cmdcnt := rfl
@[simp] theorem State.hardwareReset_edw : (s.hardwareReset).edw = State.reset.edw := rfl
@[simp] theorem State.hardwareReset_curve : (s.hardwareReset).curve = State.reset.curve := rfl
@[simp] theorem State.hardwareReset_v : (s.hardwareReset).v = State.reset.v := rfl
@[simp] theorem State.hardwareReset_buf : (s.hardwareReset).buf = State.reset.buf := rfl
@[simp] theorem State.hardwareReset_rdata : (s.hardwareReset).rdata = s.rdata := rfl
@[simp] theorem State.hardwareReset_inputs : (s.hardwareReset).inputs = s.inputs := rfl

/-! ### complete, refuse and fillCache: updates by cases -/

@[simp] theorem State.complete_ok (t : State) : s.complete (.ok t) = t.finish .none := rfl
@[simp] theorem State.complete_error (c : ErrCode) : s.complete (.error c) = s.finish c := rfl
@[simp] theorem State.refuse_read : s.refuse .read = { s with accerr := true, rdata := 0#32 } := rfl
@[simp] theorem State.refuse_write (w : Word32) : s.refuse (.write w) = { s with accerr := true } := rfl
theorem State.fillCache_valid (es et : Nat) (h : s.cache.edv = true) : s.fillCache es et = s := by
  simp [State.fillCache, h]
theorem State.fillCache_invalid (es et : Nat) (h : s.cache.edv = false) :
    s.fillCache es et = { s with cache := ⟨true, toBig es, toBig et⟩ } := by simp [State.fillCache, h]

end Sys2Proof.Machine
end

