-- ==== Sys2Proof/Laws/Commands.lean ====
section
/-! SUPPORT. What the shared operations of commands can do, said once: the registers, the checks, completion, and the
frame that every command keeps. -/

namespace Sys2Proof.Machine

/-! ### Registers -/

theorem State.getV_setV (s : State) (r q : Reg) (x : Big) :
    (s.setV r x).getV q = if r = q then x else s.getV q := by
  simp [State.setV, State.getV, Vector.getElem_set, Fin.ext_iff]

theorem getElem_set_reg (v : Vector Big 16) (r q : Reg) (x : Big) :
    (v.set r x)[q] = if r = q then x else v[q] := by
  simp [Vector.getElem_set, Fin.ext_iff]

theorem pointReg_iff (r : Reg) : pointReg r = true ↔ r.val % 2 = 0 := by simp [pointReg]

/-- The y register of a pair is another register than the x register. -/
theorem yReg_ne (r : Reg) : yReg r ≠ r := by revert r; decide

/-! ### Checks: if a check passes the command with an ok result, then … -/

theorem withModulus_cases (s : State) (ms : ModSel) (k : Nat → Result) :
    (s.modulus ms = 0 ∧ s.withModulus ms k = .error .badModulus) ∨
    (s.modulus ms ≠ 0 ∧ s.withModulus ms k = k (s.modulus ms)) := by
  unfold State.withModulus; split <;> simp_all

theorem answerResult_cases (rd : Reg) (s : State) (a : Config.Answer) :
    (∃ pt, a = .ok pt ∧ answerResult rd s a = .ok (s.setPoint rd pt)) ∨
    (a = .fail ∧ answerResult rd s a = .error .engineFail) := by
  cases a <;> simp [answerResult]

/-- EdConsts fails only with NOT_INVERTIBLE (44_coord_transform.md R221). -/
theorem edConsts_error {p e d : Nat} {c : ErrCode} (h : edConsts p e d = .error c) : c = .notInvertible := by
  unfold edConsts at h
  split at h
  · cases h
  · cases h; rfl

/-- The constants are residues of P. -/
theorem edConsts_lt {p e d es et : Nat} (hp : p ≠ 0) (h : edConsts p e d = .ok (es, et)) : es < p ∧ et < p := by
  unfold edConsts at h
  split at h
  · cases h
    exact ⟨Nat.mod_lt _ (Nat.pos_of_ne_zero hp), Nat.mod_lt _ (Nat.pos_of_ne_zero hp)⟩
  · cases h

theorem edPair_valid (s : State) (h : s.cache.edv = true) :
    s.edPair = .ok (s.cache.eds.toNat, s.cache.edt.toNat) := by simp [State.edPair, h]

theorem edPair_invalid (s : State) (h : s.cache.edv = false) :
    s.edPair = edConsts s.curve.p.toNat s.curve.e.toNat s.curve.d.toNat := by simp [State.edPair, h]

/-- The checks of a transform, in order: the first that fails gives its code; if none does, the command goes on with the
constants. -/
theorem withTransform_cases (s : State) (rd ra : Reg) (k : Nat → Nat → Nat → Result) :
    (pointReg rd = false ∨ pointReg ra = false) ∧ s.withTransform rd ra k = .error .illegalOperand ∨
    (pointReg rd = true ∧ pointReg ra = true) ∧
      (s.edw = false ∧ s.withTransform rd ra k = .error .unsupportedCurveForm ∨
       s.edw = true ∧
        (s.curve.p.toNat = 0 ∧ s.withTransform rd ra k = .error .badModulus ∨
         s.curve.p.toNat ≠ 0 ∧
          (s.edPair = .error .notInvertible ∧ s.withTransform rd ra k = .error .notInvertible ∨
           ∃ es et, s.edPair = .ok (es, et) ∧ s.withTransform rd ra k = k s.curve.p.toNat es et))) := by
  unfold State.withTransform
  by_cases h1 : (!pointReg rd || !pointReg ra) = true
  · left; simp_all
  · right
    refine ⟨by simpa using h1, ?_⟩
    rw [if_neg h1]
    by_cases h2 : s.edw = false
    · left; simp [h2]
    · right
      refine ⟨by simpa using h2, ?_⟩
      rw [if_neg (by simpa using h2)]
      by_cases h3 : s.curve.p.toNat = 0
      · left; simp [h3]
      · right
        refine ⟨h3, ?_⟩
        rw [if_neg h3]
        rcases h4 : s.edPair with c | ⟨es, et⟩
        · have hc : c = .notInvertible := by
            unfold State.edPair at h4
            split at h4
            · cases h4
            · exact edConsts_error h4
          subst hc; left; simp
        · right; exact ⟨es, et, rfl, rfl⟩

/-! ### What a command's writes leave alone -/

/-- The frame of every command that succeeds: of the state only V, the flags, BUF and the Edwards cache may differ; BUF
keeps its canonical form; the cache differs only by being filled with EdConsts(), on a curve with EDW = 1 and P ≠ 0. -/
structure CommandFrame (s u : State) : Prop where
  seq : u.seq = s.seq
  ie : u.ie = s.ie
  lock : u.lock = s.lock
  done : u.done = s.done
  accerr : u.accerr = s.accerr
  errcode : u.errcode = s.errcode
  bufSrc : u.bufSrc = s.bufSrc
  bufDst : u.bufDst = s.bufDst
  bufLen : u.bufLen = s.bufLen
  cmdcnt : u.cmdcnt = s.cmdcnt
  edw : u.edw = s.edw
  curve : u.curve = s.curve
  rdata : u.rdata = s.rdata
  inputs : u.inputs = s.inputs
  buf : Memory.wf s.buf → Memory.wf u.buf
  cache : u.cache = s.cache ∨
    (s.cache.edv = false ∧ s.edw = true ∧ s.curve.p.toNat ≠ 0 ∧ ∃ es et,
      edConsts s.curve.p.toNat s.curve.e.toNat s.curve.d.toNat = .ok (es, et) ∧ u.cache = ⟨true, toBig es, toBig et⟩)

/-- What evaluating a command can give: an error with a code other than NONE, or writes inside the frame. -/
inductive ResultOk (s : State) : Result → Prop where
  | error (c : ErrCode) (h : c ≠ .none) : ResultOk s (.error c)
  | ok (u : State) (h : CommandFrame s u) : ResultOk s (.ok u)

theorem CommandFrame.refl (s : State) : CommandFrame s s :=
  ⟨rfl, rfl, rfl, rfl, rfl, rfl, rfl, rfl, rfl, rfl, rfl, rfl, rfl, rfl, id, .inl rfl⟩

theorem frame_writeResult (s : State) (r : Reg) (x : Big) : CommandFrame s (s.writeResult r x) :=
  ⟨rfl, rfl, rfl, rfl, rfl, rfl, rfl, rfl, rfl, rfl, rfl, rfl, rfl, rfl, id, .inl rfl⟩

theorem frame_setPoint (s : State) (r : Reg) (pt : Config.Point) : CommandFrame s (s.setPoint r pt) :=
  ⟨rfl, rfl, rfl, rfl, rfl, rfl, rfl, rfl, rfl, rfl, rfl, rfl, rfl, rfl, id, .inl rfl⟩

theorem frame_setEQ (s : State) (b : Bool) : CommandFrame s (s.setEQ b) :=
  ⟨rfl, rfl, rfl, rfl, rfl, rfl, rfl, rfl, rfl, rfl, rfl, rfl, rfl, rfl, id, .inl rfl⟩

theorem frame_setIN (s : State) (b : Bool) : CommandFrame s (s.setIN b) :=
  ⟨rfl, rfl, rfl, rfl, rfl, rfl, rfl, rfl, rfl, rfl, rfl, rfl, rfl, rfl, id, .inl rfl⟩

theorem frame_bufWrite (s : State) (off : Nat) (b : Bytes) : CommandFrame s (s.bufWrite off b) :=
  ⟨rfl, rfl, rfl, rfl, rfl, rfl, rfl, rfl, rfl, rfl, rfl, rfl, rfl, rfl, Memory.wf_writeBytes off b, .inl rfl⟩

theorem frame_bufWrite_setMZ (s : State) (off : Nat) (b : Bytes) (z : Bool) :
    CommandFrame s ((s.bufWrite off b).setMZ z) :=
  ⟨rfl, rfl, rfl, rfl, rfl, rfl, rfl, rfl, rfl, rfl, rfl, rfl, rfl, rfl, Memory.wf_writeBytes off b, .inl rfl⟩

theorem resultOk_withModulus (s : State) (ms : ModSel) (k : Nat → Result) (h : ∀ m, ResultOk s (k m)) :
    ResultOk s (s.withModulus ms k) := by
  rcases withModulus_cases s ms k with ⟨_, e⟩ | ⟨_, e⟩ <;> rw [e]
  · exact .error _ (by simp)
  · exact h _

theorem resultOk_answer (rd : Reg) (s : State) (a : Config.Answer) : ResultOk s (answerResult rd s a) := by
  rcases answerResult_cases rd s a with ⟨pt, _, e⟩ | ⟨_, e⟩ <;> rw [e]
  · exact .ok _ (frame_setPoint s rd pt)
  · exact .error _ (by simp)

theorem resultOk_transform (s : State) (rd ra : Reg) (f : Nat → Nat → Nat → Option (Nat × Nat)) :
    ResultOk s (s.withTransform rd ra fun p es et => transformResult rd es et s (f p es et)) := by
  rcases withTransform_cases s rd ra (fun p es et => transformResult rd es et s (f p es et)) with
    ⟨_, e⟩ | ⟨_, ⟨_, e⟩ | ⟨hw, ⟨_, e⟩ | ⟨hp, ⟨_, e⟩ | ⟨es, et, hpair, e⟩⟩⟩⟩ <;> rw [e]
  · exact .error _ (by simp)
  · exact .error _ (by simp)
  · exact .error _ (by simp)
  · exact .error _ (by simp)
  · rcases f s.curve.p.toNat es et with _ | ⟨a, b⟩
    · exact .error _ (by simp)
    · refine .ok _ ?_
      cases hv : s.cache.edv
      · rw [State.fillCache_invalid _ _ _ (by simpa using hv)]
        refine ⟨rfl, rfl, rfl, rfl, rfl, rfl, rfl, rfl, rfl, rfl, rfl, rfl, rfl, rfl, id, .inr ?_⟩
        exact ⟨hv, hw, hp, es, et, edPair_invalid s hv ▸ hpair, rfl⟩
      · rw [State.fillCache_valid _ _ _ (by simpa using hv)]
        exact frame_setPoint s rd _

/-- Every command answers a next state: the completion of a result that is an error or stays inside the frame
(60_exceptions.md R273, R274). The invariants and whole-machine rules follow from this alone. -/
theorem exec_complete (i : Instr) (s : State) : ∃ r, exec i s = .next (s.complete r) ∧ ResultOk s r := by
  have hw : ∀ (r : Reg) (x : Big), ResultOk s (.ok (s.writeResult r x)) := fun r x => .ok _ (frame_writeResult s r x)
  cases i with
  | nop => exact ⟨_, rfl, .ok _ (.refl s)⟩
  | mov rd ra => exact ⟨_, rfl, hw _ _⟩
  | ldi rd imm => exact ⟨_, rfl, hw _ _⟩
  | ldb rd order =>
    refine ⟨_, rfl, ?_⟩
    unfold ldbResult; split
    · exact .error _ (by simp)
    · exact hw _ _
  | stb ra order =>
    refine ⟨_, rfl, ?_⟩
    unfold stbResult; split
    · exact .error _ (by simp)
    · split
      · exact .error _ (by simp)
      · exact .ok _ (frame_bufWrite s _ _)
  | mred rd ra ms => exact ⟨_, rfl, resultOk_withModulus s ms _ fun _ => hw _ _⟩
  | mrednz rd ra ms => exact ⟨_, rfl, resultOk_withModulus s ms _ fun _ => hw _ _⟩
  | madd rd ra rb ms => exact ⟨_, rfl, resultOk_withModulus s ms _ fun _ => hw _ _⟩
  | msub rd ra rb ms => exact ⟨_, rfl, resultOk_withModulus s ms _ fun _ => hw _ _⟩
  | mmul rd ra rb ms => exact ⟨_, rfl, resultOk_withModulus s ms _ fun _ => hw _ _⟩
  | minv rd ra ms =>
    refine ⟨_, rfl, resultOk_withModulus s ms _ fun m => ?_⟩
    unfold minvResult; split
    · exact .error _ (by simp)
    · exact hw _ _
  | rchk ra ms => exact ⟨_, rfl, resultOk_withModulus s ms _ fun _ => .ok _ (frame_setIN s _)⟩
  | cmpeq ra rb => exact ⟨_, rfl, .ok _ (frame_setEQ s _)⟩
  | ecmul rd ra rb =>
    refine ⟨_, rfl, ?_⟩
    unfold ecmulResult; split
    · exact .error _ (by simp)
    · exact resultOk_answer _ _ _
  | ecmulb rd ra =>
    refine ⟨_, rfl, ?_⟩
    unfold ecmulbResult; split
    · exact .error _ (by simp)
    · exact resultOk_answer _ _ _
  | ecadd rd ra rb =>
    refine ⟨_, rfl, ?_⟩
    unfold ecaddResult; split
    · exact .error _ (by simp)
    · exact resultOk_answer _ _ _
  | toedw rd ra => exact ⟨_, rfl, resultOk_transform s rd ra fun p es et => toEdwards p es et _ _⟩
  | towei rd ra => exact ⟨_, rfl, resultOk_transform s rd ra fun p es et => toWeierstrass p es et _ _⟩
  | kdfx ra =>
    refine ⟨_, rfl, ?_⟩
    unfold kdfxResult; split
    · exact .error _ (by simp)
    · split
      · exact .error _ (by simp)
      · split
        · exact .error _ (by simp)
        · exact .ok _ (frame_bufWrite_setMZ s _ _ _)
  | htag ra =>
    refine ⟨_, rfl, ?_⟩
    unfold htagResult; split
    · exact .error _ (by simp)
    · split
      · exact .error _ (by simp)
      · split
        · exact .error _ (by simp)
        · exact .ok _ (frame_bufWrite s _ _)
  | bcmp =>
    refine ⟨_, rfl, ?_⟩
    unfold bcmpResult; split
    · exact .error _ (by simp)
    · exact .ok _ (frame_setEQ s _)

end Sys2Proof.Machine
end

