-- ==== Sys2Proof/Laws/Encoding.lean ====
section
/-! SUPPORT. The words of the two formats bit by bit, and the fields read back from them (30_encoding.md R91, R92). -/

namespace Sys2Proof

theorem getLsbD_formatR (opc : BitVec 8) (rd ra rb : BitVec 4) (ms le : BitVec 1) (i : Nat) :
    (formatR opc rd ra rb ms le).getLsbD i =
      if i < 8 then opc.getLsbD i else if i < 12 then rd.getLsbD (i - 8) else if i < 16 then ra.getLsbD (i - 12)
      else if i < 20 then rb.getLsbD (i - 16) else if i < 21 then ms.getLsbD (i - 20)
      else if i < 22 then le.getLsbD (i - 21) else false := by
  unfold formatR
  rw [BitVec.getLsbD_append, BitVec.getLsbD_append, BitVec.getLsbD_append, BitVec.getLsbD_append,
    BitVec.getLsbD_append, BitVec.getLsbD_append]
  simp only [BitVec.getLsbD_zero, Nat.sub_sub]
  split_ifs <;> first | rfl | omega

theorem getLsbD_formatI (opc : BitVec 8) (rd : BitVec 4) (imm : BitVec 16) (i : Nat) :
    (formatI opc rd imm).getLsbD i =
      if i < 8 then opc.getLsbD i else if i < 12 then rd.getLsbD (i - 8) else if i < 16 then false
      else imm.getLsbD (i - 16) := by
  unfold formatI
  rw [BitVec.getLsbD_append, BitVec.getLsbD_append, BitVec.getLsbD_append]
  simp only [BitVec.getLsbD_zero, Nat.sub_sub]
  split_ifs <;> first | rfl | omega

section FormatR
variable (opc : BitVec 8) (rd ra rb : BitVec 4) (ms le : BitVec 1)

theorem opcField_formatR : opcField (formatR opc rd ra rb ms le) = opc := by
  refine BitVec.eq_of_getLsbD_eq fun i hi => ?_
  simp only [opcField, BitVec.getLsbD_extractLsb', getLsbD_formatR, hi, decide_true, Bool.true_and]
  split_ifs <;> first | rfl | omega | (congr 1; omega)

theorem rdField_formatR : rdField (formatR opc rd ra rb ms le) = rd := by
  refine BitVec.eq_of_getLsbD_eq fun i hi => ?_
  simp only [rdField, BitVec.getLsbD_extractLsb', getLsbD_formatR, hi, decide_true, Bool.true_and]
  split_ifs <;> first | omega | (congr 1; omega)

theorem raField_formatR : raField (formatR opc rd ra rb ms le) = ra := by
  refine BitVec.eq_of_getLsbD_eq fun i hi => ?_
  simp only [raField, BitVec.getLsbD_extractLsb', getLsbD_formatR, hi, decide_true, Bool.true_and]
  split_ifs <;> first | omega | (congr 1; omega)

theorem rbField_formatR : rbField (formatR opc rd ra rb ms le) = rb := by
  refine BitVec.eq_of_getLsbD_eq fun i hi => ?_
  simp only [rbField, BitVec.getLsbD_extractLsb', getLsbD_formatR, hi, decide_true, Bool.true_and]
  split_ifs <;> first | omega | (congr 1; omega)

theorem msField_formatR : msField (formatR opc rd ra rb ms le) = ms := by
  refine BitVec.eq_of_getLsbD_eq fun i hi => ?_
  simp only [msField, BitVec.getLsbD_extractLsb', getLsbD_formatR, hi, decide_true, Bool.true_and]
  split_ifs <;> first | omega | (congr 1; omega)

theorem leField_formatR : leField (formatR opc rd ra rb ms le) = le := by
  refine BitVec.eq_of_getLsbD_eq fun i hi => ?_
  simp only [leField, BitVec.getLsbD_extractLsb', getLsbD_formatR, hi, decide_true, Bool.true_and]
  split_ifs <;> first | omega | (congr 1; omega)

theorem topField_formatR : topField (formatR opc rd ra rb ms le) = 0#10 := by
  refine BitVec.eq_of_getLsbD_eq fun i hi => ?_
  simp only [topField, BitVec.getLsbD_extractLsb', getLsbD_formatR, hi, decide_true, Bool.true_and, BitVec.getLsbD_zero]
  split_ifs <;> first | rfl | omega

end FormatR

section FormatI
variable (opc : BitVec 8) (rd : BitVec 4) (imm : BitVec 16)

theorem opcField_formatI : opcField (formatI opc rd imm) = opc := by
  refine BitVec.eq_of_getLsbD_eq fun i hi => ?_
  simp only [opcField, BitVec.getLsbD_extractLsb', getLsbD_formatI, hi, decide_true, Bool.true_and]
  split_ifs <;> first | rfl | omega | (congr 1; omega)

theorem rdField_formatI : rdField (formatI opc rd imm) = rd := by
  refine BitVec.eq_of_getLsbD_eq fun i hi => ?_
  simp only [rdField, BitVec.getLsbD_extractLsb', getLsbD_formatI, hi, decide_true, Bool.true_and]
  split_ifs <;> first | omega | (congr 1; omega)

theorem raField_formatI : raField (formatI opc rd imm) = 0#4 := by
  refine BitVec.eq_of_getLsbD_eq fun i hi => ?_
  simp only [raField, BitVec.getLsbD_extractLsb', getLsbD_formatI, hi, decide_true, Bool.true_and, BitVec.getLsbD_zero]
  split_ifs <;> first | rfl | omega

theorem immField_formatI : immField (formatI opc rd imm) = imm := by
  refine BitVec.eq_of_getLsbD_eq fun i hi => ?_
  simp only [immField, BitVec.getLsbD_extractLsb', getLsbD_formatI, hi, decide_true, Bool.true_and]
  split_ifs <;> first | omega | (congr 1; omega)

end FormatI

theorem regOf_bits (r : Reg) : regOf r.bits = r := rfl
theorem modSelOf_bit (m : ModSel) : modSelOf m.bit = m := by cases m <;> rfl
theorem orderOf_bit (o : ByteOrder) : orderOf o.bit = o := by cases o <;> rfl
theorem bits_regOf (b : BitVec 4) : Reg.bits (regOf b) = b := rfl
theorem bit_modSelOf (b : BitVec 1) : (modSelOf b).bit = b := by revert b; decide
theorem bit_orderOf (b : BitVec 1) : (orderOf b).bit = b := by revert b; decide

/-- A word is the format R word of its own fields when its bits [31:22] are 0. -/
theorem formatR_fields (c : Word32) (h : topField c = 0#10) :
    formatR (opcField c) (rdField c) (raField c) (rbField c) (msField c) (leField c) = c := by
  refine BitVec.eq_of_getLsbD_eq fun i hi => ?_
  have htop : 22 ≤ i → c.getLsbD i = false := fun hle => by
    have := congrArg (fun b => b.getLsbD (i - 22)) h
    simp only [topField, BitVec.getLsbD_extractLsb', BitVec.getLsbD_zero] at this
    simpa [show i - 22 < 10 by omega, show 22 + (i - 22) = i by omega] using this
  simp only [getLsbD_formatR, opcField, rdField, raField, rbField, msField, leField, BitVec.getLsbD_extractLsb']
  split_ifs with h1 h2 h3 h4 h5 h6
  · simp [h1]
  · simp [show i - 8 < 4 by omega, show 8 + (i - 8) = i by omega]
  · simp [show i - 12 < 4 by omega, show 12 + (i - 12) = i by omega]
  · simp [show i - 16 < 4 by omega, show 16 + (i - 16) = i by omega]
  · simp [show i - 20 < 1 by omega, show 20 + (i - 20) = i by omega]
  · simp [show i - 21 < 1 by omega, show 21 + (i - 21) = i by omega]
  · exact (htop (by omega)).symm

/-- A word is the format I word of its own fields when its bits [15:12] are 0. -/
theorem formatI_fields (c : Word32) (h : raField c = 0#4) : formatI (opcField c) (rdField c) (immField c) = c := by
  refine BitVec.eq_of_getLsbD_eq fun i hi => ?_
  have hmid : 12 ≤ i → i < 16 → c.getLsbD i = false := fun h1 h2 => by
    have := congrArg (fun b => b.getLsbD (i - 12)) h
    simp only [raField, BitVec.getLsbD_extractLsb', BitVec.getLsbD_zero] at this
    simpa [show i - 12 < 4 by omega, show 12 + (i - 12) = i by omega] using this
  simp only [getLsbD_formatI, opcField, rdField, immField, BitVec.getLsbD_extractLsb']
  split_ifs with h1 h2 h3
  · simp [h1]
  · simp [show i - 8 < 4 by omega, show 8 + (i - 8) = i by omega]
  · exact (hmid (by omega) (by omega)).symm
  · simp [show i - 16 < 16 by omega, show 16 + (i - 16) = i by omega]

end Sys2Proof
end

