-- ==== Sys2Proof/Laws/Words.lean ====
section
/-! SUPPORT. Words of wide registers (20_memory.md R62), of BUF (R63), and the fields of a bus address (R60). -/

namespace Sys2Proof.Machine

theorem getLsbD_lowWord (n : Nat) : (0xFFFFFFFF#512).getLsbD n = decide (n < 32) := by
  have : (0xFFFFFFFF#512) = BitVec.ofNat 512 (2 ^ 32 - 1) := rfl
  rw [this, BitVec.getLsbD_ofNat, Nat.testBit_two_pow_sub_one]
  by_cases h : n < 32
  · simp [h, show n < 512 by omega]
  · simp [h]

/-- Bit k of a register after a write of word j: the word's bit inside the word, the old bit outside. -/
theorem getLsbD_setWord (r : Big) (j : Fin 16) (w : Word32) (k : Nat) (hk : k < 512) :
    (setWord r j w).getLsbD k = if k / 32 = j.val then w.getLsbD (k % 32) else r.getLsbD k := by
  have hj := j.isLt
  unfold setWord
  simp only [BitVec.getLsbD_or, BitVec.getLsbD_and, BitVec.getLsbD_not, BitVec.getLsbD_shiftLeft, getLsbD_lowWord,
    BitVec.getLsbD_setWidth, hk, decide_true, Bool.true_and]
  by_cases h1 : k < 32 * j.val
  · have : k / 32 ≠ j.val := by omega
    simp [h1, this]
  · by_cases h2 : k - 32 * j.val < 32
    · have h3 : k / 32 = j.val := by omega
      have h4 : k - 32 * j.val = k % 32 := by omega
      have h5 : k % 32 < 512 := by omega
      have h6 : k % 32 < 32 := by omega
      simp [h1, h3, h4, h5, h6]
    · have h3 : k / 32 ≠ j.val := by omega
      have h5 : w.getLsbD (k - 32 * j.val) = false := BitVec.getLsbD_of_ge _ _ (by omega)
      simp [h1, h2, h3, h5]

/-- A word written reads back. -/
theorem getWord_setWord_same (r : Big) (j : Fin 16) (w : Word32) : getWord (setWord r j w) j = w := by
  refine BitVec.eq_of_getLsbD_eq fun i hi => ?_
  have hj := j.isLt
  unfold getWord
  rw [BitVec.getLsbD_extractLsb', getLsbD_setWord _ _ _ _ (by omega)]
  have h1 : (32 * j.val + i) / 32 = j.val := by omega
  have h2 : (32 * j.val + i) % 32 = i := by omega
  simp [h1, h2, hi]

/-- The other words keep their values. -/
theorem getWord_setWord_other (r : Big) (j k : Fin 16) (w : Word32) (h : k ≠ j) :
    getWord (setWord r j w) k = getWord r k := by
  refine BitVec.eq_of_getLsbD_eq fun i hi => ?_
  have hk := k.isLt
  have hne : k.val ≠ j.val := fun e => h (Fin.ext e)
  unfold getWord
  rw [BitVec.getLsbD_extractLsb', BitVec.getLsbD_extractLsb', getLsbD_setWord _ _ _ _ (by omega)]
  have h1 : (32 * k.val + i) / 32 = k.val := by omega
  simp [h1, hne]

/-- The upper 18 bits of an address of the window are those of BASE. -/
theorem windowAddr_page (off : BitVec 14) : (windowAddr off).extractLsb' 14 18 = Config.basePage := by
  refine BitVec.eq_of_getLsbD_eq fun i hi => ?_
  unfold windowAddr
  rw [BitVec.getLsbD_extractLsb', BitVec.getLsbD_append]
  simp [hi]

/-- Its lower 14 bits are the offset. -/
theorem windowAddr_offset (off : BitVec 14) : (windowAddr off).extractLsb' 0 14 = off := by
  refine BitVec.eq_of_getLsbD_eq fun i hi => ?_
  unfold windowAddr
  rw [BitVec.getLsbD_extractLsb', BitVec.getLsbD_append]
  simp [hi]

/-- An access at BASE + off is an access to the window at off. -/
@[simp] theorem hostAccess_windowAddr (s : State) (off : BitVec 14) (bits : Nat) (op : AccessOp) :
    hostAccess s ⟨windowAddr off, bits, op⟩ = windowAccess s off.toNat bits op := by
  simp [hostAccess, windowAddr_page, windowAddr_offset]

/-- The fields of STATUS where the host looks for them (10_state.md R23). -/
theorem statusWord_toNat (s : State) :
    s.statusWord.toNat = (s.busy.toNat + 2 * s.done.toNat + 4 * (s.errcode.code != 0).toNat + 8 * s.accerr.toNat
      + 16 * s.errcode.code.toNat + 256 * s.flags.z.toNat + 512 * s.flags.eq.toNat + 1024 * s.flags.inRange.toNat
      + 2048 * s.flags.mz.toNat + 4096 * s.cache.edv.toNat) := by
  unfold State.statusWord
  cases s.busy <;> cases s.done <;> cases s.errcode <;> cases s.accerr <;> cases s.flags.z <;> cases s.flags.eq <;>
    cases s.flags.inRange <;> cases s.flags.mz <;> cases s.cache.edv <;> rfl

end Sys2Proof.Machine
end

