-- ==== Sys2Proof/Laws/Steps.lean ====
section
/-! SUPPORT. What one host access and one step can do, said once. -/

namespace Sys2Proof.Machine

/-- One access to the window: it is refused, or it is an accepted read that only answers, or an accepted write of one
register (20_memory.md R67 to R69). -/
theorem windowAccess_cases (s : State) (off bits : Nat) (op : AccessOp) :
    windowAccess s off bits op = s.refuse op ∨
    (∃ r, regAt off = some r ∧ bits = 32 ∧ off % 4 = 0 ∧ op = .read ∧ refusesRead s r = false ∧
      windowAccess s off bits op = { s with rdata := readReg s r }) ∨
    (∃ r w, regAt off = some r ∧ bits = 32 ∧ off % 4 = 0 ∧ op = .write w ∧ refusesWrite s r = false ∧
      windowAccess s off bits op = writeReg s w r) := by
  unfold windowAccess
  split
  · exact .inl rfl
  · next ha =>
    obtain ⟨hb, ho⟩ : bits = 32 ∧ off % 4 = 0 := by omega
    cases hr : regAt off with
    | none => exact .inl rfl
    | some r =>
      cases op with
      | read =>
        by_cases h : refusesRead s r = true
        · left; simp [regAccess, h]
        · right; left; exact ⟨r, rfl, hb, ho, rfl, by simpa using h, by simp [regAccess, h]⟩
      | write w =>
        by_cases h : refusesWrite s r = true
        · left; simp [regAccess, h]
        · right; right; exact ⟨r, w, rfl, hb, ho, rfl, by simpa using h, by simp [regAccess, h]⟩

/-- An address whose page is BASE's is that of its offset. -/
theorem windowAddr_extract {x : BitVec 32} (h : x.extractLsb' 14 18 = Config.basePage) :
    windowAddr (x.extractLsb' 0 14) = x := by
  unfold windowAddr
  rw [← h]
  ext i hi
  simp only [BitVec.getElem_append, BitVec.getElem_extractLsb']
  split
  · rw [Nat.zero_add, BitVec.getLsbD_eq_getElem]
  · rw [show 14 + (i - 14) = i by omega, BitVec.getLsbD_eq_getElem]

/-- One host access: it lies outside the window, or is refused, or is a 32-bit read or write of a register. -/
theorem hostAccess_cases (s : State) (a : Access) :
    hostAccess s a = s ∨ hostAccess s a = s.refuse a.op ∨
    (∃ off r, a = ⟨windowAddr off, 32, .read⟩ ∧ regAt off.toNat = some r ∧ refusesRead s r = false ∧
      hostAccess s a = { s with rdata := readReg s r }) ∨
    (∃ off r w, a = ⟨windowAddr off, 32, .write w⟩ ∧ regAt off.toNat = some r ∧ refusesWrite s r = false ∧
      hostAccess s a = writeReg s w r) := by
  obtain ⟨addr, bits, op⟩ := a
  by_cases hp : addr.extractLsb' 14 18 = Config.basePage
  · have e : hostAccess s ⟨addr, bits, op⟩ = windowAccess s (addr.extractLsb' 0 14).toNat bits op := if_pos hp
    rw [e]
    rcases windowAccess_cases s (addr.extractLsb' 0 14).toNat bits op with
      h | ⟨r, hr, rfl, _, rfl, hf, h⟩ | ⟨r, w, hr, rfl, _, rfl, hf, h⟩
    · exact .inr (.inl h)
    · exact .inr (.inr (.inl ⟨_, r, by rw [windowAddr_extract hp], hr, hf, h⟩))
    · exact .inr (.inr (.inr ⟨_, r, w, by rw [windowAddr_extract hp], hr, hf, h⟩))
  · exact .inl (if_neg hp)

/-- CTRL stands at offset 0x004 only. -/
theorem regAt_ctrl {off : BitVec 14} (h : regAt off.toNat = some .ctrl) : off = 0x004#14 := by
  refine BitVec.eq_of_toNat_eq ?_
  unfold regAt at h
  split at h
  · split at h <;> simp_all
  · split_ifs at h <;> simp_all

/-- A CTRL write without bit 2 writes IE and LOCK only (10_state.md R22). -/
theorem writeCtrl_keeps {s : State} {w : Word32} (h : w.getLsbD 2 = false) :
    s.writeCtrl w = { s with ie := w.getLsbD 0, lock := s.lock || w.getLsbD 1 } := by
  unfold State.writeCtrl; rw [h]; rfl

/-- A CTRL write with bit 2 writes IE and LOCK, then performs the soft reset (70_reset_and_hazards.md R313). -/
theorem writeCtrl_softResets {s : State} {w : Word32} (h : w.getLsbD 2 = true) :
    s.writeCtrl w = { s with ie := w.getLsbD 0, lock := s.lock || w.getLsbD 1 }.softReset := by
  unfold State.writeCtrl; rw [h]; rfl

/-- A completion slot: an idle block does nothing; a busy one completes the latched word with a result that is an error
or stays inside the frame of commands. -/
theorem completionStep_cases (s : State) :
    (s.seq = .idle ∧ completionStep s = .next s) ∨
    ∃ c r, s.seq = .busy c ∧ completionStep s = .next (s.complete r) ∧ ResultOk s r := by
  unfold completionStep
  cases h : s.seq with
  | idle => exact .inl ⟨rfl, rfl⟩
  | busy c =>
    right
    show ∃ c' r, _ ∧ runWord c s = _ ∧ _
    unfold runWord
    cases decode c with
    | none => exact ⟨c, _, rfl, rfl, .error _ (by simp)⟩
    | some i =>
      obtain ⟨r, hr, hok⟩ := exec_complete i s
      exact ⟨c, r, rfl, hr, hok⟩

/-- What one step can be (70_reset_and_hazards.md R310), with the inputs it leaves. -/
theorem step_cases (s : State) :
    (s.inputs = [] ∧ step s = completionStep s) ∨
    (∃ a rest, s.inputs = .access a :: rest ∧ step s = .next (hostAccess { s with inputs := rest } a)) ∨
    (∃ rest, s.inputs = .completion :: rest ∧ step s = completionStep { s with inputs := rest }) ∨
    (∃ rest, s.inputs = .hardwareReset :: rest ∧ step s = .next { s with inputs := rest }.hardwareReset) := by
  unfold step
  split
  · next h => exact .inl ⟨h, rfl⟩
  · next a rest h => exact .inr (.inl ⟨a, rest, h, rfl⟩)
  · next rest h => exact .inr (.inr (.inl ⟨rest, h, rfl⟩))
  · next rest h => exact .inr (.inr (.inr ⟨rest, h, rfl⟩))

end Sys2Proof.Machine
end

