-- ==== Sys2Proof/Machine/Assembly.lean ====
section
/-! DEFINITION. The assembly syntax and the pseudo-instructions (30_encoding.md R99, R100). -/

namespace Sys2Proof.Machine

/-- A register's name, v0 to v15 (30_encoding.md R99). -/
def regName (r : Reg) : String := "v" ++ toString r.val

/-- The suffix of a modular mnemonic (30_encoding.md R99). -/
def modSuffix : ModSel → String
  | .p => ".P"
  | .q => ".Q"

/-- The suffix of LDB and STB (30_encoding.md R99). -/
def orderSuffix : ByteOrder → String
  | .be => ".BE"
  | .le => ".LE"

/-- One operand after a mnemonic. -/
def asm1 (name : String) (a : Reg) : String := name ++ " " ++ regName a

/-- Two operands after a mnemonic. -/
def asm2 (name : String) (a b : Reg) : String := asm1 name a ++ ", " ++ regName b

/-- Three operands after a mnemonic. -/
def asm3 (name : String) (a b c : Reg) : String := asm2 name a b ++ ", " ++ regName c

/-- A command in assembly syntax; a pair operand is written by its x register (30_encoding.md R99). -/
def asm : Instr → String
  | .nop => "NOP"
  | .mov rd ra => asm2 "MOV" rd ra
  | .ldi rd imm => asm1 "LDI" rd ++ ", #" ++ toString imm.toNat
  | .ldb rd order => asm1 ("LDB" ++ orderSuffix order) rd
  | .stb ra order => asm1 ("STB" ++ orderSuffix order) ra
  | .mred rd ra ms => asm2 ("MRED" ++ modSuffix ms) rd ra
  | .mrednz rd ra ms => asm2 ("MREDNZ" ++ modSuffix ms) rd ra
  | .madd rd ra rb ms => asm3 ("MADD" ++ modSuffix ms) rd ra rb
  | .msub rd ra rb ms => asm3 ("MSUB" ++ modSuffix ms) rd ra rb
  | .mmul rd ra rb ms => asm3 ("MMUL" ++ modSuffix ms) rd ra rb
  | .minv rd ra ms => asm2 ("MINV" ++ modSuffix ms) rd ra
  | .rchk ra ms => asm1 ("RCHK" ++ modSuffix ms) ra
  | .cmpeq ra rb => asm2 "CMPEQ" ra rb
  | .ecmul rd ra rb => asm3 "ECMUL" rd ra rb
  | .ecmulb rd ra => asm2 "ECMULB" rd ra
  | .ecadd rd ra rb => asm3 "ECADD" rd ra rb
  | .toedw rd ra => asm2 "TOEDW" rd ra
  | .towei rd ra => asm2 "TOWEI" rd ra
  | .kdfx ra => asm1 "KDFX" ra
  | .htag ra => asm1 "HTAG" ra
  | .bcmp => "BCMP"

/-- `CLR vd` (30_encoding.md R100). -/
def pseudoClr (rd : Reg) : List Instr := [.ldi rd 0]

/-- `TST vd` (30_encoding.md R100). -/
def pseudoTst (rd : Reg) : List Instr := [.mov rd rd]

/-- `MOVP vd, va`, d and a even (30_encoding.md R100). -/
def pseudoMovp (rd ra : Reg) : List Instr := [.mov rd ra, .mov (rd + 1) (ra + 1)]

end Sys2Proof.Machine
end

