-- ==== Sys2Proof/Machine/HostSequences.lean ====
section
/-! DEFINITION. The host software of 45_host_sequences.md and the boot order of 70_reset_and_hazards.md R315, as programs
that drive the machine through its own steps. They are not hardware: nothing in the block depends on them (00_scope.md
R5). The register assignments are those of the rules (log entries 15, 16, 17, 25, 26,
28, 29). -/

namespace Sys2Proof.Driver

open Sys2Proof.Machine

/-- How a host sequence ends without a result (45_host_sequences.md R240, R241). -/
inductive HostError where
  /-- A fatal condition: the random source failed (it ran out, or a draw has the wrong length), RETRY_CAP was exceeded, a
  command failed where the rules do not say what to do (45_host_sequences.md R240), an area does not fit (DESIGN CHOICE,
  log entry 25), or the boot order found a wrong ID or no clean pass (DESIGN CHOICE, log entry 28). -/
  | fatal
  | zeroKey
  | lengthMismatch
  | kdfExhausted
  /-- The tag differs; the plaintext is returned with the error and must be treated as rejected (R252). -/
  | tagMismatch (plaintext : Bytes)
  | unsupportedCurveForm
  deriving DecidableEq, Repr

/-- A host program: it runs on the machine's state and ends with a result or an error. However it ends, the machine is in
the state its last action left: an error, fatal or not, undoes nothing and cleans nothing up (DESIGN CHOICE, log entry
17). -/
abbrev Program := ExceptT HostError (StateM State)

/-! ### Actions (30_encoding.md R101) -/

/-- One atomic step of the machine, chosen by the host or the platform, before whatever else is still to come. -/
def act (i : Input) : Program Unit := ExceptT.mk fun s =>
  match step { s with inputs := i :: s.inputs } with
  | .next t => (.ok (), t)
  | .fault _ => (.error .fatal, s)
  | .refused _ => (.error .fatal, s)

/-- A condition without which the sequence cannot go on: the end is fatal where it fails. -/
def demand (ok : Bool) : Program Unit := if ok then pure () else throw .fatal

/-- A 32-bit read of an offset of the window. -/
def readWord (off : Nat) : Program Word32 := do
  act (.access ⟨windowAddr (BitVec.ofNat 14 off), 32, .read⟩)
  return (← get).rdata

/-- `SET`: a 32-bit write to an offset of the window. -/
def writeWord (off : Nat) (w : Word32) : Program Unit :=
  act (.access ⟨windowAddr (BitVec.ofNat 14 off), 32, .write w⟩)

/-- `SET` of BUF_SRC, BUF_DST or BUF_LEN: 16-bit fields, so a greater value cannot be set (log entry 25). -/
def setField (off n : Nat) : Program Unit := do
  demand (n < 2 ^ 16)
  writeWord off (BitVec.ofNat 32 n)

/-- `SET BUF_SRC`. -/
def setSrc (n : Nat) : Program Unit := setField 0x010 n
/-- `SET BUF_DST`. -/
def setDst (n : Nat) : Program Unit := setField 0x014 n
/-- `SET BUF_LEN`. -/
def setLen (n : Nat) : Program Unit := setField 0x018 n

/-- The sixteen word writes of a wide register, word 0 first (20_memory.md R62). -/
def writeWide (off : Nat) (x : Big) : Program Unit :=
  (List.finRange 16).forM fun j => writeWord (off + 4 * j.val) (getWord x j)

/-- `WRV vi, value`. -/
def wrv (i : Reg) (x : Big) : Program Unit := writeWide (0x400 + 64 * i.val) x

/-- Write one byte of BUF: read the word, merge, write it back (70_reset_and_hazards.md R323). -/
def writeByte (off : Nat) (b : Byte) : Program Unit := do
  let w ← readWord (0x2000 + 4 * (off / 4))
  let k := 8 * (off % 4)
  writeWord (0x2000 + 4 * (off / 4)) ((w &&& ~~~(0xFF#32 <<< k)) ||| (b.setWidth 32 <<< k))

/-- Write bytes of BUF one after another. -/
def writeBytes : Nat → Bytes → Program Unit
  | _, [] => pure ()
  | off, b :: s => do
    writeByte off b
    writeBytes (off + 1) s

/-- Read bytes of BUF one after another. -/
def readBytes : Nat → Nat → Program Bytes
  | _, 0 => pure []
  | off, n + 1 => do
    let w ← readWord (0x2000 + 4 * (off / 4))
    let s ← readBytes (off + 1) n
    return (w >>> (8 * (off % 4))).setWidth 8 :: s

/-- `WRBUF off, bytes`: only an area inside BUF can be written (20_memory.md R64; log entry 25). -/
def wrbuf (off : Nat) (s : Bytes) : Program Unit := do
  demand (inBuf off s.length)
  writeBytes off s

/-- `RDBUF off, n`: only an area inside BUF can be read (20_memory.md R64; log entry 25). -/
def rdbuf (off n : Nat) : Program Bytes := do
  demand (inBuf off n)
  readBytes off n

/-- `CMD` followed by `WAIT`: the command word is written, the command completes, STATUS is read (log entry 15). -/
def cmd (i : Instr) : Program Word32 := do
  writeWord 0x00C (encode i)
  act .completion
  readWord 0x008

/-- STATUS.ERRCODE. -/
def errCodeOf (status : Word32) : BitVec 4 := status.extractLsb' 4 4

/-- A command that must not fail: any error is fatal (45_host_sequences.md R240), but the Edwards one has a name
(R241). -/
def cmdOk (i : Instr) : Program Word32 := do
  let st ← cmd i
  if errCodeOf st = 5 then throw .unsupportedCurveForm
  else if errCodeOf st ≠ 0 then throw .fatal
  else return st

/-- STATUS.Z. -/
def zOf (status : Word32) : Bool := status.getLsbD 8
/-- STATUS.EQ. -/
def eqOf (status : Word32) : Bool := status.getLsbD 9
/-- STATUS.IN. -/
def inOf (status : Word32) : Bool := status.getLsbD 10
/-- STATUS.MZ. -/
def mzOf (status : Word32) : Bool := status.getLsbD 11

/-- Read PSIZE. -/
def readPsize : Program Nat := do return (← readWord 0x020).toNat

/-- Commands one after another, none of which may fail. -/
def cmdsOk (is : List Instr) : Program Unit := is.forM fun i => do let _ ← cmdOk i

/-- LDB of a region. -/
def load (rd : Reg) (order : ByteOrder) (off n : Nat) : Program Word32 := do
  setSrc off
  setLen n
  cmdOk (.ldb rd order)

/-- STB to a region. -/
def store (ra : Reg) (order : ByteOrder) (off n : Nat) : Program Unit := do
  setDst off
  setLen n
  let _ ← cmdOk (.stb ra order)

/-! ### Boot (70_reset_and_hazards.md R315) -/

/-- A named parameter set: the curve registers, and E, D where the curve has an Edwards form. -/
structure CurveSet where
  p : Big
  q : Big
  a : Big
  b : Big
  gx : Big
  gy : Big
  edwards : Option (Big × Big)

/-- How the boot order starts: a hardware reset and a curve to load, or a soft reset that keeps the curve (R315, step 1). -/
inductive Start where
  | hardware (c : CurveSet)
  | soft

/-- Step 1: the hardware reset, or the CTRL write with bit 2 = 1 (R312, R313). The latter writes IE = 0, and LOCK stays
as it is (DESIGN CHOICE, log entry 28). -/
def resetBlock : Start → Program Unit
  | .hardware _ => act .hardwareReset
  | .soft => writeWord 0x004 0x4

/-- Steps 3 and 4: all words of the curve registers, and E, D and EDW = 1 where the curve has an Edwards form. -/
def loadCurve (c : CurveSet) : Program Unit := do
  writeWide 0x100 c.p
  writeWide 0x140 c.q
  writeWide 0x180 c.a
  writeWide 0x1C0 c.b
  writeWide 0x200 c.gx
  writeWide 0x240 c.gy
  match c.edwards with
  | some (e, d) =>
    writeWide 0x280 e
    writeWide 0x2C0 d
    writeWord 0x01C 1
  | none => pure ()

/-- Steps 3 and 4 as a start needs them: a curve that is kept is not written again (DESIGN CHOICE, log entry 28). -/
def setUpCurve : Start → Program Unit
  | .hardware c => loadCurve c
  | .soft => pure ()

/-- STATUS.ACCERR. -/
def accerrOf (status : Word32) : Bool := status.getLsbD 3

/-- Steps 1 to 6 once: `false` where an access was refused, with ACCERR cleared (R315, step 6; 10_state.md R23). -/
def bootPass (start : Start) (lock ie : Bool) : Program Bool := do
  resetBlock start
  demand ((← readWord 0x000) == Config.idValue)
  setUpCurve start
  writeWord 0x004 (0#30 ++ BitVec.ofBool lock ++ BitVec.ofBool ie)
  if accerrOf (← readWord 0x008) then
    writeWord 0x008 0x8
    return false
  else return true

/-- The boot order, repeated from step 1 as long as an access of it is refused, in at most `n` passes. -/
def bootWithin (start : Start) (lock ie : Bool) : (n : Nat) → Program Unit
  | 0 => throw .fatal
  | n + 1 => do
    if ← bootPass start lock ie then pure () else bootWithin start lock ie n

/-- Steps 1 to 6 of the boot order (R315). That "repeat" starts from step 1, and that it ends fatally after RETRY_CAP
passes, is the model's choice (DESIGN CHOICE, log entry 28). -/
def boot (start : Start) (lock ie : Bool) : Program Unit := bootWithin start lock ie Config.retryCap

/-! ### Key management (45_host_sequences.md R242 to R246) -/

/-- Load a scalar from n bytes at `off`, reduce it modulo Q; zero is ZeroKey (R242). -/
def scalarFrom (vk : Reg) (order : ByteOrder) (off n : Nat) : Program Unit := do
  let _ ← load vk order off n
  let st ← cmdOk (.mred vk vk .q)
  if zOf st then throw .zeroKey

/-- generatePrivateKey from the random bytes of the host (R242). -/
def generatePrivateKey (vk : Reg) (off : Nat) (random : Bytes) : Program Unit := do
  let n ← readPsize
  if random.length ≠ n then throw .fatal
  wrbuf off random
  scalarFrom vk .le off n

/-- Decoding a private key, in either byte order (R242). -/
def decodePrivateKey (vk : Reg) (order : ByteOrder) (off : Nat) (key : Bytes) : Program Unit := do
  let n ← readPsize
  if key.length ≠ n then throw .lengthMismatch
  wrbuf off key
  scalarFrom vk order off n

/-- Digest reduction in the given byte order (R243). -/
def loadDigest (ve : Reg) (order : ByteOrder) (off len : Nat) : Program Unit := do
  let _ ← load ve order off len
  cmdsOk [.mrednz ve ve .q]

/-- Decoding a public key: X then Y for both orders, since rev(Y || X) is le(X) || le(Y) (R244). -/
def decodePublicKey (vp : Reg) (order : ByteOrder) (off : Nat) (key : Bytes) : Program Unit := do
  let n ← readPsize
  if key.length ≠ 2 * n then throw .lengthMismatch
  wrbuf off key
  let _ ← load vp order off n
  let _ ← load (vp + 1) order (off + n) n

/-- Encoding a private key (R245). -/
def encodePrivateKey (vk : Reg) (order : ByteOrder) (off : Nat) : Program Bytes := do
  let n ← readPsize
  store vk order off n
  rdbuf off n

/-- Encoding a public key (R245). -/
def encodePublicKey (vp : Reg) (order : ByteOrder) (off : Nat) : Program Bytes := do
  let n ← readPsize
  store vp order off n
  store (vp + 1) order (off + n) n
  rdbuf off (2 * n)

/-- publicKey(prv) (R246). -/
def publicKey (vp vk : Reg) : Program Unit := cmdsOk [.ecmulb vp vk]

/-- One draw of an ephemeral scalar: exactly n random bytes are written, loaded big-endian and overwritten in BUF at once
(R251; log entry 26), and the scalar is reduced modulo Q; `false` where it is 0 (R247, R250). A draw of another length is
a failure of the random source, fatal by R240. -/
def drawScalar (vk : Reg) (off n : Nat) (nonce : Bytes) : Program Bool := do
  demand (nonce.length == n)
  wrbuf off nonce
  let _ ← load vk .be off n
  wrbuf off (List.replicate n 0x00#8)
  return !zOf (← cmdOk (.mred vk vk .q))

/-- Discarding the register of an ephemeral scalar (R251); its bytes in BUF are overwritten by `drawScalar`. -/
def discard (vk : Reg) : Program Unit := cmdsOk (pseudoClr vk)

/-! ### Signature engine (45_host_sequences.md R247 to R249) -/

/-- One nonce of Sign: the signature's r in v6 and s in v9, or `false` to draw again (R247). -/
def signAttempt (nonceAt n : Nat) (nonce : Bytes) : Program Bool := do
  if !(← drawScalar 3 nonceAt n nonce) then return false
  let _ ← cmdOk (.ecmulb 4 3)
  if zOf (← cmdOk (.mred 6 4 .q)) then return false
  cmdsOk [.mmul 7 0 6 .q, .mmul 8 3 2 .q]
  return !zOf (← cmdOk (.madd 9 7 8 .q))

/-- The bounded retry over the nonces the host draws (R240, R247): running out of them is fatal. -/
def retry (attempt : Bytes → Program Bool) : List Bytes → Program Unit
  | [] => throw .fatal
  | nonce :: rest => do
    if ← attempt nonce then pure () else retry attempt rest

/-- The areas of BUF a signature uses: digest DG, nonce NC, signature SG. -/
structure SignAreas where
  digest : Nat
  nonce : Nat
  signature : Nat

/-- Sign with the key in v0, the digest read in the given order (R247, R248): be_n(s) || be_n(r). The nonce is discarded
before returning (R251; 95_test_vectors.md 9.1). -/
def signIn (order : ByteOrder) (at_ : SignAreas) (digest : Bytes) (nonces : List Bytes) : Program Bytes := do
  let n ← readPsize
  wrbuf at_.digest digest
  loadDigest 2 order at_.digest digest.length
  retry (signAttempt at_.nonce n) (nonces.take Config.retryCap)
  store 9 .be at_.signature n
  store 6 .be (at_.signature + n) n
  discard 3
  rdbuf at_.signature (2 * n)

/-- Sign (R247), DIGEST_ORDER being the platform's (R243). -/
def sign (at_ : SignAreas) (digest : Bytes) (nonces : List Bytes) : Program Bytes :=
  signIn Config.digestOrder at_ digest nonces

/-- A command whose ENGINE_FAIL is an answer: `false` on it, fatal on any other error (R249). -/
def cmdEngine (i : Instr) : Program Bool := do
  let st ← cmd i
  if errCodeOf st = 6 then return false
  else if errCodeOf st ≠ 0 then throw .fatal
  else return true

/-- Verify with the public point in (v10, v11), the digest read in the given order (R249). -/
def verifyIn (order : ByteOrder) (at_ : SignAreas) (digest sig : Bytes) : Program Bool := do
  let n ← readPsize
  if sig.length ≠ 2 * n then throw .lengthMismatch
  wrbuf at_.signature sig
  wrbuf at_.digest digest
  let _ ← load 0 .be at_.signature n
  let _ ← load 1 .be (at_.signature + n) n
  if !inOf (← cmdOk (.rchk 0 .q)) then return false
  if !inOf (← cmdOk (.rchk 1 .q)) then return false
  loadDigest 2 order at_.digest digest.length
  cmdsOk ([.minv 3 2 .q, .mmul 4 0 3 .q, .mmul 5 1 3 .q] ++ pseudoClr 15 ++ [.msub 5 15 5 .q])
  if !(← cmdEngine (.ecmulb 6 4)) then return false
  if !(← cmdEngine (.ecmul 8 5 10)) then return false
  if !(← cmdEngine (.ecadd 12 6 8)) then return false
  cmdsOk [.mred 12 12 .q]
  return eqOf (← cmdOk (.cmpeq 12 1))

/-- Verify (R249), DIGEST_ORDER being the platform's (R243). -/
def verify (at_ : SignAreas) (digest sig : Bytes) : Program Bool := verifyIn Config.digestOrder at_ digest sig

/-! ### Byte-order adapters (45_host_sequences.md R256) -/

/-- The three signer and verifier variants (R256; 90_conflicts.md C3). -/
inductive Adapter where
  | plain
  | reversedDigest
  | reversedDigestAndSignature
  deriving DecidableEq, Repr

/-- What an adapter does to a digest. -/
def Adapter.digest : Adapter → Bytes → Bytes
  | .plain, d => d
  | .reversedDigest, d => d.reverse
  | .reversedDigestAndSignature, d => d.reverse

/-- What an adapter does to a signature, produced or consumed. -/
def Adapter.signature : Adapter → Bytes → Bytes
  | .plain, s => s
  | .reversedDigest, s => s
  | .reversedDigestAndSignature, s => s.reverse

/-- Sign through an adapter. -/
def signWith (ad : Adapter) (at_ : SignAreas) (digest : Bytes) (nonces : List Bytes) : Program Bytes := do
  return ad.signature (← sign at_ (ad.digest digest) nonces)

/-- Verify through an adapter. -/
def verifyWith (ad : Adapter) (at_ : SignAreas) (digest sig : Bytes) : Program Bool :=
  verify at_ (ad.digest digest) (ad.signature sig)

/-! ### Encryption engine (45_host_sequences.md R250 to R255) -/

/-- The two field orders of a ciphertext (R255). -/
inductive Mode where
  | mode0
  | mode1
  deriving DecidableEq, Repr

/-- The areas of BUF an encryption or decryption uses: plaintext PT, ciphertext CT, nonce NC, recomputed tag HT. -/
structure EciesAreas where
  plain : Nat
  cipher : Nat
  nonce : Nat
  tag : Nat

/-- Where the tag of an n-byte ciphertext body stands (R250, R255). -/
def tagAt (m : Mode) (ct n : Nat) : Nat :=
  match m with
  | .mode0 => ct + 65
  | .mode1 => ct + 65 + n

/-- Where the body stands (R250, R255). -/
def bodyAt (m : Mode) (ct : Nat) : Nat :=
  match m with
  | .mode0 => ct + 97
  | .mode1 => ct + 65

/-- Two areas of BUF without a byte in common. -/
def disjoint (a m b n : Nat) : Bool := m == 0 || n == 0 || a + m ≤ b || b + n ≤ a

/-- The two layouts of plaintext and ciphertext: the plaintext stands in the place of the body, or the areas are separate;
both lie in BUF, so 97 + n or 97 + 2n bytes fit (R250, R252; log entry 25). -/
def layoutFits (m : Mode) (at_ : EciesAreas) (n : Nat) : Bool :=
  inBuf at_.plain n && inBuf at_.cipher (97 + n) &&
    (at_.plain == bodyAt m at_.cipher || disjoint at_.plain n at_.cipher (97 + n))

/-- One ephemeral scalar of Encrypt, from v6 = k to the body; `false` to draw again (R250, R254). -/
def encryptAttempt (m : Mode) (at_ : EciesAreas) (len : Nat) (nonce : Bytes) : Program Bool := do
  if !(← drawScalar 6 at_.nonce 32 nonce) then return false
  cmdsOk [.ecmulb 0 6, .ecmul 2 6 10]
  store 0 .be (at_.cipher + 1) 32
  store 1 .be (at_.cipher + 33) 32
  setSrc at_.plain
  setDst (tagAt m at_.cipher len)
  setLen len
  let _ ← cmdOk (.htag 2)
  setDst (bodyAt m at_.cipher)
  return !mzOf (← cmdOk (.kdfx 2))

/-- Encrypt with the public point in (v10, v11) on a curve with PSIZE = 32 (R250, R253): the areas must fit, and a draw
must not overwrite the plaintext (log entry 25); the ephemeral scalar is discarded before returning (R251). -/
def encrypt (m : Mode) (at_ : EciesAreas) (plaintext : Bytes) (nonces : List Bytes) : Program Bytes := do
  demand (layoutFits m at_ plaintext.length && disjoint at_.nonce 32 at_.plain plaintext.length)
  wrbuf at_.plain plaintext
  retry (encryptAttempt m at_ plaintext.length) (nonces.take Config.retryCap)
  wrbuf at_.cipher [0x04#8]
  discard 6
  rdbuf at_.cipher (97 + plaintext.length)

/-- Decrypt with the key in v7 (R252); the leading byte is not checked. The areas must fit, the recomputed tag apart from
the plaintext and the received tag (log entry 25). -/
def decrypt (m : Mode) (at_ : EciesAreas) (ciphertext : Bytes) : Program Bytes := do
  if ciphertext.length < 97 then throw .lengthMismatch
  let n := ciphertext.length - 97
  demand (layoutFits m at_ n && inBuf at_.tag 32 && disjoint at_.tag 32 at_.plain n &&
    disjoint at_.tag 32 (tagAt m at_.cipher n) 32)
  wrbuf at_.cipher ciphertext
  let _ ← load 0 .be (at_.cipher + 1) 32
  let _ ← load 1 .be (at_.cipher + 33) 32
  cmdsOk [.ecmul 2 7 0]
  setSrc (bodyAt m at_.cipher)
  setDst at_.plain
  setLen n
  if mzOf (← cmdOk (.kdfx 2)) then throw .kdfExhausted
  setSrc at_.plain
  setDst at_.tag
  let _ ← cmdOk (.htag 2)
  setSrc at_.tag
  setDst (tagAt m at_.cipher n)
  setLen 32
  let st ← cmdOk .bcmp
  let plaintext ← rdbuf at_.plain n
  if eqOf st then return plaintext else throw (.tagMismatch plaintext)

/-- A mode 1 ciphertext as the mode 0 one: its last 32 bytes move to offset 65 (R255). What it answers for fewer than 97
bytes, which are no ciphertext, is the model's choice (DESIGN CHOICE, log entry 29). -/
def mode1to0 (c : Bytes) : Bytes :=
  c.take 65 ++ c.drop (c.length - 32) ++ (c.drop 65).take (c.length - 97)

/-- A mode 0 ciphertext as the mode 1 one: the bytes 65..97 move to the end (R255). What it answers for fewer than 97
bytes, which are no ciphertext, is the model's choice (DESIGN CHOICE, log entry 29). -/
def mode0to1 (c : Bytes) : Bytes := c.take 65 ++ c.drop 97 ++ (c.drop 65).take 32

end Sys2Proof.Driver
end

