-- ==== Sys2Proof/Laws/HostSequences.lean ====
section
/-! SUPPORT. What the host programs can do: an action is one step of the machine, and a demand that fails ends the sequence
before any access, so the state is as it was. -/

namespace Sys2Proof.Driver

open Sys2Proof.Machine

/-- An action whose step answers a next state ends well in that state. -/
theorem act_run {i : Input} {s t : State} (h : step { s with inputs := i :: s.inputs } = .next t) :
    act i s = (.ok (), t) := by
  unfold act
  simp only [ExceptT.mk]
  rw [h]

/-- Every error keeps the state: nothing is undone and nothing cleaned up (log entry 17). -/
theorem throw_run {α : Type} (e : HostError) (s : State) : (throw e : Program α) s = (.error e, s) := rfl

/-- A part that ends well hands its result and its state to what follows. -/
theorem bind_run {α β : Type} {x : Program α} (k : α → Program β) {s t : State} {a : α} (h : x s = (.ok a, t)) :
    (x >>= k) s = k a t := by
  show (match x s with
    | (r, u) => ExceptT.bindCont k r u) = _
  rw [h]
  rfl

/-- A failed demand ends a program, whatever was to follow it. -/
theorem demand_false_bind {α : Type} (k : Unit → Program α) (s : State) :
    (demand false >>= k) s = (.error .fatal, s) := rfl

/-- A demand that holds does nothing. -/
theorem demand_true_bind {α : Type} (k : Unit → Program α) : demand true >>= k = k () := rfl

/-- A write that leaves BUF is not begun (20_memory.md R64). -/
theorem wrbuf_outside {off : Nat} {b : Bytes} (h : inBuf off b.length = false) (s : State) :
    wrbuf off b s = (.error .fatal, s) := by
  unfold wrbuf; rw [h]; exact demand_false_bind _ s

/-- A read that leaves BUF is not begun (20_memory.md R64). -/
theorem rdbuf_outside {off n : Nat} (h : inBuf off n = false) (s : State) : rdbuf off n s = (.error .fatal, s) := by
  unfold rdbuf; rw [h]; exact demand_false_bind _ s

/-- A draw that is not n bytes long is fatal (45_host_sequences.md R240, R247, R250). -/
theorem drawScalar_wrong_length {vk : Reg} {off n : Nat} {nonce : Bytes} (h : nonce.length ≠ n) (s : State) :
    drawScalar vk off n nonce s = (.error .fatal, s) := by
  unfold drawScalar; rw [beq_eq_false_iff_ne.mpr h]; exact demand_false_bind _ s

/-- Encryption in areas that do not fit is not begun (45_host_sequences.md R250). -/
theorem encrypt_unfit {m : Mode} {at_ : EciesAreas} {plaintext : Bytes}
    (h : layoutFits m at_ plaintext.length = false) (nonces : List Bytes) (s : State) :
    encrypt m at_ plaintext nonces s = (.error .fatal, s) := by
  unfold encrypt; rw [h]; exact demand_false_bind _ s

/-- A ciphertext of fewer than 97 bytes is LengthMismatch, with no command (45_host_sequences.md R252). -/
theorem decrypt_short {m : Mode} {at_ : EciesAreas} {ciphertext : Bytes} (h : ciphertext.length < 97) (s : State) :
    decrypt m at_ ciphertext s = (.error .lengthMismatch, s) := by
  unfold decrypt; rw [if_pos h]; rfl

/-! ### Ciphertext layouts (45_host_sequences.md R255) -/

/-- A mode 1 ciphertext converted to mode 0 and back is what it was. -/
theorem mode0to1_mode1to0 {c : Bytes} (h : 97 ≤ c.length) : mode0to1 (mode1to0 c) = c := by
  have h2 : (c.drop (c.length - 32)).length = 32 := by rw [List.length_drop]; omega
  have e : (c.drop 65).take (c.length - 97) ++ c.drop (c.length - 32) = c.drop 65 := by
    rw [show c.length - 32 = 65 + (c.length - 97) by omega, ← List.drop_drop, List.take_append_drop]
  have key : ∀ x y z : Bytes, x.length = 65 → y.length = 32 →
      (x ++ y ++ z).take 65 ++ (x ++ y ++ z).drop 97 ++ ((x ++ y ++ z).drop 65).take 32 = x ++ (z ++ y) := by
    intro x y z hx hy
    have hxy : (x ++ y).length = 97 := by rw [List.length_append]; omega
    rw [List.drop_left' hxy, List.append_assoc x y z, List.take_left' hx, List.drop_left' hx, List.take_left' hy,
      List.append_assoc]
  unfold mode0to1 mode1to0
  rw [key _ _ _ (by rw [List.length_take]; omega) h2, e, List.take_append_drop]

/-! ### Boot (70_reset_and_hazards.md R315) -/

/-- A hardware start leaves the reset state (R312), but for the model's own fields. -/
theorem resetBlock_hardware (c : CurveSet) (s : State) :
    resetBlock (.hardware c) s = (.ok (), { State.reset with rdata := s.rdata, inputs := s.inputs }) := by
  show act .hardwareReset s = _
  exact act_run rfl

/-- A soft start leaves the soft-reset state (R313) with IE = 0: the curve, CURVE_CFG, LOCK and the Edwards cache are
kept. -/
theorem resetBlock_soft (s : State) : resetBlock .soft s = (.ok (), { s with ie := false }.softReset) := by
  show act (.access ⟨windowAddr 0x004#14, 32, .write 0x4⟩) s = _
  refine act_run ?_
  show Host.Outcome.next (hostAccess s ⟨windowAddr 0x004#14, 32, .write 0x4⟩) = _
  rw [hostAccess_windowAddr]
  show Host.Outcome.next (s.writeCtrl 0x4) = _
  rw [writeCtrl_softResets (by decide)]
  simp

/-- A soft start writes no curve register. -/
theorem setUpCurve_soft : setUpCurve .soft = pure () := rfl

/-- Without a pass left the boot order ends fatally. -/
theorem bootWithin_zero (start : Start) (lock ie : Bool) (s : State) :
    bootWithin start lock ie 0 s = (.error .fatal, s) := rfl

/-- A pass in which an access was refused is followed by the rest of the passes, one that was clean by none. -/
theorem bootWithin_succ {start : Start} {lock ie clean : Bool} {s t : State} (n : Nat)
    (h : bootPass start lock ie s = (.ok clean, t)) :
    bootWithin start lock ie (n + 1) s = if clean then (.ok (), t) else bootWithin start lock ie n t := by
  show (bootPass start lock ie >>= fun b => if b then pure () else bootWithin start lock ie n) s = _
  rw [bind_run _ h]
  cases clean <;> rfl

end Sys2Proof.Driver
end

