-- ==== Sys2Proof/Laws/PerInstr.lean ====
section
/-! SUPPORT. Statements about every command as syntax, one lemma per constructor. -/

namespace Sys2Proof.Laws

/-- The match and mask of a command's row in the table of 30_encoding.md R95. -/
def rowOf : Instr → Word32 × Word32
  | .nop => (0x00000000#32, 0xFFFFFFFF#32)
  | .mov _ _ => (0x00000001#32, 0xFFFF00FF#32)
  | .ldi _ _ => (0x00000002#32, 0x0000F0FF#32)
  | .ldb _ _ => (0x00000003#32, 0xFFDFF0FF#32)
  | .stb _ _ => (0x00000004#32, 0xFFDF0FFF#32)
  | .mred _ _ _ => (0x00000010#32, 0xFFEF00FF#32)
  | .mrednz _ _ _ => (0x00000011#32, 0xFFEF00FF#32)
  | .madd _ _ _ _ => (0x00000012#32, 0xFFE000FF#32)
  | .msub _ _ _ _ => (0x00000013#32, 0xFFE000FF#32)
  | .mmul _ _ _ _ => (0x00000014#32, 0xFFE000FF#32)
  | .minv _ _ _ => (0x00000015#32, 0xFFEF00FF#32)
  | .rchk _ _ => (0x00000018#32, 0xFFEF0FFF#32)
  | .cmpeq _ _ => (0x00000019#32, 0xFFF00FFF#32)
  | .ecmul _ _ _ => (0x00000020#32, 0xFFF000FF#32)
  | .ecmulb _ _ => (0x00000021#32, 0xFFFF00FF#32)
  | .ecadd _ _ _ => (0x00000022#32, 0xFFF000FF#32)
  | .toedw _ _ => (0x00000030#32, 0xFFFF00FF#32)
  | .towei _ _ => (0x00000031#32, 0xFFFF00FF#32)
  | .kdfx _ => (0x00000040#32, 0xFFFF0FFF#32)
  | .htag _ => (0x00000041#32, 0xFFFF0FFF#32)
  | .bcmp => (0x00000042#32, 0xFFFFFFFF#32)

/-- The word of a command matches the command's own row (30_encoding.md R95). -/
@[reducible] def MatchesRow.Statement (i : Instr) : Prop := encode i &&& (rowOf i).2 = (rowOf i).1


theorem MatchesRow.nop : MatchesRow.Statement .nop := by decide
theorem MatchesRow.mov (rd : Reg) (ra : Reg) : MatchesRow.Statement (.mov rd ra) := by
  refine BitVec.eq_of_getLsbD_eq fun i hi => ?_
  simp only [encode, rowOf, getLsbD_formatR, BitVec.getLsbD_and]
  interval_cases i <;> simp
theorem MatchesRow.ldi (rd : Reg) (imm : BitVec 16) : MatchesRow.Statement (.ldi rd imm) := by
  refine BitVec.eq_of_getLsbD_eq fun i hi => ?_
  simp only [encode, rowOf, getLsbD_formatI, BitVec.getLsbD_and]
  interval_cases i <;> simp
theorem MatchesRow.ldb (rd : Reg) (order : ByteOrder) : MatchesRow.Statement (.ldb rd order) := by
  refine BitVec.eq_of_getLsbD_eq fun i hi => ?_
  simp only [encode, rowOf, getLsbD_formatR, BitVec.getLsbD_and]
  interval_cases i <;> simp
theorem MatchesRow.stb (ra : Reg) (order : ByteOrder) : MatchesRow.Statement (.stb ra order) := by
  refine BitVec.eq_of_getLsbD_eq fun i hi => ?_
  simp only [encode, rowOf, getLsbD_formatR, BitVec.getLsbD_and]
  interval_cases i <;> simp
theorem MatchesRow.mred (rd : Reg) (ra : Reg) (ms : ModSel) : MatchesRow.Statement (.mred rd ra ms) := by
  refine BitVec.eq_of_getLsbD_eq fun i hi => ?_
  simp only [encode, rowOf, getLsbD_formatR, BitVec.getLsbD_and]
  interval_cases i <;> simp
theorem MatchesRow.mrednz (rd : Reg) (ra : Reg) (ms : ModSel) : MatchesRow.Statement (.mrednz rd ra ms) := by
  refine BitVec.eq_of_getLsbD_eq fun i hi => ?_
  simp only [encode, rowOf, getLsbD_formatR, BitVec.getLsbD_and]
  interval_cases i <;> simp
theorem MatchesRow.madd (rd : Reg) (ra : Reg) (rb : Reg) (ms : ModSel) : MatchesRow.Statement (.madd rd ra rb ms) := by
  refine BitVec.eq_of_getLsbD_eq fun i hi => ?_
  simp only [encode, rowOf, getLsbD_formatR, BitVec.getLsbD_and]
  interval_cases i <;> simp
theorem MatchesRow.msub (rd : Reg) (ra : Reg) (rb : Reg) (ms : ModSel) : MatchesRow.Statement (.msub rd ra rb ms) := by
  refine BitVec.eq_of_getLsbD_eq fun i hi => ?_
  simp only [encode, rowOf, getLsbD_formatR, BitVec.getLsbD_and]
  interval_cases i <;> simp
theorem MatchesRow.mmul (rd : Reg) (ra : Reg) (rb : Reg) (ms : ModSel) : MatchesRow.Statement (.mmul rd ra rb ms) := by
  refine BitVec.eq_of_getLsbD_eq fun i hi => ?_
  simp only [encode, rowOf, getLsbD_formatR, BitVec.getLsbD_and]
  interval_cases i <;> simp
theorem MatchesRow.minv (rd : Reg) (ra : Reg) (ms : ModSel) : MatchesRow.Statement (.minv rd ra ms) := by
  refine BitVec.eq_of_getLsbD_eq fun i hi => ?_
  simp only [encode, rowOf, getLsbD_formatR, BitVec.getLsbD_and]
  interval_cases i <;> simp
theorem MatchesRow.rchk (ra : Reg) (ms : ModSel) : MatchesRow.Statement (.rchk ra ms) := by
  refine BitVec.eq_of_getLsbD_eq fun i hi => ?_
  simp only [encode, rowOf, getLsbD_formatR, BitVec.getLsbD_and]
  interval_cases i <;> simp
theorem MatchesRow.cmpeq (ra : Reg) (rb : Reg) : MatchesRow.Statement (.cmpeq ra rb) := by
  refine BitVec.eq_of_getLsbD_eq fun i hi => ?_
  simp only [encode, rowOf, getLsbD_formatR, BitVec.getLsbD_and]
  interval_cases i <;> simp
theorem MatchesRow.ecmul (rd : Reg) (ra : Reg) (rb : Reg) : MatchesRow.Statement (.ecmul rd ra rb) := by
  refine BitVec.eq_of_getLsbD_eq fun i hi => ?_
  simp only [encode, rowOf, getLsbD_formatR, BitVec.getLsbD_and]
  interval_cases i <;> simp
theorem MatchesRow.ecmulb (rd : Reg) (ra : Reg) : MatchesRow.Statement (.ecmulb rd ra) := by
  refine BitVec.eq_of_getLsbD_eq fun i hi => ?_
  simp only [encode, rowOf, getLsbD_formatR, BitVec.getLsbD_and]
  interval_cases i <;> simp
theorem MatchesRow.ecadd (rd : Reg) (ra : Reg) (rb : Reg) : MatchesRow.Statement (.ecadd rd ra rb) := by
  refine BitVec.eq_of_getLsbD_eq fun i hi => ?_
  simp only [encode, rowOf, getLsbD_formatR, BitVec.getLsbD_and]
  interval_cases i <;> simp
theorem MatchesRow.toedw (rd : Reg) (ra : Reg) : MatchesRow.Statement (.toedw rd ra) := by
  refine BitVec.eq_of_getLsbD_eq fun i hi => ?_
  simp only [encode, rowOf, getLsbD_formatR, BitVec.getLsbD_and]
  interval_cases i <;> simp
theorem MatchesRow.towei (rd : Reg) (ra : Reg) : MatchesRow.Statement (.towei rd ra) := by
  refine BitVec.eq_of_getLsbD_eq fun i hi => ?_
  simp only [encode, rowOf, getLsbD_formatR, BitVec.getLsbD_and]
  interval_cases i <;> simp
theorem MatchesRow.kdfx (ra : Reg) : MatchesRow.Statement (.kdfx ra) := by
  refine BitVec.eq_of_getLsbD_eq fun i hi => ?_
  simp only [encode, rowOf, getLsbD_formatR, BitVec.getLsbD_and]
  interval_cases i <;> simp
theorem MatchesRow.htag (ra : Reg) : MatchesRow.Statement (.htag ra) := by
  refine BitVec.eq_of_getLsbD_eq fun i hi => ?_
  simp only [encode, rowOf, getLsbD_formatR, BitVec.getLsbD_and]
  interval_cases i <;> simp
theorem MatchesRow.bcmp : MatchesRow.Statement .bcmp := by decide

end Sys2Proof.Laws
end

