-- ==== Sys2Proof/Tests/Slice0.lean ====
section
/-! SUPPORT. Tests: well-formedness, decoding of written-out words, one step of every command on the spec's own examples,
host accesses, resets. Each expected value is the spec's (the rule named beside it). -/

namespace Sys2Proof.Tests

section

-- One theorem at a time: each `decide +kernel` that waits for the others holds a thread and its stack.
set_option Elab.async false

open Sys2Proof Sys2Proof.Machine

/-! ### Well-formedness: each field marked E in the table of 30_encoding.md R95, odd -/

theorem test_wf_ecmul_rd : (Instr.ecmul 1 0 2).wellFormed = false := by decide
theorem test_wf_ecmul_rb : (Instr.ecmul 2 0 3).wellFormed = false := by decide
theorem test_wf_ecmul_scalar_free : (Instr.ecmul 2 1 4).wellFormed = true := by decide
theorem test_wf_ecmulb_rd : (Instr.ecmulb 15 0).wellFormed = false := by decide
theorem test_wf_ecadd_rd : (Instr.ecadd 1 0 0).wellFormed = false := by decide
theorem test_wf_ecadd_ra : (Instr.ecadd 0 1 0).wellFormed = false := by decide
theorem test_wf_ecadd_rb : (Instr.ecadd 0 0 1).wellFormed = false := by decide
theorem test_wf_toedw_rd : (Instr.toedw 1 0).wellFormed = false := by decide
theorem test_wf_toedw_ra : (Instr.toedw 0 1).wellFormed = false := by decide
theorem test_wf_towei_rd : (Instr.towei 1 0).wellFormed = false := by decide
theorem test_wf_towei_ra : (Instr.towei 0 1).wellFormed = false := by decide
theorem test_wf_kdfx_ra : (Instr.kdfx 3).wellFormed = false := by decide
theorem test_wf_htag_ra : (Instr.htag 15).wellFormed = false := by decide

/-! ### Decoding: words written out by the formats and the table of 30_encoding.md R91, R92, R95 -/

theorem test_decode_nop : decode 0x00000000#32 = some .nop := by decide
theorem test_decode_mov : decode 0x00001501#32 = some (.mov 5 1) := by decide
theorem test_decode_ldi : decode 0xFFFF0302#32 = some (.ldi 3 0xFFFF) := by decide
theorem test_decode_ldb_be : decode 0x00000103#32 = some (.ldb 1 .be) := by decide
theorem test_decode_ldb_le : decode 0x00200103#32 = some (.ldb 1 .le) := by decide
theorem test_decode_stb : decode 0x00209004#32 = some (.stb 9 .le) := by decide
theorem test_decode_mred : decode 0x00102310#32 = some (.mred 3 2 .q) := by decide
theorem test_decode_mrednz : decode 0x00002311#32 = some (.mrednz 3 2 .p) := by decide
theorem test_decode_madd : decode 0x00187912#32 = some (.madd 9 7 8 .q) := by decide
theorem test_decode_msub : decode 0x00021013#32 = some (.msub 0 1 2 .p) := by decide
theorem test_decode_mmul : decode 0x00160714#32 = some (.mmul 7 0 6 .q) := by decide
theorem test_decode_minv : decode 0x00102A15#32 = some (.minv 10 2 .q) := by decide
theorem test_decode_rchk : decode 0x00101018#32 = some (.rchk 1 .q) := by decide
theorem test_decode_cmpeq : decode 0x0001C019#32 = some (.cmpeq 12 1) := by decide
theorem test_decode_ecmul : decode 0x00086220#32 = some (.ecmul 2 6 8) := by decide
theorem test_decode_ecmulb : decode 0x00003421#32 = some (.ecmulb 4 3) := by decide
theorem test_decode_ecadd : decode 0x00020422#32 = some (.ecadd 4 0 2) := by decide
theorem test_decode_toedw : decode 0x00000230#32 = some (.toedw 2 0) := by decide
theorem test_decode_towei : decode 0x00002031#32 = some (.towei 0 2) := by decide
theorem test_decode_kdfx : decode 0x00002040#32 = some (.kdfx 2) := by decide
theorem test_decode_htag : decode 0x00004041#32 = some (.htag 4) := by decide
theorem test_decode_bcmp : decode 0x00000042#32 = some .bcmp := by decide

/-- Odd point fields decode: their check is the command's (30_encoding.md R93). -/
theorem test_decode_odd_point : decode 0x00003040#32 = some (.kdfx 3) := by decide

/-- Reserved opcodes and non-zero unused fields are illegal (30_encoding.md R97). -/
theorem test_decode_reserved_opcode : decode 0x00000005#32 = none := by decide
theorem test_decode_opcode_ff : decode 0x000000FF#32 = none := by decide
theorem test_decode_bit_31 : decode 0x80000014#32 = none := by decide
theorem test_decode_bit_22 : decode 0x00400014#32 = none := by decide
theorem test_decode_ldi_ra : decode 0x00001002#32 = none := by decide
theorem test_decode_mov_ms : decode 0x00100001#32 = none := by decide
theorem test_decode_mred_le : decode 0x00200010#32 = none := by decide
theorem test_decode_rchk_rd : decode 0x00000118#32 = none := by decide
theorem test_decode_bcmp_ra : decode 0x00001042#32 = none := by decide

theorem test_table_word : decodeTableWord 32 0x00160714 = some (.mmul 7 0 6 .q) := by decide
theorem test_encode_ecmul : encode (.ecmul 2 6 8) = 0x00086220#32 := by decide
theorem test_asm : asm (.mmul 7 0 6 .q) = "MMUL.Q v7, v0, v6" := by decide
theorem test_pseudo_movp : pseudoMovp 2 4 = [.mov 2 4, .mov 3 5] := by decide

/-! ### One step of every command -/

/-- A check of the state a command answers. -/
def runs (i : Instr) (s : State) (f : State → Bool) : Bool :=
  match exec i s with
  | .next t => f t
  | .fault _ => false
  | .refused _ => false

/-- The state with moduli P = 17, Q = 19 and the given registers: the toy curve of the examples (A = B = 2, G = (5, 1)). -/
def toy (regs : List (Reg × Nat)) : State :=
  regs.foldl (fun s r => s.setV r.1 (toBig r.2))
    { State.reset with curve := ⟨toBig 17, toBig 19, toBig 2, toBig 2, toBig 5, toBig 1, 0, 0⟩ }

/-- The state with P = 101, E = 2, D = 5, EDW = 1 (44_coord_transform.md R223). -/
def edwards (regs : List (Reg × Nat)) : State :=
  { toy regs with edw := true, curve := ⟨toBig 101, 0, 0, 0, 0, 0, toBig 2, toBig 5⟩ }

/-- The state with bytes in BUF and the BUF_* registers set. -/
def buffered (regs : List (Reg × Nat)) (off : Nat) (bytes : Bytes) (src dst len : Nat) : State :=
  { (toy regs).bufWrite off bytes with
    bufSrc := BitVec.ofNat 16 src, bufDst := BitVec.ofNat 16 dst, bufLen := BitVec.ofNat 16 len }

/-- All 512 bits set. -/
def allOnes : Nat := 2 ^ 512 - 1

theorem test_nop_counts :
    runs .nop { State.reset with cmdcnt := 5 } (fun t => t.cmdcnt == 6 && t.done && t.errcode == .none) = true := by
  decide +kernel

theorem test_mov_sets_z : runs (.mov 5 1) (toy [(5, 3)]) (fun t => t.natV 5 == 0 && t.flags.z) = true := by
  decide +kernel

theorem test_ldi_not_sign_extended :
    runs (.ldi 3 0xFFFF) State.reset (fun t => t.natV 3 == 65535 && !t.flags.z) = true := by decide +kernel

theorem test_ldb_be :
    runs (.ldb 1 .be) (buffered [] 0 [1, 2, 3, 4] 0 0 4) (fun t => t.natV 1 == 0x01020304) = true := by decide +kernel
theorem test_ldb_le :
    runs (.ldb 1 .le) (buffered [] 0 [1, 2, 3, 4] 0 0 4) (fun t => t.natV 1 == 0x04030201) = true := by decide +kernel

theorem test_stb_one_byte :
    runs (.stb 9 .be) (buffered [(9, 4)] 0 [] 0 16 1) (fun t => t.buf.read 16 == 0x04#8) = true := by decide +kernel
theorem test_stb_does_not_fit :
    runs (.stb 9 .be) (buffered [(9, 256)] 0 [] 0 16 1) (fun t => t.errcode == .operandRange && t.buf == []) = true := by
  decide +kernel

theorem test_mred_q : runs (.mred 2 2 .q) (toy [(2, 42)]) (fun t => t.natV 2 == 4 && !t.flags.z) = true := by
  decide +kernel
theorem test_mred_all_ones : runs (.mred 2 2 .p) (toy [(2, allOnes)]) (fun t => t.natV 2 == 0 && t.flags.z) = true := by
  decide +kernel

theorem test_mrednz_zero : runs (.mrednz 2 2 .q) (toy [(2, 38)]) (fun t => t.natV 2 == 1 && !t.flags.z) = true := by
  decide +kernel
theorem test_mrednz_nonzero : runs (.mrednz 2 2 .q) (toy [(2, 42)]) (fun t => t.natV 2 == 4) = true := by
  decide +kernel

theorem test_madd_wraps :
    runs (.madd 9 7 8 .q) (toy [(7, 10), (8, 9)]) (fun t => t.natV 9 == 0 && t.flags.z) = true := by decide +kernel

theorem test_msub_never_negative :
    runs (.msub 0 1 2 .p) (toy [(1, 3), (2, 5)]) (fun t => t.natV 0 == 15) = true := by decide +kernel

theorem test_mmul : runs (.mmul 7 0 6 .q) (toy [(0, 3), (6, 7)]) (fun t => t.natV 7 == 2) = true := by decide +kernel

theorem test_minv : runs (.minv 10 2 .q) (toy [(2, 4)]) (fun t => t.natV 10 == 5) = true := by decide +kernel
theorem test_minv_not_invertible :
    runs (.minv 10 0 .p) (toy [(0, allOnes)]) (fun t => t.errcode == .notInvertible && t.natV 10 == 0) = true := by
  decide +kernel

theorem test_rchk_inside : runs (.rchk 0 .q) (toy [(0, 4)]) (fun t => t.flags.inRange) = true := by decide +kernel
theorem test_rchk_boundary : runs (.rchk 0 .q) (toy [(0, 19)]) (fun t => !t.flags.inRange) = true := by decide +kernel

theorem test_cmpeq_equal : runs (.cmpeq 12 1) (toy [(12, 7), (1, 7)]) (fun t => t.flags.eq) = true := by decide +kernel
theorem test_cmpeq_residues_differ :
    runs (.cmpeq 12 1) (toy [(12, 7), (1, 26)]) (fun t => !t.flags.eq) = true := by decide +kernel

/-! The engine and the hash of the machine are free: these tests name ENGINE_REF and TOYHASH instead (40_curve_engine.md
R124 to R127, 43_kdf_ecies.md R195, R196, R199). -/

theorem test_ecmul_10G :
    (fun t : State => (t.natV 2, t.natV 3)) ((toy [(6, 10), (8, 5), (9, 1)]).complete
      (ecmulResult engineRef 2 6 8 (toy [(6, 10), (8, 5), (9, 1)]))) = (7, 11) := by decide +kernel

theorem test_ecmulb_10G :
    (fun t : State => (t.natV 4, t.natV 5)) ((toy [(3, 10)]).complete (ecmulbResult engineRef 4 3 (toy [(3, 10)])))
      = (7, 11) := by decide +kernel
theorem test_ecmulb_order_fails :
    ((toy [(3, 19)]).complete (ecmulbResult engineRef 4 3 (toy [(3, 19)]))).errcode = .engineFail := by decide +kernel

theorem test_ecadd_10G :
    (fun t : State => (t.natV 4, t.natV 5)) ((toy [(0, 5), (1, 1), (2, 7), (3, 6)]).complete
      (ecaddResult engineRef 4 0 2 (toy [(0, 5), (1, 1), (2, 7), (3, 6)]))) = (7, 11) := by decide +kernel
theorem test_ecadd_opposite_fails :
    ((toy [(0, 5), (1, 1), (2, 5), (3, 16)]).complete
      (ecaddResult engineRef 4 0 2 (toy [(0, 5), (1, 1), (2, 5), (3, 16)]))).errcode = .engineFail := by decide +kernel

theorem test_ecmul_odd_pair :
    runs (.ecmul 2 6 9) (toy []) (fun t => t.errcode == .illegalOperand && t.v == (toy []).v) = true := by decide +kernel

theorem test_toedw :
    runs (.toedw 2 0) (edwards [(0, 43), (1, 25)])
      (fun t => t.natV 2 == 1 && t.natV 3 == 50 && t.cache == ⟨true, toBig 75, toBig 18⟩) = true := by decide +kernel
theorem test_toedw_not_invertible :
    runs (.toedw 2 0) (edwards [(0, 44), (1, 7)]) (fun t => t.errcode == .notInvertible && !t.cache.edv) = true := by
  decide +kernel

theorem test_towei :
    runs (.towei 0 2) (edwards [(2, 1), (3, 50)]) (fun t => t.natV 0 == 43 && t.natV 1 == 25) = true := by
  decide +kernel
theorem test_towei_without_edwards_form :
    runs (.towei 0 2) (toy [(2, 1), (3, 50)]) (fun t => t.errcode == .unsupportedCurveForm) = true := by decide +kernel

theorem test_kdfx :
    (fun t : State => (t.bufRead 97 2, t.flags.mz))
      ((buffered [(2, 16), (3, 13)] 0x200 [0x48, 0x69] 0x200 97 2).complete
        (kdfxResult toyHash 2 (buffered [(2, 16), (3, 13)] 0x200 [0x48, 0x69] 0x200 97 2)))
      = ([0x2A, 0x0A], false) := by decide +kernel
theorem test_kdfx_zero_mask :
    ((buffered [(2, 187)] 0 [] 0 0 1).complete (kdfxResult toyHash 2 (buffered [(2, 187)] 0 [] 0 0 1))).flags.mz
      = true := by decide +kernel

theorem test_htag :
    (((buffered [(2, 16), (3, 13)] 0x200 [0x48, 0x69] 0x200 65 2).complete
      (htagResult toyHash 2 (buffered [(2, 16), (3, 13)] 0x200 [0x48, 0x69] 0x200 65 2))).bufRead 65 3)
      = [0x10, 0x11, 0x12] := by decide +kernel

theorem test_bcmp_equal : runs .bcmp (buffered [] 65 [1, 2, 1, 2] 65 67 2) (fun t => t.flags.eq) = true := by
  decide +kernel
theorem test_bcmp_one_byte : runs .bcmp (buffered [] 65 [1, 2, 1, 3] 65 67 2) (fun t => !t.flags.eq) = true := by
  decide +kernel

/-! ### The window, acceptance, resets -/

theorem test_read_id : (windowAccess State.reset 0x000 32 .read).rdata = 0x47450100#32 := by decide +kernel
theorem test_psize_of_19 : (windowAccess (toy []) 0x020 32 .read).rdata = 1#32 := by decide +kernel
theorem test_narrow_read_refused :
    (fun t : State => (t.rdata, t.accerr)) (windowAccess { State.reset with rdata := 7 } 0x000 16 .read)
      = (0#32, true) := by decide +kernel
theorem test_write_to_id_refused : (windowAccess State.reset 0x000 32 (.write 1)).accerr = true := by decide +kernel
theorem test_busy_read_of_v_refused :
    (fun t : State => (t.rdata, t.accerr)) (windowAccess { State.reset with seq := .busy 0 } 0x400 32 .read)
      = (0#32, true) := by decide +kernel
theorem test_locked_write_refused :
    (windowAccess { State.reset with lock := true } 0x100 32 (.write 5)).curve.p = 0 := by decide +kernel
theorem test_word_1_of_p :
    (windowAccess (toy []) 0x104 32 (.write 1)).curve.p.toNat = 17 + 2 ^ 32 := by decide +kernel
theorem test_buf_lanes :
    (windowAccess State.reset 0x2004 32 (.write 0x04030201)).bufRead 4 4 = [1, 2, 3, 4] := by decide +kernel
theorem test_write_p_drops_cache :
    (windowAccess { State.reset with cache := ⟨true, 1, 2⟩ } 0x100 32 (.write 5)).cache = ⟨false, 1, 2⟩ := by
  decide +kernel
theorem test_write_q_keeps_cache :
    (windowAccess { State.reset with cache := ⟨true, 1, 2⟩ } 0x140 32 (.write 5)).cache = ⟨true, 1, 2⟩ := by
  decide +kernel
theorem test_lock_is_set_only :
    (windowAccess { State.reset with lock := true } 0x004 32 (.write 0)).lock = true := by decide +kernel
theorem test_status_w1c :
    (fun t : State => (t.done, t.accerr))
      (windowAccess { State.reset with done := true, accerr := true } 0x008 32 (.write 2)) = (false, true) := by
  decide +kernel
theorem test_soft_reset_keeps_curve :
    (fun t : State => (t.curve.q.toNat, t.natV 3, t.seq))
      (windowAccess { toy [(3, 5)] with seq := .busy 0 } 0x004 32 (.write 4)) = (19, 0, .idle) := by decide +kernel
theorem test_illegal_word_completes :
    runWord 0x00000005#32 State.reset = .next (State.reset.finish .illegalCmd) := rfl

/-- The word of `LDI v3, #10` as the first command after reset. -/
theorem test_first_command :
    (match step (State.reset.withFetchWord 32 0x000A0302) with
      | .next t => t.natV 3 == 10 && t.done && t.seq == .idle
      | .fault _ => false
      | .refused _ => false) = true := by decide +kernel

/-! ### Ends of the host programs: each is fatal before any access, so the state is as it was -/

theorem test_wrbuf_past_the_end :
    Driver.wrbuf 8191 [1, 2] State.reset = (.error .fatal, State.reset) := rfl
theorem test_short_draw_is_fatal :
    Driver.drawScalar 3 0x40 32 [1] State.reset = (.error .fatal, State.reset) := rfl
theorem test_encrypt_one_byte_too_long (m : Bytes) (h : m.length = 8096) (s : State) :
    Driver.encrypt .mode0 ⟨97, 0, 0, 0⟩ m [] s = (.error .fatal, s) :=
  Driver.encrypt_unfit (by rw [h]; decide +kernel) [] s
theorem test_short_ciphertext (s : State) :
    Driver.decrypt .mode0 ⟨97, 0, 0, 0⟩ (List.replicate 96 0x00#8) s = (.error .lengthMismatch, s) :=
  Driver.decrypt_short (by rw [List.length_replicate]; decide) s
/-- In place 97 + n = 8192 fits, and separate areas need n at most 4047 (45_host_sequences.md R250). -/
theorem test_layout_bounds :
    Driver.layoutFits .mode0 ⟨97, 0, 0, 0⟩ 8095 ∧ ¬ Driver.layoutFits .mode0 ⟨97, 0, 0, 0⟩ 8096 ∧
      Driver.layoutFits .mode1 ⟨4145, 1, 0, 0⟩ 4047 ∧ ¬ Driver.layoutFits .mode1 ⟨4145, 1, 0, 0⟩ 4048 := by
  decide +kernel

/-! ### Witnesses: for every obligation with hypotheses, operands and states that meet all of them together -/

open Sys2Proof.Claims

theorem witness_DecodedWordIsItsEncoding : decode 0x00160714#32 = some (.mmul 7 0 6 .q) := by decide

theorem witness_RowIsDecodedExactlyByMaskAndMatch : 0 < rows.length ∧ 20 < rows.length := by decide

/-- A word of each clause: one that decodes and one that does not. -/
theorem witness_NoWordMatchesTwoRows :
    decode 0x00160714#32 = some (.mmul 7 0 6 .q) ∧ (0x00000014#32, 0xFFE000FF#32) ∈ rows ∧
      0x00160714#32 &&& 0xFFE000FF#32 = 0x00000014#32 ∧ decode 0x00400014#32 = none := by decide

/-- A state in which a command is in flight and nothing else is to come. -/
def inFlight (i : Instr) : State := { State.reset with seq := .busy (encode i) }

theorem witness_CompletionStepRunsDecodedCommand :
    (inFlight .bcmp).seq = .busy 0x00000042#32 ∧ decode 0x00000042#32 = some .bcmp ∧ (inFlight .bcmp).inputs = [] ∧
      { inFlight .bcmp with inputs := [.completion] }.inputs = .completion :: [] := by
  refine ⟨by decide, by decide, rfl, rfl⟩

/-- A state with one input to come. -/
def given (s : State) (i : Input) : State := { s with inputs := [i] }

/-- A 32-bit write to an offset of the window. -/
def write32 (off : BitVec 14) (w : Word32) : Input := .access ⟨windowAddr off, 32, .write w⟩

/-- A 32-bit read of an offset of the window. -/
def read32 (off : BitVec 14) : Input := .access ⟨windowAddr off, 32, .read⟩

/-- An idle state with a word about to be written to CMD and its completion after it. -/
def commanded (c : Word32) : State := { State.reset with inputs := [write32 0x00C#14 c, .completion] }

/-- A word of each clause: one that decodes and one that does not. -/
theorem witness_WrittenCommandIsAcceptedThenRun :
    (∀ c, (commanded c).seq = .idle ∧
      (commanded c).inputs = .access ⟨windowAddr 0x00C#14, 32, .write c⟩ :: .completion :: []) ∧
      decode 0x00000042#32 = some .bcmp ∧ decode 0x00000005#32 = none :=
  ⟨fun _ => ⟨rfl, rfl⟩, by decide, by decide⟩

/-- Opcode 0x05, which no row has, in flight; what comes next is the parameter. -/
def illegalInFlight (inputs : List Input) : State :=
  { State.reset with seq := .busy 0x00000005#32, inputs := inputs }

theorem witness_IllegalWordOnlyReportsIllegalCmd :
    (∀ inputs, (illegalInFlight inputs).seq = .busy 0x00000005#32) ∧ (illegalInFlight []).inputs = [] ∧
      (illegalInFlight [.completion]).inputs = .completion :: [] ∧
      ∀ r : Word32 × Word32, r ∈ rows → 0x00000005#32 &&& r.2 ≠ r.1 :=
  ⟨fun _ => rfl, rfl, rfl, fun r hr => by
    have h : rows.all (fun r => 0x00000005#32 &&& r.2 != r.1) = true := by decide +kernel
    exact bne_iff_ne.mp (List.all_eq_true.mp h r hr)⟩

theorem witness_FailedCommandChangesOnlyCompletionFields :
    ∃ t, runWord 0x00000005#32 State.reset = .next t ∧ t.errcode ≠ .none := ⟨_, rfl, by decide⟩

/-- Clauses of LDB at the boundaries: 64 and 65 bytes, a region that ends at 8192 and one that ends at 8193. -/
theorem witness_LdbLoadsIntegerOrReportsLength :
    ((64 ≤ 64 ∧ Legal 8128 64) ∧ Legal 8192 0) ∧ ¬ (65 ≤ 64 ∧ Legal 0 65) ∧ ¬ (64 ≤ 64 ∧ Legal 8129 64) := by decide +kernel

theorem reset_buf_wf : Memory.wf State.reset.buf := ⟨List.Pairwise.nil, by simp [State.reset]⟩

/-- Clauses of STB at the boundaries: the longest region and value, one byte more, one more than the value. -/
theorem witness_StbStoresFixedWidthOrRefuses :
    Memory.wf State.reset.buf ∧ ¬ (64 < 64 ∨ ¬ Legal 8128 64) ∧ 64 < 65 ∧ ¬ Legal 8129 64 ∧
      2 ^ (8 * 1) ≤ 256 ∧ ¬ 2 ^ (8 * 1) ≤ 255 ∧ ¬ 2 ^ (8 * 0) ≤ 0 := by
  refine ⟨reset_buf_wf, by decide +kernel⟩

theorem witness_StbLdbFamilyLaws :
    ∃ s : State, Memory.wf s.buf ∧ s.bufLen.toNat ≤ 64 ∧ Legal s.bufDst.toNat s.bufLen.toNat ∧
      s.v[(9 : Reg)].toNat < 2 ^ (8 * s.bufLen.toNat) ∧ s.bufSrc = s.bufDst :=
  ⟨buffered [(9, 255)] 0 [] 8191 8191 1, by decide +kernel, by decide +kernel, by decide +kernel, by decide +kernel,
    by decide +kernel⟩

/-- Of the statements on commands with a modulus, and of BAD_MODULUS. -/
theorem witness_ModularResultsAreResidues : modulusOf .p (toy []) ≠ 0 ∧ modulusOf .q (toy []) ≠ 0 := by
  decide +kernel
theorem witness_MrednzReplacesZeroByOne : modulusOf .q (toy []) ≠ 0 ∧ modulusOf .p { toy [] with curve :=
    ⟨toBig 1, 0, 0, 0, 0, 0, 0, 0⟩ } ≠ 0 := by decide +kernel
theorem witness_MinvWritesInverseOrReportsNotInvertible :
    modulusOf .q (toy [(2, 4)]) ≠ 0 ∧ Nat.Coprime (toy [(2, 4)]).v[(2 : Reg)].toNat (modulusOf .q (toy [(2, 4)])) ∧
      ¬ Nat.Coprime (toy [(2, 19)]).v[(2 : Reg)].toNat (modulusOf .q (toy [(2, 19)])) := by decide +kernel
theorem witness_RchkTestsRange : modulusOf .q (toy []) ≠ 0 := by decide +kernel
theorem witness_ZeroModulusIsBadModulus : modulusOf .p State.reset = 0 ∧ modulusOf .q State.reset = 0 := by
  decide +kernel

theorem witness_EcmulWritesEngineAnswer : (14 : Reg).val % 2 = 0 ∧ (0 : Reg).val % 2 = 0 := by decide
theorem witness_EcmulbWritesEngineAnswerForBasePoint : (14 : Reg).val % 2 = 0 := by decide
theorem witness_EcaddWritesEngineAnswer : (14 : Reg).val % 2 = 0 ∧ (0 : Reg).val % 2 = 0 ∧ (2 : Reg).val % 2 = 0 := by
  decide

theorem prime_five : Fact (Nat.Prime 5) := ⟨by norm_num⟩

/-- The curve y^2 = x^3 + x over the field of 5 with the point (0, 0) of order 2. -/
def smallCurve : Config.Curve := ⟨5, 2, 1, 0, 0, 0⟩

/-- (0, 0) lies on a curve with B = 0 and is not singular where A is not 0. -/
theorem nonsingular_zero (c : Config.Curve) (ha : (c.a : ZMod c.p) ≠ 0) (hb : (c.b : ZMod c.p) = 0) :
    (Safety.weierstrass c).Nonsingular 0 0 := by
  rw [WeierstrassCurve.Affine.nonsingular_iff, WeierstrassCurve.Affine.equation_iff]
  simp [Safety.weierstrass, hb, ha.symm]

theorem smallCurve_nonsingular : (Safety.weierstrass smallCurve).Nonsingular 0 0 :=
  nonsingular_zero smallCurve (show ((1 : Nat) : ZMod 5) ≠ 0 by decide) (show ((0 : Nat) : ZMod 5) = 0 by decide)

theorem witness_ReferenceEngineMeetsContract :
    ∃ _ : Fact smallCurve.p.Prime, Safety.GoodCurve smallCurve ∧
      Safety.answerOf (WeierstrassCurve.Affine.Point.some 0 0 smallCurve_nonsingular) = .ok ⟨toBig 0, toBig 0⟩ := by
  have hf : Fact smallCurve.p.Prime := prime_five
  have hn : (Safety.weierstrass smallCurve).Nonsingular ((smallCurve.gx : ZMod smallCurve.p))
      ((smallCurve.gy : ZMod smallCurve.p)) := by
    have h0 : ((smallCurve.gx : ZMod smallCurve.p)) = 0 := Nat.cast_zero
    have h1 : ((smallCurve.gy : ZMod smallCurve.p)) = 0 := Nat.cast_zero
    rw [h0, h1]; exact smallCurve_nonsingular
  refine ⟨hf, ⟨hf, by decide, ?_, ?_, by norm_num [smallCurve], hn, ?_⟩, rfl⟩
  · exact lt_of_lt_of_le (by decide : smallCurve.p < 2 ^ 3) (pow_le_pow_right₀ (by decide) (by omega))
  · exact (by decide : (4 * ((1 : Nat) : ZMod 5) ^ 3 + 27 * ((0 : Nat) : ZMod 5) ^ 2) ≠ 0)
  · have h2 : Fact (Nat.Prime smallCurve.q) := ⟨by norm_num [smallCurve]⟩
    refine addOrderOf_eq_prime ?_ (by simp)
    show 2 • _ = _
    rw [two_smul]
    refine WeierstrassCurve.Affine.Point.add_of_Y_eq rfl ?_
    have h0 : (smallCurve.gy : ZMod smallCurve.p) = 0 := Nat.cast_zero
    simp [WeierstrassCurve.Affine.negY, Safety.weierstrass, h0]

/-- A state with the cache valid: edS = 75, edT = 18, the constants of the example curve (44_coord_transform.md R223). -/
def cached (s : State) : State := { s with cache := ⟨true, toBig 75, toBig 18⟩ }

/-- (x, y) = (43, 25) in V0, V1 and (u, v) = (1, 50) in V2, V3, with the cache not valid. -/
def mapped : State := edwards [(0, 43), (1, 25), (2, 1), (3, 50)]

/-- What the statements on the transforms ask of a state: EDW = 1, P = 101, the constants 75 and 18. -/
def Settled (s : State) : Prop :=
  s.edw = true ∧ s.curve.p.toNat ≠ 0 ∧ (s.cache.edv = false → Nat.Coprime 6 s.curve.p.toNat) ∧
    TransformConstants s 75 18

theorem mapped_settled : Settled mapped ∧ Settled (cached mapped) := by
  unfold Settled TransformConstants; decide +kernel

theorem witness_ToedwSolvesTheMap :
    (2 : Reg).val % 2 = 0 ∧ (0 : Reg).val % 2 = 0 ∧ Settled mapped ∧ Settled (cached mapped) ∧
      Nat.Coprime mapped.v[(1 : Reg)].toNat mapped.curve.p.toNat ∧
      Int.gcd ((mapped.v[(0 : Reg)].toNat : Int) - 18 + 75) mapped.curve.p.toNat = 1 :=
  ⟨by decide, by decide, mapped_settled.1, mapped_settled.2, by decide +kernel, by decide +kernel⟩

theorem witness_ToweiSolvesTheInverseMap :
    (0 : Reg).val % 2 = 0 ∧ (2 : Reg).val % 2 = 0 ∧ Settled mapped ∧ Settled (cached mapped) ∧
      Nat.Coprime mapped.v[(2 : Reg)].toNat mapped.curve.p.toNat ∧
      Int.gcd (1 - (mapped.v[(3 : Reg)].toNat : Int)) mapped.curve.p.toNat = 1 :=
  ⟨by decide, by decide, mapped_settled.1, mapped_settled.2, by decide +kernel, by decide +kernel⟩

/-- The clauses of TransformChecksInOrder: EDW = 0, P = 0, P divisible by 2 or by 3 with no valid cache, and none. -/
theorem witness_TransformChecksInOrder :
    (toy []).edw = false ∧ State.reset.curve.p.toNat = 0 ∧ 2 ∣ (100 : Nat) ∧ 3 ∣ (99 : Nat) ∧
      ¬ (2 ∣ mapped.curve.p.toNat ∨ 3 ∣ mapped.curve.p.toNat) := by decide +kernel

/-- Each cause of NOT_INVERTIBLE: y = 0, x - edT + edS = 0, u = 0, v = 1. -/
theorem witness_TransformReportsNotInvertible :
    (Settled (edwards [(0, 43)]) ∧
      ¬ Nat.Coprime (edwards [(0, 43)]).v[(1 : Reg)].toNat (edwards [(0, 43)]).curve.p.toNat) ∧
    (Settled (edwards [(0, 44)]) ∧
      Int.gcd (((edwards [(0, 44)]).v[(0 : Reg)].toNat : Int) - 18 + 75) (edwards [(0, 44)]).curve.p.toNat ≠ 1) ∧
    (Settled (edwards [(3, 50)]) ∧
      ¬ Nat.Coprime (edwards [(3, 50)]).v[(2 : Reg)].toNat (edwards [(3, 50)]).curve.p.toNat) ∧
    (Settled (edwards [(3, 1)]) ∧
      Int.gcd (1 - ((edwards [(3, 1)]).v[(3 : Reg)].toNat : Int)) (edwards [(3, 1)]).curve.p.toNat ≠ 1) := by
  unfold Settled TransformConstants; decide +kernel

theorem mapped_coherent : Safety.CacheCoherent mapped ∧ Safety.CacheCoherent (cached mapped) := by
  refine ⟨fun h => absurd h (by decide +kernel), fun _ => ⟨by decide +kernel, ?_⟩⟩
  exact (by decide +kernel : (edConsts (cached mapped).curve.p.toNat (cached mapped).curve.e.toNat
    (cached mapped).curve.d.toNat).toOption = some ((cached mapped).cache.eds.toNat, (cached mapped).cache.edt.toNat))
    |> fun h => by
      cases hc : edConsts (cached mapped).curve.p.toNat (cached mapped).curve.e.toNat (cached mapped).curve.d.toNat with
      | error c => rw [hc] at h; cases h
      | ok p => rw [hc] at h; exact congrArg Except.ok (Option.some.inj h)

theorem witness_CacheNeverChangesTransformResult : ∃ s : State, Safety.CacheCoherent s ∧ s.cache.edv = true :=
  ⟨cached mapped, mapped_coherent.2, rfl⟩

theorem prime_101 : mapped.curve.p.toNat.Prime := by
  rw [show mapped.curve.p.toNat = 101 by decide +kernel]; norm_num

theorem witness_ToweiUndoesToedw :
    mapped.edw = true ∧ mapped.curve.p.toNat.Prime ∧ 3 < mapped.curve.p.toNat ∧ Safety.CacheCoherent mapped ∧
      TransformConstants mapped 75 18 ∧ ¬ (mapped.curve.p.toNat : Int) ∣ mapped.v[(1 : Reg)].toNat ∧
      ¬ (mapped.curve.p.toNat : Int) ∣ (mapped.v[(0 : Reg)].toNat : Int) - 18 ∧
      ¬ (mapped.curve.p.toNat : Int) ∣ (mapped.v[(0 : Reg)].toNat : Int) - 18 + 75 :=
  ⟨rfl, prime_101, by decide +kernel, mapped_coherent.1, mapped_settled.1.2.2.2, by decide +kernel, by decide +kernel,
    by decide +kernel⟩

theorem witness_ToedwUndoesTowei :
    mapped.edw = true ∧ mapped.curve.p.toNat.Prime ∧ 3 < mapped.curve.p.toNat ∧ Safety.CacheCoherent mapped ∧
      TransformConstants mapped 75 18 ∧ ¬ (mapped.curve.p.toNat : Int) ∣ mapped.v[(2 : Reg)].toNat ∧
      ¬ (mapped.curve.p.toNat : Int) ∣ (mapped.v[(3 : Reg)].toNat : Int) - 1 ∧
      ¬ (mapped.curve.p.toNat : Int) ∣ (mapped.v[(3 : Reg)].toNat : Int) + 1 :=
  ⟨rfl, prime_101, by decide +kernel, mapped_coherent.1, mapped_settled.1.2.2.2, by decide +kernel, by decide +kernel,
    by decide +kernel⟩

/-- The example with D = E = 2: edS = 0, edT = 68 (6 * 68 = 4 mod 101). -/
def flat : State := { mapped with curve := ⟨toBig 101, 0, 0, 0, 0, 0, toBig 2, toBig 2⟩ }

theorem witness_EqualCoefficientsMakeToedwOneWay :
    flat.edw = true ∧ flat.curve.p.toNat.Prime ∧ 3 < flat.curve.p.toNat ∧ TransformConstants flat 0 68 ∧
      runs (.toedw 2 0) flat (fun t => t.errcode == .none) = true := by
  refine ⟨by decide +kernel, prime_101, by decide +kernel, ?_, by decide +kernel⟩
  unfold TransformConstants; decide +kernel

/-- The clauses of KDFX and HTAG: odd register, a region one byte too long, a coordinate of 257 bits, and none. -/
theorem witness_KdfxXorsMaskOverRegion :
    Memory.wf State.reset.buf ∧ (3 : Reg).val % 2 = 1 ∧ ¬ Legal 8191 2 ∧ Legal 8190 2 ∧
      2 ^ 256 ≤ (toy [(2, 2 ^ 256)]).v[(2 : Reg)].toNat ∧ ¬ 2 ^ 256 ≤ (toy [(2, 2 ^ 256 - 1)]).v[(2 : Reg)].toNat :=
  ⟨reset_buf_wf, by decide +kernel⟩
theorem witness_HtagStoresTag :
    Memory.wf State.reset.buf ∧ (3 : Reg).val % 2 = 1 ∧ ¬ Legal 8161 32 ∧ Legal 8160 32 :=
  ⟨reset_buf_wf, by decide +kernel⟩
theorem witness_BcmpComparesRegions : Legal 8160 32 ∧ ¬ Legal 8161 32 := by decide +kernel
theorem witness_ShorterMaskIsPrefix : (33 : Nat) ≤ 64 := by decide

theorem witness_KdfxTwiceRestoresBuffer :
    ∃ s : State, Memory.wf s.buf ∧ s.bufSrc = s.bufDst ∧ Legal s.bufSrc.toNat s.bufLen.toNat ∧
      s.v[(2 : Reg)].toNat < 2 ^ 256 ∧ s.v[(3 : Reg)].toNat < 2 ^ 256 :=
  ⟨buffered [(2, 16), (3, 13)] 8190 [0x48, 0x69] 8190 8190 2, by decide +kernel, by decide +kernel, by decide +kernel,
    by decide +kernel, by decide +kernel⟩

/-- An input is the next one of a state: the premise of every statement about an access or a reset. -/
theorem given_inputs (s : State) (i : Input) : (given s i).inputs = i :: [] := rfl

/-- Each refused kind at the ends of its ranges, and accesses just outside them that are not refused. -/
theorem witness_RefusedAccessesAreExactlyTheListed :
    Refused State.reset 0x000 16 .read ∧ Refused State.reset 0x002 32 .read ∧
    (∀ off ∈ [0x028, 0x0FC, 0x380, 0x3FC, 0x800, 0x1FFC], Refused State.reset off 32 .read) ∧
    (∀ off ∈ [0x000, 0x020, 0x024, 0x300, 0x37C], Refused State.reset off 32 (.write 0)) ∧
    (∀ off ∈ [0x00C, 0x010, 0x01C, 0x100, 0x3FFC], Refused (inFlight .nop) off 32 (.write 0)) ∧
    (∀ off ∈ [0x01C, 0x100, 0x2FC], Refused { State.reset with lock := true } off 32 (.write 0)) ∧
    (∀ off ∈ [0x000, 0x004, 0x008, 0x00C, 0x020, 0x024], ¬ Refused (inFlight .nop) off 32 .read) ∧
    ∀ off ∈ [0x004, 0x008, 0x018, 0x400, 0x7FC, 0x2000], ¬ Refused { State.reset with lock := true } off 32 (.write 0) := by
  refine ⟨.inl (.inl (by decide)), .inl (.inr (by decide)), ?_, ?_, ?_, ?_, ?_, ?_⟩ <;> intro off hoff <;>
    fin_cases hoff <;> simp [Refused, isWrite, inFlight, State.reset]

theorem witness_AcceptedReadAnswersRegisterMap :
    ∀ off ∈ [0x000, 0x024, 0x100, 0x37C, 0x400, 0x7FC, 0x2000, 0x3FFC], ¬ Refused State.reset off 32 .read := by
  intro off hoff; fin_cases hoff <;> simp [Refused, isWrite, State.reset]

theorem witness_AcceptedReadOfGivenState :
    (given State.reset (read32 0x3FFC#14)).inputs = .access ⟨windowAddr 0x3FFC#14, 32, .read⟩ :: [] ∧
      ¬ Refused (given State.reset (read32 0x3FFC#14)) (0x3FFC#14).toNat 32 .read :=
  ⟨rfl, by simp [Refused, isWrite, given, State.reset]⟩

/-- The last word of the last register of each kind, and of BUF. -/
theorem witness_WordWriteToVReplacesOneWord :
    ∃ s : State, s.seq = .idle ∧ s.inputs =
      .access ⟨windowAddr (BitVec.ofNat 14 (0x400 + 64 * (15 : Reg).val + 4 * (15 : Fin 16).val)), 32, .write 1⟩ :: [] ∧
      (BitVec.ofNat 14 (0x400 + 64 * (15 : Reg).val + 4 * (15 : Fin 16).val)).toNat = 0x7FC :=
  ⟨given State.reset (write32 0x7FC#14 1), rfl, rfl, by decide +kernel⟩
theorem witness_CurveWriteReplacesWordAndDropsCache :
    ∃ s : State, s.seq = .idle ∧ s.lock = false ∧ s.inputs =
      .access ⟨windowAddr (BitVec.ofNat 14 (0x100 + 64 * (7 : Fin 8).val + 4 * (15 : Fin 16).val)), 32, .write 1⟩ :: [] :=
  ⟨given State.reset (write32 0x2FC#14 1), rfl, rfl, rfl⟩
theorem witness_WordWriteToBufReplacesFourBytes :
    ∃ s : State, Memory.wf s.buf ∧ s.seq = .idle ∧ s.inputs =
      .access ⟨windowAddr (BitVec.ofNat 14 (0x2000 + 4 * (2047 : Fin 2048).val)), 32, .write 1⟩ :: [] :=
  ⟨given State.reset (write32 0x3FFC#14 1), reset_buf_wf, rfl, rfl⟩
theorem witness_CtrlWriteSetsFieldsThenSoftResets :
    (given (inFlight .nop) (write32 0x004#14 4)).inputs = .access ⟨windowAddr 0x004#14, 32, .write 4⟩ :: [] ∧
      (4#32).getLsbD 2 = true ∧ (3#32).getLsbD 2 = false := ⟨rfl, by decide, by decide⟩
theorem witness_StatusWriteClearsDoneAndAccerr :
    (given State.reset (write32 0x008#14 10)).inputs = .access ⟨windowAddr 0x008#14, 32, .write 10⟩ :: [] := rfl
theorem witness_BufRegisterWritesStoreLowHalf :
    State.reset.seq = .idle ∧
      (given State.reset (write32 0x018#14 0xFFFF)).inputs = .access ⟨windowAddr 0x018#14, 32, .write 0xFFFF⟩ :: [] :=
  ⟨rfl, rfl⟩
theorem witness_CurveCfgWriteSetsEdwAndDropsCache :
    State.reset.seq = .idle ∧ State.reset.lock = false ∧
      (given State.reset (write32 0x01C#14 1)).inputs = .access ⟨windowAddr 0x01C#14, 32, .write 1⟩ :: [] := ⟨rfl, rfl, rfl⟩

theorem witness_HardwareResetRestoresResetState :
    (given (inFlight .nop) .hardwareReset).inputs = .hardwareReset :: [] := rfl

theorem witness_LockedCurveChangesOnlyByHardwareReset :
    ∃ s t : State, s.lock = true ∧ step s = .next t ∧ ∀ rest, s.inputs ≠ .hardwareReset :: rest :=
  ⟨{ State.reset with lock := true }, _, rfl, rfl, fun _ h => by cases h⟩

/-- A write to CTRL without bit 2 is no soft reset. -/
theorem write_ctrl_not_soft_reset (w : Word32) (h : w.getLsbD 2 = false) :
    ¬ SoftResets ⟨windowAddr 0x004#14, 32, .write w⟩ := by
  rintro ⟨w', hw, hb⟩
  injection hw with _ _ hw
  injection hw with hw
  rw [← hw, h] at hb
  cases hb

/-- An access of each clause: a write to CTRL with bit 2 set, and one with every other bit set. -/
theorem witness_BusyAccessKeepsWhatTheCommandReads :
    (∀ a, (given (inFlight .nop) (.access a)).seq = .busy (encode .nop) ∧
      (given (inFlight .nop) (.access a)).inputs = .access a :: [] ∧
      ∃ t, step (given (inFlight .nop) (.access a)) = .next t) ∧
    SoftResets ⟨windowAddr 0x004#14, 32, .write 4⟩ ∧ ¬ SoftResets ⟨windowAddr 0x004#14, 32, .write 0xFFFFFFFB⟩ :=
  ⟨fun _ => ⟨rfl, rfl, _, rfl⟩, ⟨4, rfl, by decide⟩, write_ctrl_not_soft_reset _ (by decide)⟩

/-- A step of each clause: a completion in either form, a reset of either kind, and neither. -/
theorem witness_CmdcntCountsCompletions :
    Completing (inFlight .nop) ∧ Completing (given (inFlight .nop) .completion) ∧
    Resetting (given (inFlight .nop) .hardwareReset) ∧ Resetting (given (inFlight .nop) (write32 0x004#14 4)) ∧
    (¬ Completing State.reset ∧ ¬ Resetting State.reset) ∧
    (¬ Completing (given (inFlight .nop) (write32 0x004#14 1)) ∧
      ¬ Resetting (given (inFlight .nop) (write32 0x004#14 1))) := by
  refine ⟨⟨⟨_, rfl⟩, .inl rfl⟩, ⟨⟨_, rfl⟩, .inr ⟨_, rfl⟩⟩, .inl ⟨_, rfl⟩, .inr ⟨_, _, rfl, 4, rfl, by decide⟩,
    ⟨?_, ?_⟩, ?_, ?_⟩
  · rintro ⟨⟨c, h⟩, _⟩; cases h
  · rintro (⟨_, h⟩ | ⟨_, _, h, _⟩) <;> cases h
  · rintro ⟨_, h | ⟨_, h⟩⟩ <;> cases h
  · rintro (⟨_, h⟩ | ⟨_, _, h, hs⟩) <;> cases h
    exact write_ctrl_not_soft_reset 1 (by decide) hs

theorem coherent_with_buf (s : State) (m : Memory) (h : Safety.CacheCoherent s) :
    Safety.CacheCoherent { s with buf := m } := h

theorem witness_EveryStepKeepsTheInvariant :
    ∃ s t : State, Safety.Inv s ∧ step s = .next t ∧ s.cache.edv = true ∧ s.buf ≠ [] := by
  refine ⟨{ cached mapped with buf := [(8191, 1)] }, _, ⟨?_, coherent_with_buf _ _ mapped_coherent.2, fun h => ?_,
    fun _ => rfl⟩, rfl, rfl, List.cons_ne_nil _ _⟩
  · decide +kernel
  · rfl

theorem witness_InterruptFollowsCompletion :
    (given State.reset (write32 0x00C#14 0)).seq = .idle ∧ (2#32).getLsbD 1 = true ∧ (0#32).getLsbD 0 = false ∧
      (5#32).getLsbD 2 = true ∧ Refused State.reset 0x028 32 .read := by
  refine ⟨rfl, by decide, by decide, by decide, .inr (.inl (.inl (by decide)))⟩

end

end Sys2Proof.Tests
end

section
/-! SUPPORT. What one step is for each kind of input, and the two shapes of an accepted access to a known register. -/

namespace Sys2Proof.Machine

variable {s t : State}

/-! ### The step that an input asks for (70_reset_and_hazards.md R310) -/

theorem step_of_nil (h : s.inputs = []) : step s = completionStep s := by simp [step, h]

theorem step_of_completion {rest : List Input} (h : s.inputs = .completion :: rest) :
    step s = completionStep { s with inputs := rest } := by simp [step, h]

theorem step_of_access {a : Access} {rest : List Input} (h : s.inputs = .access a :: rest) :
    step s = .next (hostAccess { s with inputs := rest } a) := by simp [step, h]

theorem step_of_hardwareReset {rest : List Input} (h : s.inputs = .hardwareReset :: rest) :
    step s = .next { s with inputs := rest }.hardwareReset := by simp [step, h]

/-- An accepted read only answers (20_memory.md R68). -/
theorem step_read {off : BitVec 14} {rest : List Input} {r : MmioReg}
    (h : s.inputs = .access ⟨windowAddr off, 32, .read⟩ :: rest) (hr : regAt off.toNat = some r)
    (hal : off.toNat % 4 = 0) (hacc : refusesRead s r = false) :
    step s = .next { s with inputs := rest, rdata := readReg s r } := by
  have hacc' : refusesRead { s with inputs := rest } r = false := by cases r <;> exact hacc
  have hval : readReg { s with inputs := rest } r = readReg s r := by cases r <;> rfl
  simp [step_of_access h, windowAccess, hal, hr, regAccess, hacc', hval]

/-- An accepted write has the effect of the register it names (20_memory.md R69). -/
theorem step_write {off : BitVec 14} {w : Word32} {rest : List Input} {r : MmioReg}
    (h : s.inputs = .access ⟨windowAddr off, 32, .write w⟩ :: rest) (hr : regAt off.toNat = some r)
    (hal : off.toNat % 4 = 0) (hacc : refusesWrite s r = false) :
    step s = .next (writeReg { s with inputs := rest } w r) := by
  have hacc' : refusesWrite { s with inputs := rest } r = false := by cases r <;> exact hacc
  simp [step_of_access h, windowAccess, hal, hr, regAccess, hacc']

/-! ### Idle and busy (10_state.md R36) -/

theorem busy_of_idle (h : s.seq = .idle) : s.busy = false := by simp [State.busy, h]

theorem busy_of_latched {c : Word32} (h : s.seq = .busy c) : s.busy = true := by simp [State.busy, h]

theorem idle_of_not_latched (h : ∀ c, s.seq ≠ .busy c) : s.seq = .idle := by
  cases hs : s.seq with
  | idle => rfl
  | busy c => exact absurd hs (h c)

theorem busy_iff : s.busy = true ↔ ∃ c, s.seq = .busy c := by
  cases h : s.seq <;> simp [State.busy, h]

theorem completionStep_idle (h : s.seq = .idle) : completionStep s = .next s := by simp [completionStep, h]

theorem completionStep_busy {c : Word32} (h : s.seq = .busy c) : completionStep s = runWord c s := by
  simp [completionStep, h]

theorem runWord_legal {c : Word32} {i : Instr} (h : decode c = some i) : runWord c s = exec i s := by
  simp [runWord, h]

theorem runWord_illegal {c : Word32} (h : decode c = none) : runWord c s = .next (s.finish .illegalCmd) := by
  simp [runWord, h]

/-- What a completion slot leaves: an idle block stays; a busy one finishes from a state inside the frame of commands
(the state before, where the command failed). -/
theorem completionStep_next (h : completionStep s = .next t) :
    (s.seq = .idle ∧ t = s) ∨ ∃ c u code, s.seq = .busy c ∧ CommandFrame s u ∧ t = u.finish code := by
  rcases completionStep_cases s with ⟨hi, e⟩ | ⟨c, r, hb, e, hok⟩ <;> rw [e] at h <;> cases h
  · exact .inl ⟨hi, rfl⟩
  · right
    cases hok with
    | error code _ => exact ⟨c, s, code, hb, .refl s, rfl⟩
    | ok u hu => exact ⟨c, u, .none, hb, hu, rfl⟩

/-- A completion slot is empty while idle, so it counts nothing (10_state.md R28, R36). -/
theorem completionStep_idle_cmdcnt (hi : s.seq = .idle) (h : completionStep s = .next t) : t.cmdcnt = s.cmdcnt := by
  rw [completionStep_idle hi] at h
  cases h
  rfl

/-- A completion counts, modulo 2^32, and leaves the block idle with DONE = 1 (60_exceptions.md R274). -/
theorem completionStep_counts {c : Word32} (hb : s.seq = .busy c) (h : completionStep s = .next t) :
    t.cmdcnt.toNat = (s.cmdcnt.toNat + 1) % 2 ^ 32 ∧ t.seq = .idle ∧ t.done = true := by
  rcases completionStep_next h with ⟨hi, _⟩ | ⟨_, u, code, _, hu, rfl⟩
  · exact absurd (hi.symm.trans hb) (by simp)
  · exact ⟨by simp [hu.cmdcnt], rfl, rfl⟩

/-- No completion writes LOCK, the curve registers or CURVE_CFG. -/
theorem completionStep_locked (hl : s.lock = true) (h : completionStep s = .next t) :
    t.lock = true ∧ t.curve = s.curve ∧ t.edw = s.edw := by
  rcases completionStep_next h with ⟨_, rfl⟩ | ⟨_, u, code, _, hu, rfl⟩
  · exact ⟨hl, rfl, rfl⟩
  · exact ⟨hu.lock.trans hl, hu.curve, hu.edw⟩

/-! ### Which writes are accepted (20_memory.md R66, R67) -/

/-- While BUSY only CTRL and STATUS take writes. -/
theorem ctrl_or_status_of_busy_write {r : MmioReg} (hb : s.busy = true) (h : refusesWrite s r = false) :
    r = .ctrl ∨ r = .status := by
  cases r <;> simp_all [refusesWrite]

/-- While LOCK = 1 no write reaches CURVE_CFG or a curve register (10_state.md R38). -/
theorem writeReg_locked {r : MmioReg} (w : Word32) (hl : s.lock = true) (h : refusesWrite s r = false) :
    (writeReg s w r).lock = true ∧ (writeReg s w r).curve = s.curve ∧ (writeReg s w r).edw = s.edw := by
  cases r with
  | curveCfg => simp [refusesWrite, hl] at h
  | curve r j => simp [refusesWrite, hl] at h
  | ctrl =>
    cases hb : w.getLsbD 2
    · simp [writeReg, writeCtrl_keeps hb, hl]
    · simp [writeReg, writeCtrl_softResets hb, hl]
  | _ => simp [writeReg, hl]

/-! ### Soft resets (10_state.md R22, 70_reset_and_hazards.md R313) -/

/-- The write that resets is accepted in every state: IE and LOCK first, then the reset. -/
theorem hostAccess_softResets (s : State) {a : Access} (h : Claims.SoftResets a) :
    ∃ ie lock, hostAccess s a = { s with ie := ie, lock := lock }.softReset := by
  obtain ⟨w, rfl, hb⟩ := h
  have hw : hostAccess s ⟨windowAddr 0x004#14, 32, .write w⟩ = s.writeCtrl w := hostAccess_windowAddr ..
  exact ⟨_, _, hw.trans (writeCtrl_softResets hb)⟩

/-- What an access that is no soft reset does: nothing, or its refusal, or a read that only answers, or a write to CTRL
without bit 2, or a write to another register. -/
theorem hostAccess_other (s : State) {a : Access} (h : ¬ Claims.SoftResets a) :
    hostAccess s a = s ∨ hostAccess s a = s.refuse a.op ∨ (∃ w, hostAccess s a = { s with rdata := w }) ∨
    (∃ ie lock, hostAccess s a = { s with ie := ie, lock := lock }) ∨
    ∃ r w, r ≠ .ctrl ∧ refusesWrite s r = false ∧ hostAccess s a = writeReg s w r := by
  rcases hostAccess_cases s a with e | e | ⟨off, r, _, _, _, e⟩ | ⟨off, r, w, ha, hr, hacc, e⟩
  · exact .inl e
  · exact .inr (.inl e)
  · exact .inr (.inr (.inl ⟨_, e⟩))
  · refine .inr (.inr (.inr ?_))
    by_cases hc : r = .ctrl
    · subst hc
      obtain rfl := regAt_ctrl hr
      have hb : w.getLsbD 2 = false := Bool.eq_false_iff.mpr fun hb => h ⟨w, ha, hb⟩
      exact .inl ⟨_, _, e.trans (writeCtrl_keeps hb)⟩
    · exact .inr ⟨r, w, hc, hacc, e⟩

/-- No register but CTRL has a write that reaches CMDCNT (10_state.md R28). -/
theorem writeReg_cmdcnt {r : MmioReg} (w : Word32) (h : r ≠ .ctrl) : (writeReg s w r).cmdcnt = s.cmdcnt := by
  cases r with
  | ctrl => exact absurd rfl h
  | curve r j => cases r <;> rfl
  | _ => rfl

theorem hostAccess_cmdcnt (s : State) {a : Access} (h : ¬ Claims.SoftResets a) :
    (hostAccess s a).cmdcnt = s.cmdcnt := by
  rcases hostAccess_other s h with e | e | ⟨w, e⟩ | ⟨ie, lock, e⟩ | ⟨r, w, hc, _, e⟩ <;> rw [e]
  · cases a.op <;> rfl
  · exact writeReg_cmdcnt w hc

/-- LOCK, the curve registers and CURVE_CFG under any access while LOCK = 1 (10_state.md R22, R38). -/
theorem hostAccess_locked (a : Access) (hl : s.lock = true) :
    (hostAccess s a).lock = true ∧ (hostAccess s a).curve = s.curve ∧ (hostAccess s a).edw = s.edw := by
  rcases hostAccess_cases s a with e | e | ⟨off, r, _, _, _, e⟩ | ⟨off, r, w, _, _, hacc, e⟩ <;> rw [e]
  · exact ⟨hl, rfl, rfl⟩
  · cases a.op <;> exact ⟨hl, rfl, rfl⟩
  · exact ⟨hl, rfl, rfl⟩
  · exact writeReg_locked w hl hacc

end Sys2Proof.Machine
end

section
/-! SUPPORT. The offset map read backwards (20_memory.md R60), and what the words of registers and of BUF hold
(R62, R63). -/

namespace Sys2Proof.Machine

open Sys2Proof.Claims

/-- Where a register's words stand in the window, as 20_memory.md R60 lists the offsets. -/
def MmioReg.StandsAt (off : Nat) : MmioReg → Prop
  | .id => off = 0x000
  | .ctrl => off = 0x004
  | .status => off = 0x008
  | .cmd => off = 0x00C
  | .bufSrc => off = 0x010
  | .bufDst => off = 0x014
  | .bufLen => off = 0x018
  | .curveCfg => off = 0x01C
  | .psize => off = 0x020
  | .cmdcnt => off = 0x024
  | .curve r j => 0x100 ≤ off ∧ off < 0x300 ∧ r = curveRegAt (Fin.ofNat 8 ((off - 0x100) / 64)) ∧ j = wordIndex off
  | .eds j => 0x300 ≤ off ∧ off < 0x340 ∧ j = wordIndex off
  | .edt j => 0x340 ≤ off ∧ off < 0x380 ∧ j = wordIndex off
  | .v i j => 0x400 ≤ off ∧ off < 0x800 ∧ i = Fin.ofNat 16 ((off - 0x400) / 64) ∧ j = wordIndex off
  | .buf j => 0x2000 ≤ off ∧ off < 0x4000 ∧ j = Fin.ofNat 2048 ((off - 0x2000) / 4)

theorem standsAt_of_regAt {off : Nat} {r : MmioReg} (h : regAt off = some r) : r.StandsAt off := by
  unfold regAt at h
  split at h
  · split at h <;> cases h <;> rfl
  · split_ifs at h <;> cases h <;> simp only [MmioReg.StandsAt, and_true] <;> omega

/-- A word-aligned offset below 0x100 names one of the ten registers exactly when it is below 0x028. -/
theorem regAt_control_none {off : Nat} (h : off < 0x100) (hal : off % 4 = 0) :
    regAt off = none ↔ 0x028 ≤ off := by
  have hwords : ∀ k < 64, regAt (4 * k) = none ↔ 0x028 ≤ 4 * k := by decide
  obtain ⟨k, rfl⟩ : 4 ∣ off := Nat.dvd_of_mod_eq_zero hal
  exact hwords k (by omega)

/-- The word-aligned offsets that name no register are the reserved ranges (20_memory.md R67 b). -/
theorem regAt_none_iff {off : Nat} (hal : off % 4 = 0) (hoff : off < 0x4000) :
    regAt off = none ↔ 0x028 ≤ off ∧ off < 0x100 ∨ 0x380 ≤ off ∧ off < 0x400 ∨ 0x800 ≤ off ∧ off < 0x2000 := by
  by_cases hc : off < 0x100
  · rw [regAt_control_none hc hal]; omega
  · unfold regAt
    rw [if_neg hc]
    split_ifs <;> simp <;> omega

/-- The reads that BUSY refuses, by offset (20_memory.md R66). -/
theorem refusesRead_iff {off : Nat} {r : MmioReg} (s : State) (hat : r.StandsAt off) :
    refusesRead s r = true ↔ s.busy = true ∧ (0x010 ≤ off ∧ off < 0x020 ∨ 0x100 ≤ off) := by
  cases r <;> simp only [MmioReg.StandsAt] at hat <;> simp [refusesRead] <;> omega

/-- A read that R67 does not list names a register, at an aligned offset, that answers it. -/
theorem register_of_not_refused_read {s : State} {off : Nat} (hoff : off < 0x4000) (h : ¬ Refused s off 32 .read) :
    off % 4 = 0 ∧ ∃ r, regAt off = some r ∧ refusesRead s r = false := by
  unfold Refused at h
  push Not at h
  obtain ⟨⟨-, hal⟩, hreserved, -, hbusy, -⟩ := h
  refine ⟨hal, ?_⟩
  cases hr : regAt off with
  | none => exact absurd ((regAt_none_iff hal hoff).mp hr) (by omega)
  | some r =>
    refine ⟨r, rfl, Bool.eq_false_iff.mpr fun href => ?_⟩
    obtain ⟨hb, ho⟩ := (refusesRead_iff s (standsAt_of_regAt hr)).mp href
    have := hbusy (busy_iff.mp hb)
    omega

/-! ### Words -/

/-- Word j of a wide register is the word that 20_memory.md R62 names by the offset. -/
theorem toNat_getWord (r : Big) (off : Nat) : (getWord r (wordIndex off)).toNat = wideWord r off := by
  have hj : off % 64 / 4 % 16 = off % 64 / 4 := Nat.mod_eq_of_lt (by omega)
  simp [getWord, wordIndex, wideWord, Nat.shiftRight_eq_div_pow, hj]

theorem toNat_append_eq_add {m n : Nat} (x : BitVec m) (y : BitVec n) :
    (x ++ y).toNat = x.toNat * 2 ^ n + y.toNat := by
  rw [BitVec.toNat_append, ← Nat.shiftLeft_add_eq_or_of_lt y.isLt, Nat.shiftLeft_eq]

/-- The four lanes of a BUF word (20_memory.md R63). -/
theorem toNat_word (m : Memory) (j : Fin 2048) :
    (m.word j).toNat = (m.read (4 * j)).toNat + 256 * (m.read (4 * j + 1)).toNat
      + 65536 * (m.read (4 * j + 2)).toNat + 16777216 * (m.read (4 * j + 3)).toNat := by
  simp only [Memory.word, toNat_append_eq_add]
  omega

theorem bitlen_eq_size (v : Nat) : bitlen v = Nat.size v := by
  refine eq_of_forall_ge_iff fun c => ?_
  rw [Nat.size_le]
  by_cases hv : v = 0
  · simp [bitlen, hv]
  · rw [bitlen, if_neg hv, Nat.succ_le_iff, Nat.log2_lt hv]

theorem psize_eq (s : State) : s.psize = (Nat.size s.curve.q.toNat + 7) / 8 := by
  simp [State.psize, ceilDiv, bitlen_eq_size]

/-- PSIZE fits the word that reads it, because Q is a 512-bit register (10_state.md R29). -/
theorem psize_le (s : State) : s.psize ≤ 64 := by
  have hq : Nat.size s.curve.q.toNat ≤ 512 := Nat.size_le.mpr s.curve.q.isLt
  rw [psize_eq]
  omega

/-- STATUS.ERR reads 1 exactly when ERRCODE is not NONE (10_state.md R23). -/
theorem errBit_toNat (c : ErrCode) : (c.code != 0).toNat = if c = .none then 0 else 1 := by
  cases c <;> rfl

theorem busy_toNat (s : State) : s.busy.toNat = if s.seq = .idle then 0 else 1 := by
  cases h : s.seq <;> simp [State.busy, h]

/-- The fields of CTRL (10_state.md R22). -/
theorem ctrlWord_toNat (s : State) : s.ctrlWord.toNat = s.ie.toNat + 2 * s.lock.toNat := by
  unfold State.ctrlWord
  cases s.ie <;> cases s.lock <;> rfl

/-- A 16-bit register fits the word that reads it. -/
theorem toNat_setWidth_half (b : BitVec 16) : (b.setWidth 32).toNat = b.toNat :=
  BitVec.toNat_setWidth_of_le (by decide)

/-! ### What the map says a read answers (10_state.md R21 to R34) -/

theorem readValue_curve (s : State) {off : Nat} (hlo : 0x100 ≤ off) (hhi : off < 0x300) :
    readValue s off = wideWord (s.curve.get (curveRegAt (Fin.ofNat 8 ((off - 0x100) / 64)))) off := by
  obtain ⟨k, hk⟩ : ∃ k, (off - 0x100) / 64 = k := ⟨_, rfl⟩
  have hk8 : k < 8 := by omega
  rw [hk]
  interval_cases k <;> simp (disch := omega) only [readValue, if_pos, if_neg] <;> rfl

/-- An accepted read of a register answers what the register map says of its offset. -/
theorem toNat_readReg (s : State) {off : Nat} {r : MmioReg} (hat : r.StandsAt off) (hal : off % 4 = 0) :
    (readReg s r).toNat = readValue s off := by
  cases r with
  | curve r j =>
    obtain ⟨hlo, hhi, rfl, rfl⟩ := hat
    rw [readValue_curve s hlo hhi]
    exact toNat_getWord _ off
  | eds j =>
    obtain ⟨hlo, hhi, rfl⟩ := hat
    simp (disch := omega) only [readValue, if_pos, if_neg]
    exact toNat_getWord _ off
  | edt j =>
    obtain ⟨hlo, hhi, rfl⟩ := hat
    simp (disch := omega) only [readValue, if_pos, if_neg]
    exact toNat_getWord _ off
  | v i j =>
    obtain ⟨hlo, hhi, rfl, rfl⟩ := hat
    simp (disch := omega) only [readValue, if_pos, if_neg]
    exact toNat_getWord _ off
  | buf j =>
    obtain ⟨hlo, hhi, rfl⟩ := hat
    have hj : 4 * (Fin.ofNat 2048 ((off - 0x2000) / 4)).val = off - 0x2000 := by
      simp only [Fin.ofNat]; omega
    simp (disch := omega) only [readValue, if_neg]
    exact (toNat_word _ _).trans (by rw [hj])
  | psize =>
    cases hat
    have hle := psize_le s
    change (BitVec.ofNat 32 s.psize).toNat = (Nat.size s.curve.q.toNat + 7) / 8
    rw [← psize_eq, BitVec.toNat_ofNat]
    omega
  | status =>
    cases hat
    simp only [readReg, readValue, statusWord_toNat, busy_toNat, errBit_toNat]
    rfl
  | ctrl => cases hat; exact ctrlWord_toNat s
  | curveCfg => cases hat; exact (by decide : ∀ b, (0#31 ++ BitVec.ofBool b).toNat = b.toNat) s.edw
  | bufSrc | bufDst | bufLen => cases hat; exact toNat_setWidth_half _
  | id | cmd | cmdcnt => cases hat; rfl

end Sys2Proof.Machine
end

section
/-! SUPPORT. Which commands end with ILLEGAL_OPERAND (10_state.md R35), and a transform with and without a valid Edwards
cache (R37). -/

namespace Sys2Proof.Machine

variable {s : State}

/-! ### ILLEGAL_OPERAND -/

/-- A completion reports ILLEGAL_OPERAND exactly where evaluating the command raised it. -/
theorem complete_errcode_illegalOperand (s : State) (r : Result) :
    (s.complete r).errcode = .illegalOperand ↔ r = .error .illegalOperand := by
  cases r <;> simp

theorem withModulus_ne_illegalOperand {ms : ModSel} {k : Nat → Result} (h : ∀ m, k m ≠ .error .illegalOperand) :
    s.withModulus ms k ≠ .error .illegalOperand := by
  rcases withModulus_cases s ms k with ⟨_, e⟩ | ⟨_, e⟩ <;> rw [e]
  · simp
  · exact h _

theorem answerResult_ne_illegalOperand (rd : Reg) (s : State) (a : Config.Answer) :
    answerResult rd s a ≠ .error .illegalOperand := by
  cases a <;> simp [answerResult]

theorem transformResult_ne_illegalOperand (rd : Reg) (es et : Nat) (s : State) (o : Option (Nat × Nat)) :
    transformResult rd es et s o ≠ .error .illegalOperand := by
  cases o <;> simp [transformResult]

/-- A command that begins with the check of its point fields raises ILLEGAL_OPERAND there and nowhere else
(60_exceptions.md R272). -/
theorem evenness_check_iff {even : Bool} {r : Result} (h : r ≠ .error .illegalOperand) :
    (if !even then .error .illegalOperand else r) = (.error .illegalOperand : Result) ↔ even = false := by
  cases even <;> simp [h]

/-- A transform checks its two point fields before anything else. -/
theorem withTransform_illegalOperand_iff {rd ra : Reg} {k : Nat → Nat → Nat → Result}
    (h : ∀ p es et, k p es et ≠ .error .illegalOperand) :
    s.withTransform rd ra k = .error .illegalOperand ↔ (rd.isEven && ra.isEven) = false := by
  change _ ↔ (pointReg rd && pointReg ra) = false
  rcases withTransform_cases s rd ra k with
    ⟨ho, e⟩ | ⟨⟨hd, ha⟩, ⟨_, e⟩ | ⟨_, ⟨_, e⟩ | ⟨_, ⟨_, e⟩ | ⟨es, et, _, e⟩⟩⟩⟩ <;> rw [e]
  · exact iff_of_true rfl (Bool.and_eq_false_iff.mpr ho)
  all_goals simp [*]

/-- What evaluating a command gives, and when it is ILLEGAL_OPERAND: the check of point fields is the only one that
raises it (10_state.md R35, 60_exceptions.md R271). -/
theorem exec_illegalOperand_iff (i : Instr) (s : State) :
    ∃ r, exec i s = .next (s.complete r) ∧ (r = .error .illegalOperand ↔ i.wellFormed = false) := by
  have never : ∀ {r : Result}, r ≠ .error .illegalOperand → (r = .error .illegalOperand ↔ true = false) :=
    fun h => by simp [h]
  cases i with
  | nop | mov | ldi | cmpeq => exact ⟨_, rfl, never (by simp)⟩
  | ldb | bcmp =>
    refine ⟨_, rfl, never ?_⟩
    simp only [ldbResult, bcmpResult]
    split <;> simp
  | stb =>
    refine ⟨_, rfl, never ?_⟩
    unfold stbResult
    split_ifs <;> simp
  | mred | mrednz | madd | msub | mmul | rchk =>
    exact ⟨_, rfl, never (withModulus_ne_illegalOperand fun m => by simp)⟩
  | minv rd ra ms =>
    refine ⟨_, rfl, never (withModulus_ne_illegalOperand fun m => ?_)⟩
    unfold minvResult
    split <;> simp
  | ecmul rd ra rb =>
    refine ⟨_, rfl, ?_⟩
    unfold ecmulResult
    rw [← Bool.not_and]
    exact evenness_check_iff (answerResult_ne_illegalOperand _ _ _)
  | ecmulb rd ra => exact ⟨_, rfl, evenness_check_iff (answerResult_ne_illegalOperand _ _ _)⟩
  | ecadd rd ra rb =>
    refine ⟨_, rfl, ?_⟩
    unfold ecaddResult
    rw [← Bool.not_and, ← Bool.not_and]
    exact evenness_check_iff (answerResult_ne_illegalOperand _ _ _)
  | toedw | towei =>
    exact ⟨_, rfl, withTransform_illegalOperand_iff fun p es et => transformResult_ne_illegalOperand _ _ _ _ _⟩
  | kdfx | htag =>
    refine ⟨_, rfl, evenness_check_iff ?_⟩
    split_ifs <;> simp

/-! ### The Edwards cache -/

theorem toBig_toNat (x : Big) : toBig x.toNat = x := (BitVec.ofNat_toNat ..).trans (BitVec.setWidth_eq x)

theorem dropCache_of_invalid (h : s.cache.edv = false) : s.dropCache = s := by
  unfold State.dropCache
  rw [← h]

/-- A coherent cache holds what EdConsts() gives again once it is dropped (44_coord_transform.md R222). -/
theorem edPair_dropCache (h : Safety.CacheCoherent s) : s.dropCache.edPair = s.edPair := by
  cases hv : s.cache.edv with
  | false => rw [dropCache_of_invalid hv]
  | true => rw [edPair_valid s hv, edPair_invalid s.dropCache rfl]; exact (h hv).2

/-- Filling the cache with the constants in use leaves the same cache, dropped before or not. -/
theorem fillCache_dropCache {rd : Reg} {es et : Nat} (h : s.edPair = .ok (es, et)) (pt : Config.Point) :
    (s.dropCache.setPoint rd pt).fillCache es et = (s.setPoint rd pt).fillCache es et := by
  cases hv : s.cache.edv with
  | false => rw [dropCache_of_invalid hv]
  | true =>
    rw [edPair_valid s hv] at h
    cases h
    rw [State.fillCache_invalid _ _ _ rfl, State.fillCache_valid (s.setPoint rd pt) _ _ hv, toBig_toNat, toBig_toNat,
      ← hv]
    rfl

/-- What a transform evaluates to depends on EDW, P, the pair in use, and what it makes of that pair. -/
theorem withTransform_congr {s' : State} {rd ra : Reg} {k k' : Nat → Nat → Nat → Result} (hedw : s'.edw = s.edw)
    (hcurve : s'.curve = s.curve) (hpair : s'.edPair = s.edPair)
    (hk : ∀ p es et, s.edPair = .ok (es, et) → k' p es et = k p es et) :
    s'.withTransform rd ra k' = s.withTransform rd ra k := by
  unfold State.withTransform
  rw [hedw, hcurve, hpair]
  cases hp : s.edPair with
  | error code => rfl
  | ok pair => simp only [hk _ _ _ hp]

/-- Evaluating a transform gives one result, error or state, whether the cache is valid or dropped (10_state.md R37). -/
theorem transform_dropCache (h : Safety.CacheCoherent s) (rd ra : Reg) (f : Nat → Nat → Nat → Option (Nat × Nat)) :
    (s.dropCache.withTransform rd ra fun p es et => transformResult rd es et s.dropCache (f p es et)) =
      s.withTransform rd ra fun p es et => transformResult rd es et s (f p es et) := by
  refine withTransform_congr rfl rfl (edPair_dropCache h) fun p es et hp => ?_
  cases f p es et with
  | none => rfl
  | some ab => exact congrArg Except.ok (fillCache_dropCache hp _)

/-- Both transforms, as the completion of one result that dropping the cache does not change. -/
theorem exec_transform_dropCache (h : Safety.CacheCoherent s) {rd ra : Reg} {i : Instr}
    (hi : i ∈ [Instr.toedw rd ra, .towei rd ra]) :
    ∃ r, ResultOk s r ∧ exec i s = .next (s.complete r) ∧ exec i s.dropCache = .next (s.dropCache.complete r) := by
  simp only [List.mem_cons, List.not_mem_nil, or_false] at hi
  rcases hi with rfl | rfl
  · refine ⟨_, resultOk_transform s rd ra _, rfl, ?_⟩
    rw [← transform_dropCache h]
    rfl
  · refine ⟨_, resultOk_transform s rd ra _, rfl, ?_⟩
    rw [← transform_dropCache h]
    rfl

end Sys2Proof.Machine
end

section
/-! The statements of the family 10_state.md, each from the laws above. -/

open Sys2Proof Sys2Proof.Machine Sys2Proof.Claims

namespace Sys2Proof.Proofs

/-- Settles O11: evaluating a command raises ILLEGAL_OPERAND exactly at the check of its point fields. -/
theorem oddPointFieldIsIllegalOperand : Obligations.OddPointFieldIsIllegalOperand := by
  intro i s
  obtain ⟨r, he, hr⟩ := exec_illegalOperand_iff i s
  exact ⟨_, he, (complete_errcode_illegalOperand s r).trans hr⟩

/-- Settles O32: a transform completes the same result with the cache valid and with it dropped, so the two next states
differ only where that result is an error, in the cache that was there before. -/
theorem cacheNeverChangesTransformResult : Obligations.CacheNeverChangesTransformResult := by
  intro rd ra s h i hi
  obtain ⟨r, hok, ht, hu⟩ := exec_transform_dropCache h hi
  refine ⟨_, _, ht, hu, ?_⟩
  cases hok with
  | error c hc => rw [State.complete_error, State.complete_error, State.finish_errcode, if_neg hc]; rfl
  | ok u _ => rw [State.complete_ok, State.complete_ok, State.finish_errcode, if_pos rfl]; rfl

/-- Settles O42: an access R67 does not list names a register that answers it, and each register's word is the one the
map gives for the offset. -/
theorem acceptedReadAnswersRegisterMap : Obligations.AcceptedReadAnswersRegisterMap := by
  intro s off rest h hacc
  obtain ⟨hal, r, hr, hread⟩ := register_of_not_refused_read off.isLt hacc
  exact ⟨readReg s r, step_read h hr hal hread, toNat_readReg s (standsAt_of_regAt hr) hal⟩

/-- Settles O52: by the kinds of step; a completion stays inside the frame of commands, and no write that LOCK lets
through reaches the curve. -/
theorem lockedCurveChangesOnlyByHardwareReset : Obligations.LockedCurveChangesOnlyByHardwareReset := by
  intro s t hl hstep hnot
  rcases step_cases s with ⟨_, e⟩ | ⟨a, rest, _, e⟩ | ⟨rest, _, e⟩ | ⟨rest, hi, _⟩
  · exact completionStep_locked hl (e ▸ hstep)
  · rw [e] at hstep
    cases hstep
    exact hostAccess_locked (s := { s with inputs := rest }) a hl
  · exact completionStep_locked (s := { s with inputs := rest }) hl (e ▸ hstep)
  · exact absurd hi (hnot rest)

/-- Settles O53: a busy block takes writes to CTRL and STATUS only, and a write to CTRL without bit 2 reaches IE and LOCK
alone. -/
theorem busyAccessKeepsWhatTheCommandReads : Obligations.BusyAccessKeepsWhatTheCommandReads := by
  intro s t c a rest hseq hin hstep
  rw [step_of_access hin] at hstep
  cases hstep
  constructor
  · intro hs
    obtain ⟨ie, lock, e⟩ := hostAccess_softResets { s with inputs := rest } hs
    simp [e]
  · intro hs
    rcases hostAccess_other { s with inputs := rest } hs with
      e | e | ⟨w, e⟩ | ⟨ie, lock, e⟩ | ⟨r, w, hctrl, hacc, e⟩ <;> rw [e]
    · simp [hseq]
    · cases a.op <;> simp [hseq]
    · simp [hseq]
    · simp [hseq]
    · obtain rfl := (ctrl_or_status_of_busy_write (busy_of_latched hseq) hacc).resolve_left hctrl
      simp [writeReg, hseq]

/-- Settles O54: a completion counts, a reset of either kind clears, and neither an idle slot nor any other access
reaches CMDCNT. -/
theorem cmdcntCountsCompletions : Obligations.CmdcntCountsCompletions := by
  intro s t hstep
  refine ⟨?_, ?_, ?_⟩
  · rintro ⟨⟨c, hseq⟩, hin | ⟨rest, hin⟩⟩
    · exact completionStep_counts hseq (step_of_nil hin ▸ hstep)
    · exact completionStep_counts (s := { s with inputs := rest }) hseq (step_of_completion hin ▸ hstep)
  · rintro (⟨rest, hin⟩ | ⟨a, rest, hin, hs⟩)
    · rw [step_of_hardwareReset hin] at hstep
      cases hstep
      rfl
    · rw [step_of_access hin] at hstep
      cases hstep
      obtain ⟨ie, lock, e⟩ := hostAccess_softResets { s with inputs := rest } hs
      rw [e]
      rfl
  · intro hc hr
    rcases step_cases s with ⟨hin, e⟩ | ⟨a, rest, hin, e⟩ | ⟨rest, hin, e⟩ | ⟨rest, hin, _⟩
    · have hidle : s.seq = .idle := idle_of_not_latched fun c hb => hc ⟨⟨c, hb⟩, .inl hin⟩
      exact completionStep_idle_cmdcnt hidle (e ▸ hstep)
    · rw [e] at hstep
      cases hstep
      exact hostAccess_cmdcnt _ fun hs => hr (.inr ⟨a, rest, hin, hs⟩)
    · have hidle : s.seq = .idle := idle_of_not_latched fun c hb => hc ⟨⟨c, hb⟩, .inr ⟨rest, hin⟩⟩
      exact completionStep_idle_cmdcnt (s := { s with inputs := rest }) hidle (e ▸ hstep)
    · exact absurd (.inl ⟨rest, hin⟩) hr

/-- Settles O7: an idle block takes the write to CMD, and the completion slot after it runs the latched word. -/
theorem writtenCommandIsAcceptedThenRun : Obligations.WrittenCommandIsAcceptedThenRun := by
  intro s c rest hidle hin
  refine ⟨step_write (r := .cmd) hin rfl rfl (busy_of_idle hidle), ?_⟩
  rintro rest' rfl
  have hrun : step { s with seq := .busy c, done := false, inputs := .completion :: rest' } =
      runWord c { s with seq := .busy c, done := false, inputs := rest' } :=
    (step_of_completion rfl).trans (completionStep_busy rfl)
  exact ⟨fun i hi => hrun.trans (runWord_legal hi), fun hi => ⟨_, hrun.trans (runWord_illegal hi), rfl⟩⟩

/-- Settles O46: the two cases of bit 2, each the law of a CTRL write. -/
theorem ctrlWriteSetsFieldsThenSoftResets : Obligations.CtrlWriteSetsFieldsThenSoftResets := by
  intro s w rest hin
  refine ⟨State.writeCtrl { s with inputs := rest } w, step_write (r := .ctrl) hin rfl rfl rfl, ?_⟩
  cases hb : w.getLsbD 2
  · simp [writeCtrl_keeps hb]
  · simp [writeCtrl_softResets hb, Memory.unlisted]

/-- Settles O47. -/
theorem statusWriteClearsDoneAndAccerr : Obligations.StatusWriteClearsDoneAndAccerr := by
  intro s w rest hin
  refine ⟨State.writeStatus { s with inputs := rest } w, step_write (r := .status) hin rfl rfl rfl, ?_⟩
  have clear : ∀ field bit : Bool, (field && !bit) = if bit then false else field := by decide
  rw [State.writeStatus, clear, clear]

/-- Settles O48: an idle block takes the write to each of the three registers. -/
theorem bufRegisterWritesStoreLowHalf : Obligations.BufRegisterWritesStoreLowHalf := by
  intro s w rest hidle
  have hacc := busy_of_idle hidle
  exact ⟨fun hin => step_write (r := .bufSrc) hin rfl rfl hacc, fun hin => step_write (r := .bufDst) hin rfl rfl hacc,
    fun hin => step_write (r := .bufLen) hin rfl rfl hacc⟩

/-- Settles O49: the write is accepted because the block is neither busy nor locked. -/
theorem curveCfgWriteSetsEdwAndDropsCache : Obligations.CurveCfgWriteSetsEdwAndDropsCache := by
  intro s w rest hidle hl hin
  have hacc : refusesWrite s .curveCfg = false := by simp [refusesWrite, busy_of_idle hidle, hl]
  exact step_write (r := .curveCfg) hin rfl rfl hacc

/-- Settles O51: every field by its value; V is sixteen zeros, BUF lists no byte, and PSIZE is that of Q = 0. -/
theorem resetStateIsAllZeroAndIdle : Obligations.ResetStateIsAllZeroAndIdle := by
  have hv : ∀ r : Reg, State.reset.v[r] = 0 := fun r => Vector.getElem_replicate r.isLt
  have hbuf : ∀ a, State.reset.buf.read a = 0 := Memory.read_nil
  have hpsize : State.reset.psize = 0 := by
    have hq : State.reset.curve.q = 0#512 := rfl
    rw [psize_eq, hq, BitVec.toNat_zero, Nat.size_zero]
  exact ⟨rfl, rfl, rfl, rfl, rfl, rfl, rfl, rfl, rfl, rfl, rfl, rfl, rfl, rfl, hv, hbuf, hpsize, rfl⟩

/-- Settles O58: BUF is empty, and the other parts of the invariant speak of EDV = 1 or DONE = 1. -/
theorem invariantHoldsAtReset : Obligations.InvariantHoldsAtReset := by
  refine ⟨Memory.wf_nil, fun h => ?_, fun h => ?_, fun h => ?_⟩ <;> cases h

end Sys2Proof.Proofs
end

section
/-! SUPPORT. Which accesses the window refuses, by offset (20_memory.md R66, R67), the offset map read forwards (R60), and
what a word write leaves in V, in the curve registers and in BUF (R62, R63; 10_state.md R39). -/

namespace Sys2Proof.Machine

open Sys2Proof.Claims

variable {s : State} {off bits : Nat} {op : AccessOp} {r : MmioReg}

/-! ### Refused accesses -/

/-- The writes a register refuses, by offset (20_memory.md R67 c, d, e). -/
theorem refusesWrite_iff (s : State) (hat : r.StandsAt off) :
    refusesWrite s r = true ↔
      (off = 0x000 ∨ off = 0x020 ∨ off = 0x024 ∨ 0x300 ≤ off ∧ off < 0x380) ∨
      s.busy = true ∧ (off = 0x00C ∨ 0x010 ≤ off ∧ off < 0x020 ∨ 0x100 ≤ off) ∨
      s.lock = true ∧ (off = 0x01C ∨ 0x100 ≤ off ∧ off < 0x300) := by
  cases r with
  | id | psize | cmdcnt | eds j | edt j =>
    simp only [MmioReg.StandsAt] at hat
    exact iff_of_true rfl (.inl (by omega))
  | ctrl | status | cmd | bufSrc | bufDst | bufLen | curveCfg => cases hat; simp [refusesWrite]
  | curve c j =>
    obtain ⟨hlo, hhi, -⟩ := hat
    rw [or_iff_right (by omega), and_iff_left (by omega), and_iff_left (by omega)]
    simp [refusesWrite]
  | v i j | buf j =>
    obtain ⟨hlo, -⟩ := hat
    rw [or_iff_right (by omega), and_iff_left (by omega), or_iff_left fun ⟨_, hcurve⟩ => by omega]
    simp [refusesWrite]

/-- At an aligned offset that names a register only R67 c, d and e are left to refuse a 32-bit access. -/
theorem refused_iff_of_regAt (hr : regAt off = some r) (hal : off % 4 = 0) (hoff : off < 0x4000) :
    Refused s off 32 op ↔
      (isWrite op ∧ (off = 0x000 ∨ off = 0x020 ∨ off = 0x024 ∨ 0x300 ≤ off ∧ off < 0x380)) ∨
      (s.busy = true ∧ (isWrite op ∧ off = 0x00C ∨ 0x010 ≤ off ∧ off < 0x020 ∨ 0x100 ≤ off)) ∨
      (s.lock = true ∧ isWrite op ∧ (off = 0x01C ∨ 0x100 ≤ off ∧ off < 0x300)) := by
  have hformed : ¬ (32 ≠ 32 ∨ off % 4 ≠ 0) := by omega
  have hnamed := mt (regAt_none_iff hal hoff).mpr (by simp [hr])
  rw [Refused, or_iff_right hformed, or_iff_right hnamed, busy_iff]

/-- A 32-bit read of a register is on the list of R67 exactly when the register refuses it. -/
theorem refused_read_iff (hr : regAt off = some r) (hal : off % 4 = 0) (hoff : off < 0x4000) :
    Refused s off 32 .read ↔ refusesRead s r = true := by
  rw [refused_iff_of_regAt hr hal hoff, refusesRead_iff s (standsAt_of_regAt hr)]
  simp [isWrite]

/-- A 32-bit write of a register is on the list of R67 exactly when the register refuses it. -/
theorem refused_write_iff {w : Word32} (hr : regAt off = some r) (hal : off % 4 = 0) (hoff : off < 0x4000) :
    Refused s off 32 (.write w) ↔ refusesWrite s r = true := by
  rw [refused_iff_of_regAt hr hal hoff, refusesWrite_iff s (standsAt_of_regAt hr)]
  simp [isWrite]

/-- An access that R67 does not list is a 32-bit access to a register, at an aligned offset. -/
theorem register_of_not_refused (hoff : off < 0x4000) (h : ¬ Refused s off bits op) :
    bits = 32 ∧ off % 4 = 0 ∧ ∃ r, regAt off = some r := by
  unfold Refused at h
  push Not at h
  obtain ⟨⟨hbits, hal⟩, hreserved, -⟩ := h
  refine ⟨hbits, hal, Option.ne_none_iff_exists'.mp fun hnone => ?_⟩
  have := (regAt_none_iff hal hoff).mp hnone
  omega

/-- Every access on the list of R67 is refused. -/
theorem windowAccess_of_refused (hoff : off < 0x4000) (h : Refused s off bits op) :
    windowAccess s off bits op = s.refuse op := by
  rcases windowAccess_cases s off bits op with
    e | ⟨r, hr, rfl, hal, rfl, hacc, -⟩ | ⟨r, w, hr, rfl, hal, rfl, hacc, -⟩
  · exact e
  · simp [(refused_read_iff hr hal hoff).mp h] at hacc
  · simp [(refused_write_iff hr hal hoff).mp h] at hacc

/-- No register's write sets ACCERR. -/
theorem accerr_of_writeReg {w : Word32} (h : (writeReg s w r).accerr = true) : s.accerr = true := by
  cases r with
  | ctrl =>
    cases hb : w.getLsbD 2
    · simpa [writeReg, writeCtrl_keeps hb] using h
    · simp [writeReg, writeCtrl_softResets hb] at h
  | status => exact (Bool.and_eq_true_iff.mp h).left
  | curve r j => cases r <;> exact h
  | _ => exact h

/-- An access that is not on the list of R67 is accepted, and what accepts it leaves ACCERR or clears it. -/
theorem accerr_of_windowAccess (hoff : off < 0x4000) (h : ¬ Refused s off bits op)
    (ha : (windowAccess s off bits op).accerr = true) : s.accerr = true := by
  obtain ⟨rfl, hal, r, hr⟩ := register_of_not_refused hoff h
  cases op with
  | read =>
    rw [refused_read_iff hr hal hoff] at h
    simpa [windowAccess, hal, hr, regAccess, h] using ha
  | write w =>
    rw [refused_write_iff hr hal hoff] at h
    exact accerr_of_writeReg (by simpa [windowAccess, hal, hr, regAccess, h] using ha)

/-- The only effects of a refused access: ACCERR, and the answer 0 of a read (20_memory.md R67). -/
theorem refuse_eq (s : State) (op : AccessOp) :
    s.refuse op = { s with accerr := true, rdata := if op = .read then 0#32 else s.rdata } := by
  cases op <;> simp

/-! ### The offsets of words -/

theorem fin_ofNat_eq {n a : Nat} [NeZero n] {k : Fin n} (h : a = k.val) : Fin.ofNat n a = k :=
  h ▸ Fin.ofNat_val_eq_self k

/-- Word j of a register of 64 bytes stands 4 j bytes into it. -/
theorem wordIndex_eq {j : Fin 16} (h : off % 64 = 4 * j.val) : wordIndex off = j := fin_ofNat_eq (by omega)

theorem regAt_v (i : Reg) (j : Fin 16) : regAt (0x400 + 64 * i.val + 4 * j.val) = some (.v i j) := by
  simp (disch := omega) only [regAt, if_pos, if_neg, Option.some.injEq, MmioReg.v.injEq]
  exact ⟨fin_ofNat_eq (by omega), wordIndex_eq (by omega)⟩

theorem regAt_curve (k : Fin 8) (j : Fin 16) :
    regAt (0x100 + 64 * k.val + 4 * j.val) = some (.curve (curveRegAt k) j) := by
  simp (disch := omega) only [regAt, if_pos, if_neg, Option.some.injEq, MmioReg.curve.injEq]
  exact ⟨congrArg curveRegAt (fin_ofNat_eq (by omega)), wordIndex_eq (by omega)⟩

theorem regAt_buf (j : Fin 2048) : regAt (0x2000 + 4 * j.val) = some (.buf j) := by
  simp (disch := omega) only [regAt, if_pos, if_neg, Option.some.injEq, MmioReg.buf.injEq]
  exact fin_ofNat_eq (by omega)

/-- An accepted write at an offset given as a number. -/
theorem step_write_ofNat {w : Word32} {rest : List Input}
    (h : s.inputs = .access ⟨windowAddr (BitVec.ofNat 14 off), 32, .write w⟩ :: rest) (hr : regAt off = some r)
    (hal : off % 4 = 0) (hoff : off < 0x4000) (hacc : refusesWrite s r = false) :
    step s = .next (writeReg { s with inputs := rest } w r) := by
  have hval : (BitVec.ofNat 14 off).toNat = off := (BitVec.toNat_ofNat ..).trans (Nat.mod_eq_of_lt hoff)
  exact step_write h (hval.symm ▸ hr) (hval.symm ▸ hal) hacc

/-! ### What a word write leaves -/

theorem isWordWrite_setWord (x : Big) (j : Fin 16) (w : Word32) : IsWordWrite x (setWord x j w) j w :=
  getLsbD_setWord x j w

/-- A write of a curve register clears EDV exactly where the register feeds the cache (10_state.md R39). -/
theorem writeCurve_eq (s : State) (c : CurveReg) (j : Fin 16) (w : Word32) :
    s.writeCurve c j w = { s with
      curve := s.curve.set c (setWord (s.curve.get c) j w)
      cache := { s.cache with edv := s.cache.edv && !c.feedsCache } } := by
  unfold State.writeCurve
  cases c.feedsCache <;> simp [State.dropCache]

/-- Q, A, B, GX and GY do not feed the cache; P, E and D do (10_state.md R39). -/
theorem not_feedsCache_curveRegAt (k : Fin 8) :
    (!(curveRegAt k).feedsCache) = decide (k ∈ ([1, 2, 3, 4, 5] : List (Fin 8))) := by
  decide +revert

/-- Lane k is byte k of the word, the low byte first (20_memory.md R63). -/
theorem toNat_lane (w : Word32) (k : Fin 4) : (lane w k).toNat = w.toNat / 256 ^ k.val % 256 := by
  simp [lane, Nat.shiftRight_eq_div_pow, Nat.pow_mul]

theorem getElem_lanes (w : Word32) : ∀ k : Fin 4, [lane w 0, lane w 1, lane w 2, lane w 3][k] = lane w k
  | 0 | 1 | 2 | 3 => rfl

/-- Byte 4j + k of BUF after a write of word j is lane k of the word. -/
theorem read_writeBufWord_lane (hm : Memory.wf s.buf) (j : Fin 2048) (w : Word32) (k : Fin 4) :
    (s.writeBufWord j w).buf.read (4 * j.val + k.val) = lane w k := by
  have hbuf : 4 * j.val + 4 ≤ Config.bufSize := by
    change 4 * j.val + 4 ≤ 8192
    omega
  rw [State.writeBufWord_buf, Memory.read_writeBytes_at _ _ _ k.isLt hm hbuf]
  exact getElem_lanes w k

/-- The other bytes of BUF are kept. -/
theorem read_writeBufWord_other (s : State) (j : Fin 2048) (w : Word32) {a : Nat}
    (h : a < 4 * j.val ∨ 4 * j.val + 4 ≤ a) : (s.writeBufWord j w).buf.read a = s.buf.read a := by
  rw [State.writeBufWord_buf]
  exact Memory.read_writeBytes_other _ _ _ a h

end Sys2Proof.Machine
end

section
/-! The statements of the family 20_memory.md, each from the laws above. -/

open Sys2Proof Sys2Proof.Machine Sys2Proof.Claims

namespace Sys2Proof.Proofs

/-- Settles O41: the list of R67 and the registers' own refusals agree offset by offset, and nothing accepted sets
ACCERR. -/
theorem refusedAccessesAreExactlyTheListed : Obligations.RefusedAccessesAreExactlyTheListed := by
  intro s off bits op rest hin
  refine ⟨windowAccess { s with inputs := rest } off.toNat bits op, ?_, fun h => ?_, fun h => ?_⟩
  · rw [step_of_access hin, hostAccess_windowAddr]
  · exact (windowAccess_of_refused (s := { s with inputs := rest }) off.isLt h).trans (refuse_eq _ op)
  · exact accerr_of_windowAccess (s := { s with inputs := rest }) off.isLt h

/-- Settles O43: an idle block takes the write, and it sets one word of the register. -/
theorem wordWriteToVReplacesOneWord : Obligations.WordWriteToVReplacesOneWord := by
  intro s i j w rest hidle hin
  exact ⟨_, step_write_ofNat hin (regAt_v i j) (by omega) (by omega) (busy_of_idle hidle), isWordWrite_setWord _ j w⟩

/-- Settles O44: a block that is neither busy nor locked takes the write, and EDV follows from the register's name. -/
theorem curveWriteReplacesWordAndDropsCache : Obligations.CurveWriteReplacesWordAndDropsCache := by
  intro s k j w rest hidle hl hin
  have hacc : refusesWrite s (.curve (curveRegAt k) j) = false := by simp [refusesWrite, busy_of_idle hidle, hl]
  refine ⟨_, ?_, isWordWrite_setWord _ j w⟩
  rw [step_write_ofNat hin (regAt_curve k j) (by omega) (by omega) hacc, writeReg, writeCurve_eq,
    not_feedsCache_curveRegAt]

/-- Settles O45: an idle block takes the write, and it writes the word's four lanes. -/
theorem wordWriteToBufReplacesFourBytes : Obligations.WordWriteToBufReplacesFourBytes := by
  intro s j w rest hm hidle hin
  refine ⟨(s.writeBufWord j w).buf, ?_, fun k hk => ?_, fun a ha => read_writeBufWord_other s j w ha⟩
  · exact step_write_ofNat hin (regAt_buf j) (by omega) (by omega) (busy_of_idle hidle)
  · rw [read_writeBufWord_lane hm j w ⟨k, hk⟩, toNat_lane]

end Sys2Proof.Proofs
end

section
/-! SUPPORT. Command words and the rows of 30_encoding.md R95: the decoder and the encoder are inverse to each other, and
the rows that a word matches. -/

namespace Sys2Proof

open Sys2Proof.Claims

variable {c : Word32} {i : Instr}

/-! ### Decoder and encoder -/

/-- Each arm of the decoder reads back what the encoder put into the fields of its format (30_encoding.md R91, R92). -/
theorem decode_encode (i : Instr) : decode (encode i) = some i := by
  cases i
  case ldi =>
    simp [encode, decode, opcField_formatI, rdField_formatI, raField_formatI, immField_formatI, regOf_bits]
  all_goals
    simp [encode, decode, opcField_formatR, rdField_formatR, raField_formatR, rbField_formatR, msField_formatR,
      leField_formatR, topField_formatR, regOf_bits, modSelOf_bit, orderOf_bit]

/-- Each arm of the decoder demands zeros in the fields that its command does not use, so that the fields it reads make
up the whole word. -/
theorem encode_of_decode (h : decode c = some i) : encode i = c := by
  unfold decode at h
  dsimp only at h
  split at h
  case h_3 hopc => -- LDI, the one row of format I
    obtain ⟨hra, h⟩ := Option.ite_none_right_eq_some.mp h
    cases h
    simpa [encode, bits_regOf, hopc] using formatI_fields c hra
  case h_22 => cases h -- the opcodes of no row
  all_goals
    next hopc =>
    obtain ⟨hzero, h⟩ := Option.ite_none_right_eq_some.mp h
    cases h
    have htop : topField c = 0#10 := by simp [hzero]
    simpa [encode, bits_regOf, bit_modSelOf, bit_orderOf, hopc, hzero] using formatR_fields c htop

theorem decode_eq_some_iff : decode c = some i ↔ encode i = c :=
  ⟨encode_of_decode, fun h => h ▸ decode_encode i⟩

/-! ### Rows (30_encoding.md R95) -/

theorem matchesRow : ∀ i, Laws.MatchesRow.Statement i
  | .nop => Laws.MatchesRow.nop
  | .mov rd ra => Laws.MatchesRow.mov rd ra
  | .ldi rd imm => Laws.MatchesRow.ldi rd imm
  | .ldb rd order => Laws.MatchesRow.ldb rd order
  | .stb ra order => Laws.MatchesRow.stb ra order
  | .mred rd ra ms => Laws.MatchesRow.mred rd ra ms
  | .mrednz rd ra ms => Laws.MatchesRow.mrednz rd ra ms
  | .madd rd ra rb ms => Laws.MatchesRow.madd rd ra rb ms
  | .msub rd ra rb ms => Laws.MatchesRow.msub rd ra rb ms
  | .mmul rd ra rb ms => Laws.MatchesRow.mmul rd ra rb ms
  | .minv rd ra ms => Laws.MatchesRow.minv rd ra ms
  | .rchk ra ms => Laws.MatchesRow.rchk ra ms
  | .cmpeq ra rb => Laws.MatchesRow.cmpeq ra rb
  | .ecmul rd ra rb => Laws.MatchesRow.ecmul rd ra rb
  | .ecmulb rd ra => Laws.MatchesRow.ecmulb rd ra
  | .ecadd rd ra rb => Laws.MatchesRow.ecadd rd ra rb
  | .toedw rd ra => Laws.MatchesRow.toedw rd ra
  | .towei rd ra => Laws.MatchesRow.towei rd ra
  | .kdfx ra => Laws.MatchesRow.kdfx ra
  | .htag ra => Laws.MatchesRow.htag ra
  | .bcmp => Laws.MatchesRow.bcmp

theorem rows_getElem_rowIndex (i : Instr) (h : rowIndex i < rows.length) : rows[rowIndex i] = Laws.rowOf i := by
  cases i <;> rfl

theorem rowOf_mem_rows (i : Instr) : Laws.rowOf i ∈ rows := by cases i <;> simp [rows, Laws.rowOf]

/-- A word that decodes matches the row of its command. -/
theorem matches_of_decode (h : decode c = some i) : c &&& (Laws.rowOf i).2 = (Laws.rowOf i).1 := by
  rw [← encode_of_decode h]
  exact matchesRow i

/-- Masking a word masks each of its fields. -/
theorem fields_of_matches {m r : Word32} (h : c &&& m = r) :
    opcField c &&& opcField m = opcField r ∧ rdField c &&& rdField m = rdField r ∧
      raField c &&& raField m = raField r ∧ rbField c &&& rbField m = rbField r ∧
      msField c &&& msField m = msField r ∧ leField c &&& leField m = leField r ∧
      topField c &&& topField m = topField r := by
  simp [← h, opcField, rdField, raField, rbField, msField, leField, topField, BitVec.extractLsb'_and]

/-! The fields of a written-out word. -/

section
variable (k : Nat)

@[simp] theorem opcField_ofNat : opcField (BitVec.ofNat 32 k) = BitVec.ofNat 8 k := by
  simp [opcField, ← BitVec.toNat_inj]

@[simp] theorem rdField_ofNat : rdField (BitVec.ofNat 32 k) = BitVec.ofNat 4 (k / 2 ^ 8) := by
  simp [rdField, ← BitVec.toNat_inj, Nat.shiftRight_eq_div_pow]
  omega

@[simp] theorem raField_ofNat : raField (BitVec.ofNat 32 k) = BitVec.ofNat 4 (k / 2 ^ 12) := by
  simp [raField, ← BitVec.toNat_inj, Nat.shiftRight_eq_div_pow]
  omega

@[simp] theorem rbField_ofNat : rbField (BitVec.ofNat 32 k) = BitVec.ofNat 4 (k / 2 ^ 16) := by
  simp [rbField, ← BitVec.toNat_inj, Nat.shiftRight_eq_div_pow]
  omega

@[simp] theorem msField_ofNat : msField (BitVec.ofNat 32 k) = BitVec.ofNat 1 (k / 2 ^ 20) := by
  simp [msField, ← BitVec.toNat_inj, Nat.shiftRight_eq_div_pow]
  omega

@[simp] theorem leField_ofNat : leField (BitVec.ofNat 32 k) = BitVec.ofNat 1 (k / 2 ^ 21) := by
  simp [leField, ← BitVec.toNat_inj, Nat.shiftRight_eq_div_pow]
  omega

@[simp] theorem topField_ofNat : topField (BitVec.ofNat 32 k) = BitVec.ofNat 10 (k / 2 ^ 22) := by
  simp [topField, ← BitVec.toNat_inj, Nat.shiftRight_eq_div_pow]
  omega

end

/-- Field by field, a row's mask keeps the opcode and the fields that must be 0, and these are what the decoder's arm
for the opcode asks of the word. -/
theorem decode_of_matches {n : Nat} (hn : n < rows.length) (h : c &&& (rows[n]).2 = (rows[n]).1) :
    ∃ i, decode c = some i ∧ rowIndex i = n := by
  have kept8 (b : BitVec 8) : b &&& 255#8 = b := BitVec.and_allOnes
  have kept4 (b : BitVec 4) : b &&& 15#4 = b := BitVec.and_allOnes
  have kept1 (b : BitVec 1) : b &&& 1#1 = b := BitVec.and_allOnes
  have kept10 (b : BitVec 10) : b &&& 1023#10 = b := BitVec.and_allOnes
  have hfields := fields_of_matches h
  have hrows : n < 21 := hn
  clear h
  interval_cases n
  all_goals
    simp [rows, kept8, kept4, kept1, kept10] at hfields
    simp [decode, hfields, rowIndex]

theorem matches_row_iff {n : Nat} (hn : n < rows.length) :
    c &&& (rows[n]).2 = (rows[n]).1 ↔ ∃ i, decode c = some i ∧ rowIndex i = n := by
  refine ⟨decode_of_matches hn, ?_⟩
  rintro ⟨i, hi, rfl⟩
  rw [rows_getElem_rowIndex i hn]
  exact matches_of_decode hi

/-- A row that a word matches is the row of the command the word decodes to. -/
theorem decode_of_matches_mem {r : Word32 × Word32} (hr : r ∈ rows) (h : c &&& r.2 = r.1) :
    ∃ i, decode c = some i ∧ Laws.rowOf i = r := by
  obtain ⟨n, hn, rfl⟩ := List.getElem_of_mem hr
  obtain ⟨i, hi, rfl⟩ := decode_of_matches hn h
  exact ⟨i, hi, (rows_getElem_rowIndex i hn).symm⟩

/-- The illegal words are those that no row matches (30_encoding.md R97). -/
theorem decode_eq_none_iff : decode c = none ↔ ∀ r ∈ rows, c &&& r.2 ≠ r.1 := by
  constructor
  · intro hnone r hr h
    obtain ⟨i, hi, _⟩ := decode_of_matches_mem hr h
    simp [hnone] at hi
  · intro hno
    cases hi : decode c with
    | none => rfl
    | some i => exact absurd (matches_of_decode hi) (hno _ (rowOf_mem_rows i))

end Sys2Proof

namespace Sys2Proof.Machine

/-- The completion of an illegal word (30_encoding.md R97). -/
theorem completionStep_illegal {s : State} {c : Word32} (hb : s.seq = .busy c) (h : decode c = none) :
    completionStep s = .next (s.finish .illegalCmd) :=
  (completionStep_busy hb).trans (runWord_illegal h)

end Sys2Proof.Machine
end

section
/-! The statements of the family 30_encoding.md, each from the laws above. -/

open Sys2Proof Sys2Proof.Machine Sys2Proof.Claims

namespace Sys2Proof.Proofs

/-- Settles O1: by the commands, each field of a format read back from the word. -/
theorem decodeOfEncodeIsSelf : Obligations.DecodeOfEncodeIsSelf := decode_encode

/-- Settles O2: by the decoder's arms, each of which fixes every bit of the word. -/
theorem decodedWordIsItsEncoding : Obligations.DecodedWordIsItsEncoding := fun _ _ => encode_of_decode

/-- Settles O3: a row's match and mask ask of the fields what the decoder's arm asks. -/
theorem rowIsDecodedExactlyByMaskAndMatch : Obligations.RowIsDecodedExactlyByMaskAndMatch :=
  fun _ _ => matches_row_iff

/-- Settles O4: a row that the word matches is the row of its one command. -/
theorem noWordMatchesTwoRows : Obligations.NoWordMatchesTwoRows := by
  refine fun c => ⟨fun i hi => ⟨Laws.rowOf i, ⟨rowOf_mem_rows i, matches_of_decode hi⟩, ?_⟩, decode_eq_none_iff.mp⟩
  rintro r ⟨hr, h⟩
  obtain ⟨j, hj, rfl⟩ := decode_of_matches_mem hr h
  rw [Option.some.inj (hj.symm.trans hi)]

/-- Settles O8: a word that no row matches does not decode, and its completion writes the completion fields only. -/
theorem illegalWordOnlyReportsIllegalCmd : Obligations.IllegalWordOnlyReportsIllegalCmd := by
  intro s c hseq hno
  have hnone : decode c = none := decode_eq_none_iff.mpr hno
  refine ⟨fun rest hin => ⟨_, ?_, rfl⟩, fun hin => ⟨_, ?_, rfl⟩⟩
  · exact (step_of_completion hin).trans (completionStep_illegal (s := { s with inputs := rest }) hseq hnone)
  · exact (step_of_nil hin).trans (completionStep_illegal hseq hnone)

/-- Settles O5: the encoder by evaluation, and the decoder as its inverse. -/
theorem workedEncodings : Obligations.WorkedEncodings := by
  intro p hp
  have henc : encode p.1 = p.2 := by
    simp only [List.mem_cons, List.not_mem_nil, or_false] at hp
    rcases hp with rfl | rfl | rfl | rfl | rfl <;> decide
  exact ⟨henc, decode_eq_some_iff.mpr henc⟩

end Sys2Proof.Proofs
end

section
/-! SUPPORT. How an engine command ends (40_curve_engine.md R123), and ENGINE_REF on the points of Mathlib's group
(R121, R127): every operation of its integers is the operation of the field of P on residues. -/

namespace Sys2Proof.Machine

open Sys2Proof.Claims Sys2Proof.Safety WeierstrassCurve.Affine

/-! ### How an engine command ends -/

/-- A pair write puts the point into the two registers of the pair and keeps the others (10_state.md R35). -/
theorem getElem_setPoint (s : State) (rd q : Reg) (pt : Config.Point) :
    (s.setPoint rd pt).v[q] = if yReg rd = q then pt.y else if rd = q then pt.x else s.v[q] := by
  simp only [State.setPoint, State.setV_v, getElem_set_reg]

/-- The completion of an answer is what 40_curve_engine.md R123 says of it. -/
theorem endsWithAnswer_complete (rd : Reg) (s : State) (a : Config.Answer) :
    EndsWithAnswer rd s (s.complete (answerResult rd s a)) a := by
  cases a with
  | fail => rfl
  | ok pt =>
    have hx : (s.setPoint rd pt).v[rd] = pt.x := by
      rw [getElem_setPoint, if_neg (yReg_ne rd), if_pos rfl]
    have hy : (s.setPoint rd pt).v[rd + 1] = pt.y := (getElem_setPoint s rd _ pt).trans (if_pos rfl)
    have hframe : KeepsRegsBut [rd, rd + 1] s (s.setPoint rd pt) := by
      intro q hq
      simp only [List.mem_cons, List.not_mem_nil, or_false, not_or] at hq
      obtain ⟨hqx, hqy⟩ := hq
      exact (getElem_setPoint s rd q pt).trans ((if_neg (Ne.symm hqy)).trans (if_neg (Ne.symm hqx)))
    have hcount : (s.cmdcnt + 1#32).toNat = (s.cmdcnt.toNat + 1) % 2 ^ 32 := BitVec.toNat_add ..
    exact ⟨hx, hy, hframe, rfl, fun _ => rfl, rfl, ⟨rfl, rfl, rfl, rfl, rfl, rfl, rfl, rfl, rfl⟩,
      ⟨rfl, rfl, rfl, hcount, rfl⟩⟩

/-! ### ENGINE_REF's integers as residues -/

section

variable {p : Nat}

/-- `subMod` is the representative in [0, p) of the difference in the field of P. -/
theorem subMod_eq_val [NeZero p] (a b : Nat) : subMod a b p = ((a : ZMod p) - b).val := by
  have hint : (subMod a b p : Int) = (((a : Int) - b : Int) : ZMod p).val := by
    rw [subMod_cast a b p (NeZero.ne p), ZMod.val_intCast]
  have := Int.natCast_inj.mp hint
  rwa [Int.cast_sub, Int.cast_natCast, Int.cast_natCast] at this

@[simp] theorem cast_subMod [NeZero p] (a b : Nat) : ((subMod a b p : Nat) : ZMod p) = (a : ZMod p) - b := by
  rw [subMod_eq_val, ZMod.natCast_zmod_val]

/-- `inv_P` is the inverse of the field of P; that of 0, which does not exist, is 0 on both sides. -/
@[simp] theorem cast_refInv [Fact p.Prime] (a : Nat) : ((refInv p a : Nat) : ZMod p) = (a : ZMod p)⁻¹ := by
  cases h : invMod a p with
  | some x =>
    obtain ⟨-, -, hmul⟩ := invMod_eq_some (NeZero.ne p) h
    have hone : (a : ZMod p) * x = 1 := by exact_mod_cast (ZMod.natCast_eq_natCast_iff' (a * x) 1 p).mpr hmul
    rw [refInv, h, Option.getD_some]
    exact eq_inv_of_mul_eq_one_right hone
  | none =>
    have hdvd : p ∣ a := by
      by_contra hnot
      have hcop : Nat.Coprime p a := (Nat.Prime.coprime_iff_not_dvd Fact.out).mpr hnot
      exact invMod_eq_none.mp h ((Nat.gcd_rec p a).symm.trans hcop)
    rw [refInv, h, Option.getD_none, (ZMod.natCast_eq_zero_iff a p).mpr hdvd, Nat.cast_zero, inv_zero]

end

/-! ### Points of the group inside ENGINE_REF -/

/-- A point of the group as ENGINE_REF holds it: its coordinates in [0, P), or O. -/
def refOf {p : Nat} {W : WeierstrassCurve.Affine (ZMod p)} : W.Point → RefPoint
  | .zero => none
  | .some x y _ => some (x.val, y.val)

@[simp] theorem refOf_zero {p : Nat} [Fact p.Prime] {W : WeierstrassCurve.Affine (ZMod p)} :
    refOf (0 : W.Point) = none := rfl

/-- ENGINE_REF answers a point it holds as the contract writes it. -/
theorem refAnswer_refOf {p : Nat} {W : WeierstrassCurve.Affine (ZMod p)} (g : W.Point) :
    refAnswer (refOf g) = answerOf g := by
  cases g <;> rfl

/-- A point the port hands in as the contract writes it is held as that point, where P fits its register. -/
theorem refPoint_eq_refOf {p : Nat} [NeZero p] {W : WeierstrassCurve.Affine (ZMod p)} {g : W.Point}
    {pt : Config.Point} (hp : p < 2 ^ 512) (h : answerOf g = .ok pt) : refPoint pt = refOf g := by
  cases g with
  | zero => cases h
  | some x y hxy =>
    cases h
    have hx : (toBig x.val).toNat = x.val := toNat_toBig ((ZMod.val_lt x).trans hp)
    have hy : (toBig y.val).toNat = y.val := toNat_toBig ((ZMod.val_lt y).trans hp)
    simp only [refPoint, refOf, hx, hy]

section

variable {c : Config.Curve} [Fact c.p.Prime]

/-- On a short Weierstrass curve the negative of a point has the negated y. -/
@[simp] theorem negY_weierstrass (x y : ZMod c.p) : (weierstrass c).negY x y = -y := by
  simp [negY, weierstrass]

/-- ENGINE_REF's chord is Mathlib's third point, for the slope that its integer l stands for. -/
theorem refChord_eq (l : Nat) (x1 y1 x2 : ZMod c.p) :
    refChord c.p l x1.val y1.val x2.val =
      some (((weierstrass c).addX x1 x2 l).val, ((weierstrass c).addY x1 x2 y1 l).val) := by
  have hx : ((l * l : Nat) : ZMod c.p) - ((x1.val + x2.val : Nat) : ZMod c.p) = (weierstrass c).addX x1 x2 l := by
    simp only [Nat.cast_mul, Nat.cast_add, ZMod.natCast_zmod_val, addX, weierstrass]
    ring
  have hy : (l : ZMod c.p) * (x1 - (weierstrass c).addX x1 x2 l) - y1 = (weierstrass c).addY x1 x2 y1 l := by
    simp only [addY, negAddY, negY_weierstrass]
    ring
  simp only [refChord, subMod_eq_val, Nat.cast_mul, ZMod.natCast_zmod_val, ← hy, ← hx]

/-- ENGINE_REF's test for O: the points are negatives of each other. -/
theorem refAdd_isZero_iff (x1 y1 x2 y2 : ZMod c.p) :
    (x1.val % c.p = x2.val % c.p ∧ (y1.val + y2.val) % c.p = 0) ↔ x1 = x2 ∧ y1 = (weierstrass c).negY x2 y2 := by
  have hx : x1.val % c.p = x2.val % c.p ↔ x1 = x2 := by
    rw [← ZMod.natCast_eq_natCast_iff', ZMod.natCast_zmod_val, ZMod.natCast_zmod_val]
  have hy : (y1.val + y2.val) % c.p = 0 ↔ y1 = -y2 := by
    rw [← Nat.dvd_iff_mod_eq_zero, ← ZMod.natCast_eq_zero_iff, Nat.cast_add, ZMod.natCast_zmod_val,
      ZMod.natCast_zmod_val, eq_neg_iff_add_eq_zero]
  rw [hx, hy, negY_weierstrass]

/-- The l of ENGINE_REF's doubling stands for the slope of the tangent. -/
theorem cast_tangent (x y : ZMod c.p) (hy : y ≠ (weierstrass c).negY x y) :
    (((3 * (x.val * x.val) + c.a) * refInv c.p (2 * y.val) % c.p : Nat) : ZMod c.p)
      = (weierstrass c).slope x x y y := by
  rw [slope_of_Y_ne rfl hy, negY_weierstrass]
  simp only [ZMod.natCast_mod, Nat.cast_mul, Nat.cast_add, cast_refInv, ZMod.natCast_zmod_val, Nat.cast_ofNat,
    weierstrass, div_eq_mul_inv]
  ring

/-- The l of ENGINE_REF's other sums stands for the slope of the chord. -/
theorem cast_chord {x1 x2 : ZMod c.p} (y1 y2 : ZMod c.p) (hx : x1 ≠ x2) :
    ((subMod y2.val y1.val c.p * refInv c.p (subMod x2.val x1.val c.p) % c.p : Nat) : ZMod c.p)
      = (weierstrass c).slope x1 x2 y1 y2 := by
  rw [slope_of_X_ne hx, ← neg_div_neg_eq, neg_sub, neg_sub]
  simp only [ZMod.natCast_mod, Nat.cast_mul, cast_refInv, cast_subMod, ZMod.natCast_zmod_val, div_eq_mul_inv]

/-- `add'` of ENGINE_REF is the group's addition: its cases are those of the group law (40_curve_engine.md R127). -/
theorem refAdd_refOf (g1 g2 : (weierstrass c).Point) :
    refAdd c.p c.a (refOf g1) (refOf g2) = refOf (g1 + g2) := by
  match g1, g2 with
  | .zero, g2 => exact congrArg refOf (zero_add g2).symm
  | .some x1 y1 h1, .zero => exact congrArg refOf (add_zero (Point.some x1 y1 h1)).symm
  | .some x1 y1 h1, .some x2 y2 h2 =>
    simp only [refOf, refAdd, refAdd_isZero_iff]
    by_cases hneg : x1 = x2 ∧ y1 = (weierstrass c).negY x2 y2
    · rw [if_pos hneg, Point.add_of_Y_eq hneg.1 hneg.2]
    · rw [if_neg hneg, Point.add_some hneg]
      by_cases hx : x1 = x2
      · have hyne : y1 ≠ (weierstrass c).negY x2 y2 := fun hy => hneg ⟨hx, hy⟩
        obtain rfl : y1 = y2 := Y_eq_of_Y_ne h1.1 h2.1 hx hyne
        subst hx
        rw [if_pos ⟨rfl, rfl⟩, refChord_eq, cast_tangent x1 y1 hyne]
      · have hval : ¬ (x1.val = x2.val ∧ y1.val = y2.val) := fun h => hx (ZMod.val_injective _ h.1)
        rw [if_neg hval, refChord_eq, cast_chord y1 y2 hx]

/-- Double and add: after the low n bits of k, the multiple that has been built up is 2^n r + (k mod 2^n) g. -/
theorem refMul_refOf (g : (weierstrass c).Point) (k n : Nat) (r : (weierstrass c).Point) :
    refMul c.p c.a (refOf g) k n (refOf r) = refOf (2 ^ n • r + (k % 2 ^ n) • g) := by
  induction n generalizing r with
  | zero => simp [refMul, Nat.mod_one]
  | succ n ih =>
    have hpow : 2 ^ (n + 1) • r = 2 ^ n • (r + r) := by rw [pow_succ, mul_nsmul', two_nsmul]
    rw [refMul, refAdd_refOf, Nat.mod_pow_succ, ← Nat.toNat_testBit, hpow]
    cases k.testBit n with
    | false => simp [ih]
    | true =>
      rw [if_pos rfl, refAdd_refOf, ih, Bool.toNat_true, mul_one, nsmul_add, add_nsmul, add_assoc, add_comm (2 ^ n • g)]

end

end Sys2Proof.Machine
end

section
/-! The statements of the family 40_curve_engine.md, each from the laws above. -/

open Sys2Proof Sys2Proof.Machine Sys2Proof.Claims

namespace Sys2Proof.Proofs

/-- Settles O27: ENGINE_REF's addition is the group's, so its double and add over all bits of k is the multiple by k. -/
theorem referenceEngineMeetsContract : Obligations.ReferenceEngineMeetsContract := by
  rintro c _ ⟨_, _, hp, _⟩ g1 g2 pt1 pt2 h1 h2
  have hg1 : refPoint pt1 = refOf g1 := refPoint_eq_refOf hp h1
  have hg2 : refPoint pt2 = refOf g2 := refPoint_eq_refOf hp h2
  refine ⟨fun k => ?_, ?_⟩
  · have hk : k % 2 ^ bitlen k = k := Nat.mod_eq_of_lt (bitlen_eq_size k ▸ Nat.lt_size_self k)
    have hmul : refMul c.p c.a (refOf g1) k (bitlen k) none = refOf (k • g1) := by
      simpa [hk] using refMul_refOf g1 k (bitlen k) 0
    simp only [engineRef, hg1, hmul, refAnswer_refOf]
  · simp only [engineRef, hg1, hg2, refAdd_refOf, refAnswer_refOf]

/-- Settles O24: with even point fields ECMUL is the completion of the engine's answer. -/
theorem ecmulWritesEngineAnswer : Obligations.EcmulWritesEngineAnswer := by
  intro rd ra rb s hrd hrb
  refine ⟨_, rfl, ?_⟩
  rw [ecmulResult, (pointReg_iff rd).mpr hrd, (pointReg_iff rb).mpr hrb]
  exact endsWithAnswer_complete rd s _

/-- Settles O25: with an even RD, ECMULB is the completion of the engine's answer. -/
theorem ecmulbWritesEngineAnswerForBasePoint : Obligations.EcmulbWritesEngineAnswerForBasePoint := by
  intro rd ra s hrd
  refine ⟨_, rfl, ?_⟩
  rw [ecmulbResult, (pointReg_iff rd).mpr hrd]
  exact endsWithAnswer_complete rd s _

/-- Settles O26: with even point fields ECADD is the completion of the engine's answer. -/
theorem ecaddWritesEngineAnswer : Obligations.EcaddWritesEngineAnswer := by
  intro rd ra rb s hrd hra hrb
  refine ⟨_, rfl, ?_⟩
  rw [ecaddResult, (pointReg_iff rd).mpr hrd, (pointReg_iff ra).mpr hra, (pointReg_iff rb).mpr hrb]
  exact endsWithAnswer_complete rd s _

end Sys2Proof.Proofs
end

section
/-! SUPPORT. How commands end that write one register, that write only flags, and that raise an error (60_exceptions.md
R273, R274), and the residues below a modulus that field arithmetic writes (41_field_arith.md R140, R149). -/

namespace Sys2Proof.Machine

open Sys2Proof.Claims

variable {s : State}

/-! ### Flags and the three ways to end -/

/-- No command writes the settings: its writes stay inside the frame of commands, and completing keeps them. -/
theorem keepsSettings_finish {u : State} (h : CommandFrame s u) (code : ErrCode) : KeepsSettings s (u.finish code) :=
  ⟨h.ie, h.lock, h.bufSrc, h.bufDst, h.bufLen, h.edw, h.curve, h.rdata, h.inputs⟩

theorem completes_finish {u : State} (h : CommandFrame s u) (code : ErrCode) : Completes s (u.finish code) code := by
  have hcount : (u.cmdcnt + 1#32).toNat = (s.cmdcnt.toNat + 1) % 2 ^ 32 := by rw [h.cmdcnt, BitVec.toNat_add]; rfl
  exact ⟨rfl, rfl, rfl, hcount, h.accerr⟩

/-- Register contents are equal where the integers they hold are (10_state.md R33). -/
theorem eqFlag_eq (x y : Big) : eqFlag x y = decide (x.toNat = y.toNat) := by
  rw [eqFlag, beq_eq_decide, decide_eq_decide]
  exact BitVec.toNat_inj.symm

theorem zeroFlag_eq (x : Big) : zeroFlag x = decide (x.toNat = 0) :=
  (eqFlag_eq x 0#512).trans (by rw [BitVec.toNat_zero])

/-- IN as 41_field_arith.md R147 writes it. -/
theorem inRangeFlag_eq (x m : Nat) : inRangeFlag x m = decide (0 < x ∧ x < m) := (Bool.decide_and ..).symm

theorem writesReg_complete (s : State) (rd : Reg) (x : Big) :
    WritesReg rd x.toNat s (s.complete (.ok (s.writeResult rd x))) := by
  have hrd : (s.v.set rd x)[rd] = x := (getElem_set_reg s.v rd rd x).trans (if_pos rfl)
  have hflags : (s.writeResult rd x).flags = { s.flags with z := decide (x.toNat = 0) } := by
    rw [State.writeResult_flags, zeroFlag_eq]
  have hothers : KeepsRegsBut [rd] s (s.writeResult rd x) := fun q hq =>
    (getElem_set_reg s.v rd q x).trans (if_neg fun h => hq (List.mem_singleton.mpr h.symm))
  have hframe : CommandFrame s (s.writeResult rd x) := frame_writeResult s rd x
  exact ⟨congrArg BitVec.toNat hrd, hflags, hothers, fun _ => rfl, rfl, keepsSettings_finish hframe .none,
    completes_finish hframe .none⟩

theorem writesReg_complete_toBig (s : State) (rd : Reg) {x : Nat} (hx : x < 2 ^ 512) :
    WritesReg rd x s (s.complete (.ok (s.writeResult rd (toBig x)))) := by
  have h := writesReg_complete s rd (toBig x)
  rwa [toNat_toBig hx] at h

theorem writesFlagsOnly_complete (s : State) (f : Flags) :
    WritesFlagsOnly f s (s.complete (.ok { s with flags := f })) :=
  ⟨rfl, fun _ _ => rfl, fun _ => rfl, rfl, ⟨rfl, rfl, rfl, rfl, rfl, rfl, rfl, rfl, rfl⟩,
    ⟨rfl, rfl, rfl, BitVec.toNat_add .., rfl⟩⟩

theorem failsWith_complete (s : State) (code : ErrCode) : FailsWith code s (s.complete (.error code)) := rfl

/-! ### The modulus (41_field_arith.md R140) -/

section

variable {ms : ModSel}

theorem modulus_eq_modulusOf (s : State) (ms : ModSel) : s.modulus ms = modulusOf ms s := by cases ms <;> rfl

/-- Both moduli stand in registers of 512 bits, so a value that is at most M fits one (41_field_arith.md R149). -/
theorem modulusOf_lt (s : State) (ms : ModSel) : modulusOf ms s < 2 ^ 512 := by
  unfold modulusOf
  split <;> omega

theorem withModulus_of_zero (hm : modulusOf ms s = 0) (k : Nat → Result) :
    s.withModulus ms k = .error .badModulus := by
  rw [State.withModulus, modulus_eq_modulusOf, if_pos hm]

theorem withModulus_of_ne_zero (hm : modulusOf ms s ≠ 0) (k : Nat → Result) :
    s.withModulus ms k = k (modulusOf ms s) := by
  rw [State.withModulus, modulus_eq_modulusOf, if_neg hm]

/-- A command that begins with the check of M is BAD_MODULUS where M = 0, whatever would follow. -/
theorem fails_badModulus {i : Instr} {k : Nat → Result} (hm : modulusOf ms s = 0)
    (hexec : exec i s = .next (s.complete (s.withModulus ms k))) :
    ∃ t, exec i s = .next t ∧ FailsWith .badModulus s t := by
  rw [withModulus_of_zero hm] at hexec
  exact ⟨_, hexec, failsWith_complete s .badModulus⟩

theorem writesReg_withModulus (hm : modulusOf ms s ≠ 0) (rd : Reg) (f : Nat → Nat)
    (hf : f (modulusOf ms s) ≤ modulusOf ms s) :
    WritesReg rd (f (modulusOf ms s)) s
      (s.complete (s.withModulus ms fun m => .ok (s.writeResult rd (toBig (f m))))) := by
  rw [withModulus_of_ne_zero hm]
  exact writesReg_complete_toBig s rd (hf.trans_lt (modulusOf_lt s ms))

/-! ### Residues (00_scope.md R11) -/

theorem isResidue_mod (a : Nat) {m : Nat} (hm : m ≠ 0) : IsResidue a m (a % m) := by
  refine ⟨Nat.mod_lt a (Nat.pos_of_ne_zero hm), ?_⟩
  rw [Int.natCast_mod]
  exact Int.dvd_self_sub_emod

theorem isResidue_subMod (a b : Nat) {m : Nat} (hm : m ≠ 0) : IsResidue ((a : Int) - b) m (subMod a b m) := by
  refine ⟨subMod_lt a b m hm, ?_⟩
  rw [subMod_cast a b m hm]
  exact Int.dvd_self_sub_emod

/-- A command whose meaning is "write f(M) to V[rd]" writes the residue of z, where f(M) is that residue. -/
theorem writes_residue {z : Int} {i : Instr} {rd : Reg} (f : Nat → Nat)
    (hexec : exec i s = .next (s.complete (s.withModulus ms fun m => .ok (s.writeResult rd (toBig (f m))))))
    (hres : IsResidue z (modulusOf ms s) (f (modulusOf ms s))) :
    ∃ r t, IsResidue z (modulusOf ms s) r ∧ exec i s = .next t ∧ WritesReg rd r s t := by
  have hlt : f (modulusOf ms s) < modulusOf ms s := hres.1
  exact ⟨_, _, hres, hexec, writesReg_withModulus (Nat.ne_zero_of_lt hlt) rd f hlt.le⟩

end

/-! ### MREDNZ (41_field_arith.md R142) -/

theorem zeroToOne_ne_zero (r : Nat) : zeroToOne r ≠ 0 := by
  unfold zeroToOne
  split
  · exact one_ne_zero
  · assumption

/-- The substitution can leave [0, m), but only for m = 1, where it answers 1. -/
theorem zeroToOne_le {r m : Nat} (h : r < m) : zeroToOne r ≤ m := by
  unfold zeroToOne
  split
  · exact Nat.one_le_of_lt h
  · exact h.le

/-! ### MINV (41_field_arith.md R146) -/

/-- The residue's gcd with m is that of the value itself. -/
theorem invMod_eq_none_iff_not_coprime {a m : Nat} : invMod a m = none ↔ ¬ Nat.Coprime a m := by
  rw [invMod_eq_none, ← Nat.gcd_rec, Nat.gcd_comm, Nat.coprime_iff_gcd_eq_one]

theorem minvResult_of_coprime {rd ra : Reg} {m : Nat} (hm : m ≠ 0) (h : Nat.Coprime s.v[ra].toNat m) :
    ∃ r, r < m ∧ s.v[ra].toNat * r % m = 1 % m ∧ minvResult rd ra s m = .ok (s.writeResult rd (toBig r)) := by
  obtain ⟨r, hr⟩ := Option.ne_none_iff_exists'.mp fun hnone => invMod_eq_none_iff_not_coprime.mp hnone h
  obtain ⟨-, hlt, hinv⟩ := invMod_eq_some hm hr
  have hresult : minvResult rd ra s m = .ok (s.writeResult rd (toBig r)) := by
    rw [minvResult, State.natV, State.getV, hr]
  exact ⟨r, hlt, hinv, hresult⟩

theorem minvResult_of_not_coprime {rd ra : Reg} {m : Nat} (h : ¬ Nat.Coprime s.v[ra].toNat m) :
    minvResult rd ra s m = .error .notInvertible := by
  rw [minvResult, State.natV, State.getV, invMod_eq_none_iff_not_coprime.mpr h]

end Sys2Proof.Machine
end

section
/-! The statements of the family 41_field_arith.md, each from the laws above. -/

open Sys2Proof Sys2Proof.Machine Sys2Proof.Claims

namespace Sys2Proof.Proofs

/-- Settles O18: each of the four meanings writes a function of M that is the residue of its exact value. -/
theorem modularResultsAreResidues : Obligations.ModularResultsAreResidues := by
  intro rd ra rb ms s hm
  refine ⟨?mred, ?madd, ?msub, ?mmul⟩
  case mred => exact writes_residue (s.natV ra % ·) rfl (isResidue_mod _ hm)
  case madd => exact writes_residue ((s.natV ra + s.natV rb) % ·) rfl (isResidue_mod _ hm)
  case msub => exact writes_residue (subMod (s.natV ra) (s.natV rb) ·) rfl (isResidue_subMod _ _ hm)
  case mmul => exact writes_residue ((s.natV ra * s.natV rb) % ·) rfl (isResidue_mod _ hm)

/-- Settles O19: the value written is at most M, so it fits the register, and it is not 0, so Z = 0. -/
theorem mrednzReplacesZeroByOne : Obligations.MrednzReplacesZeroByOne := by
  intro rd ra ms s hm
  have hres : IsResidue s.v[ra].toNat (modulusOf ms s) (s.v[ra].toNat % modulusOf ms s) := isResidue_mod _ hm
  have hwrites := writesReg_withModulus hm rd (fun m => zeroToOne (s.natV ra % m)) (zeroToOne_le hres.1)
  have ⟨_, hflags, _⟩ := hwrites
  refine ⟨_, _, hres, rfl, hwrites, ?_⟩
  rw [hflags]
  exact decide_eq_false (zeroToOne_ne_zero _)

/-- Settles O20: MINV is the completion of what the extended Euclidean algorithm finds, and it finds an inverse exactly
for the values coprime to M. -/
theorem minvWritesInverseOrReportsNotInvertible : Obligations.MinvWritesInverseOrReportsNotInvertible := by
  intro rd ra ms s hm
  refine ⟨_, rfl, ?_⟩
  rw [withModulus_of_ne_zero hm]
  split
  · next hcop =>
    obtain ⟨r, hlt, hinv, hresult⟩ := minvResult_of_coprime (rd := rd) hm hcop
    rw [hresult]
    exact ⟨r, hlt, hinv, writesReg_complete_toBig s rd (hlt.trans (modulusOf_lt s ms))⟩
  · next hcop =>
    rw [minvResult_of_not_coprime hcop]
    exact failsWith_complete s .notInvertible

/-- Settles O21: with M > 0 RCHK is the completion of one write of IN. -/
theorem rchkTestsRange : Obligations.RchkTestsRange := by
  intro ra ms s hm
  refine ⟨_, rfl, ?_⟩
  rw [withModulus_of_ne_zero hm, inRangeFlag_eq]
  exact writesFlagsOnly_complete s _

/-- Settles O22: CMPEQ is the completion of one write of EQ, and two registers are equal where their integers are. -/
theorem cmpeqComparesWholeRegisters : Obligations.CmpeqComparesWholeRegisters := by
  intro ra rb s
  refine ⟨_, rfl, ?_⟩
  rw [eqFlag_eq]
  exact writesFlagsOnly_complete s _

/-- Settles O23: each of the seven commands begins with the check of M. -/
theorem zeroModulusIsBadModulus : Obligations.ZeroModulusIsBadModulus := by
  intro rd ra rb ms s hm
  simp only [List.forall_mem_cons]
  exact ⟨fails_badModulus hm rfl, fails_badModulus hm rfl, fails_badModulus hm rfl, fails_badModulus hm rfl,
    fails_badModulus hm rfl, fails_badModulus hm rfl, fails_badModulus hm rfl, List.forall_mem_nil _⟩

end Sys2Proof.Proofs
end

section
/-! SUPPORT. Regions of BUF as integers in either byte order (00_scope.md R13, 20_memory.md R65), and what LDB and STB
give by their first failing check (42_transfer.md R173, R174). -/

namespace Sys2Proof.Machine

open Sys2Proof.Claims

/-! ### Byte strings as weighted sums -/

/-- A byte weighs in little-endian order what its mirror image weighs in big-endian order. -/
theorem weight_be_rev {n : Nat} (i : Fin n) : weight .be n i.rev = weight .le n i := by
  have hi : n - 1 - (n - (i + 1)) = i := by omega
  simp only [weight, Fin.val_rev, hi]

theorem intLE_ofFn {n : Nat} (f : Fin n → Byte) :
    intLE (List.ofFn f) = ∑ i : Fin n, (f i).toNat * weight .le n i := by
  rw [intLE_eq_sum]
  exact Fintype.sum_equiv (finCongr List.length_ofFn) _ _ fun i => by
    rw [Fin.getElem_fin, List.getElem_ofFn]
    rfl

/-- Both integers of a byte string are the sum of its bytes by weight. -/
theorem ofBytes_ofFn (o : ByteOrder) {n : Nat} (f : Fin n → Byte) :
    ofBytes o (List.ofFn f) = ∑ i : Fin n, (f i).toNat * weight o n i := by
  cases o with
  | le => exact intLE_ofFn f
  | be =>
    have hrev : (List.ofFn f).reverse = List.ofFn fun i : Fin n => f i.rev :=
      List.ext_getElem (by simp) fun i _ _ => by simp [List.getElem_reverse, Fin.rev, Nat.sub_sub, Nat.add_comm 1]
    calc intLE (List.ofFn f).reverse
        = ∑ i : Fin n, (f i.rev).toNat * weight .le n i := by rw [hrev, intLE_ofFn]
      _ = ∑ i : Fin n, (f i).toNat * weight .be n i :=
          Fintype.sum_equiv Fin.revPerm _ _ fun i => by rw [Fin.revPerm_apply, weight_be_rev]

/-- The region that commands read, as the statements name its bytes. -/
theorem bufRead_eq_bufString (s : State) (off n : Nat) : s.bufRead off n = bufString s off n :=
  List.ext_getElem (by simp [State.bufRead, bufString]) fun i _ _ => by
    simp only [State.bufRead, bufString, Memory.getElem_readBytes, List.getElem_ofFn]

theorem ofBytes_bufRead (o : ByteOrder) (s : State) (off n : Nat) :
    ofBytes o (s.bufRead off n) = ∑ i ∈ Finset.range n, (s.buf.read (off + i)).toNat * weight o n i := by
  rw [bufRead_eq_bufString, bufString, ofBytes_ofFn, Finset.sum_range]

theorem pow_256_eq_two_pow (n : Nat) : 256 ^ n = 2 ^ (8 * n) := (pow_mul 2 8 n).symm

/-- At most 64 bytes fit a register. -/
theorem ofBytes_bufRead_lt (o : ByteOrder) (s : State) (off : Nat) {n : Nat} (hn : n ≤ 64) :
    ofBytes o (s.bufRead off n) < 2 ^ 512 := by
  have hlen : (s.bufRead off n).length = n := Memory.length_readBytes s.buf off n
  have hlt := ofBytes_lt o (s.bufRead off n)
  have hbits : 8 * n ≤ 512 := by omega
  rw [hlen] at hlt
  calc ofBytes o (s.bufRead off n) < 256 ^ n := hlt
    _ = 2 ^ (8 * n) := pow_256_eq_two_pow n
    _ ≤ 2 ^ 512 := pow_le_pow_right₀ one_le_two hbits

/-- Each byte of a value is the value's digit at that byte's weight. -/
theorem toNat_getElem_toBytes (o : ByteOrder) (n v i : Nat) (h : i < (toBytes o n v).length) :
    (toBytes o n v)[i].toNat = v / weight o n i % 256 := by
  cases o with
  | be => exact congrArg BitVec.toNat (getElem_beBytes n v i h)
  | le => exact congrArg BitVec.toNat (getElem_leBytes n v i h)

/-! ### LDB and STB by their first failing check -/

/-- The check of a region to load or store: longer than MAX_LD, or not inside BUF. -/
theorem regionCheck_iff (off n : Nat) :
    (n > Config.maxLd || !inBuf off n) = true ↔ 64 < n ∨ ¬ Legal off n := by
  rw [Bool.or_eq_true, decide_eq_true_iff, Bool.not_eq_true', inBuf, decide_eq_false_iff_not]
  rfl

theorem ldbResult_eq (rd : Reg) (o : ByteOrder) (s : State) :
    ldbResult rd o s =
      if 64 < s.bufLen.toNat ∨ ¬ Legal s.bufSrc.toNat s.bufLen.toNat then .error .length
      else .ok (s.writeResult rd (toBig (ofBytes o (s.bufRead s.bufSrc.toNat s.bufLen.toNat)))) :=
  if_congr (regionCheck_iff s.src s.len) rfl rfl

theorem stbResult_eq (ra : Reg) (o : ByteOrder) (s : State) :
    stbResult ra o s =
      if 64 < s.bufLen.toNat ∨ ¬ Legal s.bufDst.toNat s.bufLen.toNat then .error .length
      else if 2 ^ (8 * s.bufLen.toNat) ≤ s.v[ra].toNat then .error .operandRange
      else .ok (s.bufWrite s.bufDst.toNat (toBytes o s.bufLen.toNat s.v[ra].toNat)) :=
  if_congr (regionCheck_iff s.dst s.len) rfl rfl

/-- LDB of a region that passes its check writes the region's integer, which fits the register, and nothing else. -/
theorem writesReg_ldb (rd : Reg) (o : ByteOrder) {s : State} (hlen : s.bufLen.toNat ≤ 64)
    (hlegal : Legal s.bufSrc.toNat s.bufLen.toNat) :
    WritesReg rd (ofBytes o (s.bufRead s.bufSrc.toNat s.bufLen.toNat)) s (s.complete (ldbResult rd o s)) := by
  rw [ldbResult_eq, if_neg (by omega)]
  exact writesReg_complete_toBig s rd (ofBytes_bufRead_lt o s _ hlen)

/-! ### What a store of a value leaves in BUF -/

theorem keepsBytesBut_bufWrite_toBytes (s : State) (off n : Nat) (o : ByteOrder) (v : Nat) :
    KeepsBytesBut off n s (s.bufWrite off (toBytes o n v)) := fun a ha =>
  Memory.read_writeBytes_other s.buf off (toBytes o n v) a (by rwa [length_toBytes])

section

variable {s : State} {off n : Nat}

theorem toNat_read_bufWrite_toBytes (o : ByteOrder) (v : Nat) (hwf : Memory.wf s.buf) (hlegal : Legal off n) {i : Nat}
    (hi : i < n) : ((s.bufWrite off (toBytes o n v)).buf.read (off + i)).toNat = v / weight o n i % 256 := by
  have hi' : i < (toBytes o n v).length := by rwa [length_toBytes]
  rw [State.bufWrite_buf, Memory.read_writeBytes_at off _ i hi' hwf (by rwa [length_toBytes]), toNat_getElem_toBytes]

/-- The region a value was stored to reads as the value's bytes. -/
theorem bufRead_bufWrite_toBytes (o : ByteOrder) (v : Nat) (hwf : Memory.wf s.buf) (hlegal : Legal off n) :
    (s.bufWrite off (toBytes o n v)).bufRead off n = toBytes o n v := by
  have hback := Memory.readBytes_writeBytes off (toBytes o n v) hwf (by rwa [length_toBytes])
  rwa [length_toBytes] at hback

end

/-- The state in which STB ends that stores its value. -/
def stored (ra : Reg) (o : ByteOrder) (s : State) : State :=
  s.complete (.ok (s.bufWrite s.bufDst.toNat (toBytes o s.bufLen.toNat s.v[ra].toNat)))

theorem exec_stb_of_fits (ra : Reg) (o : ByteOrder) {s : State} (hlen : s.bufLen.toNat ≤ 64)
    (hlegal : Legal s.bufDst.toNat s.bufLen.toNat) (hfits : s.v[ra].toNat < 2 ^ (8 * s.bufLen.toNat)) :
    exec (.stb ra o) s = .next (stored ra o s) := by
  have hexec : exec (.stb ra o) s = .next (s.complete (stbResult ra o s)) := rfl
  rw [hexec, stbResult_eq, if_neg (by omega), if_neg (by omega), stored]

theorem bufRead_stored (ra : Reg) (o : ByteOrder) {s : State} (hwf : Memory.wf s.buf)
    (hlegal : Legal s.bufDst.toNat s.bufLen.toNat) :
    (stored ra o s).bufRead s.bufDst.toNat s.bufLen.toNat = toBytes o s.bufLen.toNat s.v[ra].toNat :=
  bufRead_bufWrite_toBytes o s.v[ra].toNat hwf hlegal

end Sys2Proof.Machine
end

section
/-! The statements of the family 42_transfer.md, each from the laws above. -/

open Sys2Proof Sys2Proof.Machine Sys2Proof.Claims

namespace Sys2Proof.Proofs

/-- Settles O15: LDB is the completion of a write of the region's integer, or of LENGTH where the check fails. -/
theorem ldbLoadsIntegerOrReportsLength : Obligations.LdbLoadsIntegerOrReportsLength := by
  intro rd order s
  refine ⟨_, rfl, ?_⟩
  split
  · next hpasses =>
    obtain ⟨hlen, hlegal⟩ := hpasses
    rw [← ofBytes_bufRead]
    exact writesReg_ldb rd order hlen hlegal
  · next hrefused =>
    rw [ldbResult_eq, if_pos (by omega)]
    exact failsWith_complete s .length

/-- Settles O16: STB's checks are those of the statement, and past them it is the completion of one write of BUF. -/
theorem stbStoresFixedWidthOrRefuses : Obligations.StbStoresFixedWidthOrRefuses := by
  intro ra order s hwf
  refine ⟨_, rfl, ?_⟩
  rw [stbResult_eq]
  split_ifs with hregion hrange
  · exact failsWith_complete s .length
  · exact failsWith_complete s .operandRange
  · have hlegal : Legal s.bufDst.toNat s.bufLen.toNat := by omega
    have hframe := frame_bufWrite s s.bufDst.toNat (toBytes order s.bufLen.toNat s.v[ra].toNat)
    exact ⟨fun i hi => toNat_read_bufWrite_toBytes order _ hwf hlegal hi, keepsBytesBut_bufWrite_toBytes s _ _ order _,
      fun _ _ => rfl, rfl, rfl, keepsSettings_finish hframe .none, completes_finish hframe .none⟩

/-- Settles O17: the stored region reads as the bytes of the value, of which LDB takes the integer and of which the two
orders are each other's reversal. -/
theorem stbLdbFamilyLaws : Obligations.StbLdbFamilyLaws := by
  intro ra s hwf hlen hlegal hfits
  have hstb (o : ByteOrder) : exec (.stb ra o) s = .next (stored ra o s) := exec_stb_of_fits ra o hlen hlegal hfits
  have hregion (o : ByteOrder) := bufRead_stored ra o hwf hlegal
  refine ⟨?returns, ?reverses⟩
  case returns =>
    intro rd order hsrc
    have hvalue : ofBytes order ((stored ra order s).bufRead s.bufSrc.toNat s.bufLen.toNat) = s.v[ra].toNat := by
      rw [hsrc, hregion, ofBytes_toBytes order _ _ (by rwa [pow_256_eq_two_pow])]
    obtain ⟨hload, -, -, -, -, -, herr, -⟩ := writesReg_ldb (s := stored ra order s) rd order hlen (hsrc ▸ hlegal)
    exact ⟨_, _, hstb order, rfl, rfl, herr, BitVec.eq_of_toNat_eq (hload.trans hvalue)⟩
  case reverses =>
    refine ⟨_, _, hstb .le, rfl, hstb .be, rfl, ?_⟩
    rw [← bufRead_eq_bufString, ← bufRead_eq_bufString, hregion, hregion, toBytes_le_eq_reverse]

/-- Settles O12: NOP is the completion of the state as it was. -/
theorem nopOnlyCompletes : Obligations.NopOnlyCompletes :=
  fun s => ⟨_, rfl, writesFlagsOnly_complete s s.flags⟩

/-- Settles O13: MOV is the completion of one register write. -/
theorem movCopiesRegister : Obligations.MovCopiesRegister :=
  fun rd ra s => ⟨_, rfl, writesReg_complete s rd s.v[ra]⟩

/-- Settles O14: LDI is the completion of one register write, and zero-extension keeps the immediate's integer. -/
theorem ldiLoadsZeroExtendedImmediate : Obligations.LdiLoadsZeroExtendedImmediate := by
  intro rd imm s
  have himm : (immBig imm).toNat = imm.toNat := BitVec.toNat_setWidth_of_le (by decide)
  refine ⟨_, rfl, ?_⟩
  rw [← himm]
  exact writesReg_complete s rd (immBig imm)

end Sys2Proof.Proofs
end

section
/-! SUPPORT. The KDF mask byte by byte (43_kdf_ecies.md R192), the checks that the commands of the family share, and the
byte strings that KDFX and HTAG store (R193 to R197). -/

namespace Sys2Proof.Machine

open Sys2Proof.Claims

/-! ### The KDF mask -/

/-- `be_n(v)` of the model is the byte string that the statements name (00_scope.md R13). -/
theorem beBytes_eq_beString (n v : Nat) : beBytes n v = beString n v :=
  List.ext_getElem (by simp [beString]) fun i _ _ => by
    simp only [getElem_beBytes, beString, List.getElem_ofFn, pow_256_eq_two_pow]

section

variable (hash : Config.Hash) (x y : Nat)

@[simp] theorem length_kdfBlock (c : Nat) : (kdfBlock hash x y c).length = 32 := Vector.length_toList

@[simp] theorem length_kdfBlocks (k c : Nat) : (kdfBlocks hash x y k c).length = 32 * k := by
  induction k generalizing c with
  | zero => rfl
  | succ k ih => rw [kdfBlocks, List.length_append, length_kdfBlock, ih, Nat.mul_succ, Nat.add_comm]

theorem getElem_kdfBlock (c : Nat) {i : Nat} (h : i < (kdfBlock hash x y (c + 1)).length) :
    (kdfBlock hash x y (c + 1))[i] = maskByte hash x y (32 * c + i) := by
  have hi : i < 32 := by rwa [length_kdfBlock] at h
  have hcounter : (32 * c + i) / 32 = c := by omega
  have hbyte : Fin.ofNat 32 (32 * c + i) = ⟨i, hi⟩ := Fin.ext (show (32 * c + i) % 32 = i by omega)
  simp only [kdfBlock, coordBytes, maskByte, beBytes_eq_beString, hcounter, hbyte, Vector.getElem_toList,
    Fin.getElem_fin]

/-- The counter starts at 1, so the blocks from c + 1 on begin with byte 32 c of the stream. -/
theorem getElem_kdfBlocks (k c : Nat) {i : Nat} (h : i < (kdfBlocks hash x y k (c + 1)).length) :
    (kdfBlocks hash x y k (c + 1))[i] = maskByte hash x y (32 * c + i) := by
  induction k generalizing c i with
  | zero => exact absurd h (Nat.not_lt_zero i)
  | succ k ih =>
    simp only [kdfBlocks, List.getElem_append, length_kdfBlock]
    split
    · exact getElem_kdfBlock hash x y c _
    · rw [ih (c + 1)]
      congr 1
      omega

/-- The blocks KDF concatenates are at least n bytes, so its truncation has n. -/
theorem le_length_kdfBlocks (n c : Nat) : n ≤ (kdfBlocks hash x y (ceilDiv n Config.hashLen) c).length := by
  rw [length_kdfBlocks, ceilDiv, Config.hashLen]
  omega

theorem kdf_eq_ofFn (n : Nat) : kdf hash x y n = List.ofFn fun i : Fin n => maskByte hash x y i :=
  List.ext_getElem (by simpa [kdf] using le_length_kdfBlocks hash x y n 1) fun i _ _ => by
    simp only [kdf, List.getElem_take, getElem_kdfBlocks hash x y _ 0, List.getElem_ofFn, Nat.mul_zero, Nat.zero_add]

@[simp] theorem length_kdf (n : Nat) : (kdf hash x y n).length = n := by rw [kdf_eq_ofFn, List.length_ofFn]

theorem getElem_kdf (n : Nat) {i : Nat} (h : i < (kdf hash x y n).length) :
    (kdf hash x y n)[i] = maskByte hash x y i := by
  simp only [kdf_eq_ofFn, List.getElem_ofFn]

/-- MZ of a mask (43_kdf_ecies.md R194). -/
theorem allZero_kdf_iff (n : Nat) :
    allZero (kdf hash x y n) = true ↔ 0 < n ∧ ∀ i, i < n → maskByte hash x y i = 0#8 := by
  have hempty : (kdf hash x y n).isEmpty = false ↔ 0 < n := by
    rw [List.isEmpty_eq_false_iff, ← List.length_pos_iff, length_kdf]
  have hzero : (kdf hash x y n).all (· == 0x00#8) = true ↔ ∀ i, i < n → maskByte hash x y i = 0#8 := by
    simp only [kdf_eq_ofFn, List.all_eq_true, List.forall_mem_ofFn_iff, beq_iff_eq, Fin.forall_iff]
  rw [allZero, Bool.and_eq_true, Bool.not_eq_true', hempty, hzero]

end

/-! ### The checks, and the commands by their first failing check -/

theorem oddCheck_iff (r : Reg) : (!pointReg r) = true ↔ r.val % 2 = 1 := by
  rw [Bool.not_eq_true', ← Bool.not_eq_true, pointReg_iff]
  omega

theorem regionsCheck_iff (off n off' n' : Nat) :
    (!inBuf off n || !inBuf off' n') = true ↔ ¬ Legal off n ∨ ¬ Legal off' n' := by
  simp only [inBuf, Bool.or_eq_true, Bool.not_eq_true', decide_eq_false_iff_not]
  rfl

theorem coordsCheck_iff (x y : Nat) : (!fitsCoord x || !fitsCoord y) = true ↔ 2 ^ 256 ≤ x ∨ 2 ^ 256 ≤ y := by
  simp only [fitsCoord, Bool.or_eq_true, Bool.not_eq_true', decide_eq_false_iff_not, not_lt]

/-- The mask of KDFX: that of the named pair, as long as the region. -/
def kdfxMask (ra : Reg) (s : State) : Bytes := kdf Config.hash s.v[ra].toNat s.v[ra + 1].toNat s.bufLen.toNat

/-- What KDFX stores: the source region XOR the mask (43_kdf_ecies.md R195). -/
def maskedRegion (ra : Reg) (s : State) : Bytes :=
  xorBytes (s.bufRead s.bufSrc.toNat s.bufLen.toNat) (kdfxMask ra s)

/-- What HTAG stores: the tag of the source region under the named pair (43_kdf_ecies.md R196). -/
def regionTag (ra : Reg) (s : State) : Bytes :=
  tagBytes Config.hash s.v[ra].toNat s.v[ra + 1].toNat (s.bufRead s.bufSrc.toNat s.bufLen.toNat)

theorem kdfxResult_eq (ra : Reg) (s : State) :
    kdfxResult Config.hash ra s =
      if ra.val % 2 = 1 then .error .illegalOperand
      else if ¬ Legal s.bufSrc.toNat s.bufLen.toNat ∨ ¬ Legal s.bufDst.toNat s.bufLen.toNat then .error .length
      else if 2 ^ 256 ≤ s.v[ra].toNat ∨ 2 ^ 256 ≤ s.v[ra + 1].toNat then .error .operandRange
      else .ok ((s.bufWrite s.bufDst.toNat (maskedRegion ra s)).setMZ (allZero (kdfxMask ra s))) :=
  if_congr (oddCheck_iff ra) rfl (if_congr (regionsCheck_iff ..) rfl (if_congr (coordsCheck_iff ..) rfl rfl))

theorem htagResult_eq (ra : Reg) (s : State) :
    htagResult Config.hash ra s =
      if ra.val % 2 = 1 then .error .illegalOperand
      else if ¬ Legal s.bufSrc.toNat s.bufLen.toNat ∨ ¬ Legal s.bufDst.toNat 32 then .error .length
      else if 2 ^ 256 ≤ s.v[ra].toNat ∨ 2 ^ 256 ≤ s.v[ra + 1].toNat then .error .operandRange
      else .ok (s.bufWrite s.bufDst.toNat (regionTag ra s)) :=
  if_congr (oddCheck_iff ra) rfl (if_congr (regionsCheck_iff ..) rfl (if_congr (coordsCheck_iff ..) rfl rfl))

/-- EQ of two regions is their equality byte by byte (43_kdf_ecies.md R197). -/
theorem eqBytesFlag_bufRead (s : State) (off off' n : Nat) :
    eqBytesFlag (s.bufRead off n) (s.bufRead off' n) =
      decide (∀ i < n, s.buf.read (off + i) = s.buf.read (off' + i)) := by
  rw [eqBytesFlag, beq_eq_decide, decide_eq_decide, bufRead_eq_bufString, bufRead_eq_bufString, bufString, bufString,
    List.ofFn_inj, funext_iff, Fin.forall_iff]

theorem bcmpResult_eq (s : State) :
    bcmpResult s =
      if ¬ Legal s.bufSrc.toNat s.bufLen.toNat ∨ ¬ Legal s.bufDst.toNat s.bufLen.toNat then .error .length
      else .ok (s.setEQ (decide (∀ i < s.bufLen.toNat,
        s.buf.read (s.bufSrc.toNat + i) = s.buf.read (s.bufDst.toNat + i)))) := by
  rw [← eqBytesFlag_bufRead]
  exact if_congr (regionsCheck_iff ..) rfl rfl

/-! ### The byte strings that are stored -/

theorem keepsBytesBut_bufWrite (s : State) (off : Nat) (b : Bytes) :
    KeepsBytesBut off b.length s (s.bufWrite off b) := Memory.read_writeBytes_other s.buf off b

@[simp] theorem length_maskedRegion (ra : Reg) (s : State) : (maskedRegion ra s).length = s.bufLen.toNat := by
  simp [maskedRegion, kdfxMask, State.bufRead]

theorem getElem_maskedRegion (ra : Reg) (s : State) {i : Nat} (h : i < (maskedRegion ra s).length) :
    (maskedRegion ra s)[i] =
      s.buf.read (s.bufSrc.toNat + i) ^^^ maskByte Config.hash s.v[ra].toNat s.v[ra + 1].toNat i := by
  simp only [maskedRegion, kdfxMask, xorBytes, State.bufRead, List.getElem_zipWith, Memory.getElem_readBytes,
    getElem_kdf]

@[simp] theorem length_regionTag (ra : Reg) (s : State) : (regionTag ra s).length = 32 := Vector.length_toList

theorem getElem_regionTag (ra : Reg) (s : State) (i : Fin 32) (h : i.val < (regionTag ra s).length) :
    (regionTag ra s)[i.val] =
      (Config.hash (beString 32 s.v[ra].toNat ++ bufString s s.bufSrc.toNat s.bufLen.toNat ++
        beString 32 s.v[ra + 1].toNat))[i] := by
  simp only [regionTag, tagBytes, coordBytes, beBytes_eq_beString, bufRead_eq_bufString, Vector.getElem_toList,
    Fin.getElem_fin]

/-! ### KDFX in place -/

/-- The state in which KDFX ends that passes its checks. -/
def masked (ra : Reg) (s : State) : State :=
  s.complete (.ok ((s.bufWrite s.bufDst.toNat (maskedRegion ra s)).setMZ (allZero (kdfxMask ra s))))

theorem exec_kdfx_of_checks {ra : Reg} {s : State} (heven : ra.val % 2 = 0)
    (hsrc : Legal s.bufSrc.toNat s.bufLen.toNat) (hdst : Legal s.bufDst.toNat s.bufLen.toNat)
    (hcoords : s.v[ra].toNat < 2 ^ 256 ∧ s.v[ra + 1].toNat < 2 ^ 256) :
    exec (.kdfx ra) s = .next (masked ra s) := by
  have hexec : exec (.kdfx ra) s = .next (s.complete (kdfxResult Config.hash ra s)) := rfl
  obtain ⟨hx, hy⟩ := hcoords
  have hregion := not_or.mpr ⟨not_not_intro hsrc, not_not_intro hdst⟩
  have hrange := not_or.mpr ⟨hx.not_ge, hy.not_ge⟩
  rw [hexec, kdfxResult_eq, if_neg (by omega), if_neg hregion, if_neg hrange, masked]

@[simp] theorem masked_buf (ra : Reg) (s : State) :
    (masked ra s).buf = s.buf.writeBytes s.bufDst.toNat (maskedRegion ra s) := rfl

@[simp] theorem masked_bufDst (ra : Reg) (s : State) : (masked ra s).bufDst = s.bufDst := rfl

/-- In place, the second mask meets what the first one left, and the XOR of both is nothing (43_kdf_ecies.md R198). -/
theorem maskedRegion_masked (ra : Reg) {s : State} (hwf : Memory.wf s.buf) (hplace : s.bufSrc = s.bufDst)
    (hlegal : Legal s.bufDst.toNat s.bufLen.toNat) :
    maskedRegion ra (masked ra s) = s.bufRead s.bufSrc.toNat s.bufLen.toNat := by
  have hback : (masked ra s).bufRead s.bufSrc.toNat s.bufLen.toNat = maskedRegion ra s := by
    have h := Memory.readBytes_writeBytes s.bufDst.toNat (maskedRegion ra s) hwf (by rwa [length_maskedRegion])
    rw [length_maskedRegion] at h
    rw [hplace]
    exact h
  have hlen : (s.bufRead s.bufSrc.toNat s.bufLen.toNat).length = (kdfxMask ra s).length := by
    simp [State.bufRead, kdfxMask]
  calc maskedRegion ra (masked ra s)
      = xorBytes ((masked ra s).bufRead s.bufSrc.toNat s.bufLen.toNat) (kdfxMask ra s) := rfl
    _ = xorBytes (xorBytes (s.bufRead s.bufSrc.toNat s.bufLen.toNat) (kdfxMask ra s)) (kdfxMask ra s) := by
        rw [hback, maskedRegion]
    _ = s.bufRead s.bufSrc.toNat s.bufLen.toNat := xorBytes_xorBytes _ _ hlen

end Sys2Proof.Machine

namespace Sys2Proof.Machine.Memory

/-- Writing back what a region held undoes a write over the region. -/
theorem writeBytes_readBytes_restores {m : Memory} (off : Nat) (b : Bytes) (h : wf m)
    (hb : off + b.length ≤ Config.bufSize) :
    writeBytes (writeBytes m off b) off (readBytes m off b.length) = m := by
  have hmid : wf (writeBytes m off b) := wf_writeBytes off b h
  have hlen : (readBytes m off b.length).length = b.length := length_readBytes m off b.length
  refine eq_of_read_eq (wf_writeBytes off _ hmid) h fun a => ?_
  by_cases ha : a < off ∨ off + b.length ≤ a
  · rw [read_writeBytes_other _ _ _ _ (by rwa [hlen]), read_writeBytes_other _ _ _ _ ha]
  · obtain ⟨i, rfl⟩ : ∃ i, a = off + i := ⟨a - off, by omega⟩
    rw [read_writeBytes_at off _ i (by omega) hmid (by rwa [hlen]), getElem_readBytes]

end Sys2Proof.Machine.Memory
end

section
/-! The statements of the family 43_kdf_ecies.md, each from the laws above. -/

open Sys2Proof Sys2Proof.Machine Sys2Proof.Claims

namespace Sys2Proof.Proofs

/-- Settles O36: KDFX's checks are those of the statement, and past them it is the completion of one write of the masked
region and of MZ. -/
theorem kdfxXorsMaskOverRegion : Obligations.KdfxXorsMaskOverRegion := by
  intro ra s hwf
  refine ⟨_, rfl, ?_⟩
  rw [kdfxResult_eq]
  split_ifs with hodd hregion hrange
  · exact failsWith_complete s .illegalOperand
  · exact failsWith_complete s .length
  · exact failsWith_complete s .operandRange
  · have hlegal : Legal s.bufDst.toNat s.bufLen.toNat := by omega
    have hbytes (i : Nat) (hi : i < s.bufLen.toNat) :
        (s.buf.writeBytes s.bufDst.toNat (maskedRegion ra s)).read (s.bufDst.toNat + i) =
          s.buf.read (s.bufSrc.toNat + i) ^^^ maskByte Config.hash s.v[ra].toNat s.v[ra + 1].toNat i := by
      rw [Memory.read_writeBytes_at _ _ i (by rwa [length_maskedRegion]) hwf (by rwa [length_maskedRegion]),
        getElem_maskedRegion]
    have hothers := keepsBytesBut_bufWrite s s.bufDst.toNat (maskedRegion ra s)
    rw [length_maskedRegion] at hothers
    have hframe := frame_bufWrite_setMZ s s.bufDst.toNat (maskedRegion ra s) (allZero (kdfxMask ra s))
    exact ⟨hbytes, hothers, allZero_kdf_iff .., rfl, rfl, rfl, fun _ _ => rfl, rfl, keepsSettings_finish hframe .none,
      completes_finish hframe .none⟩

/-- Settles O37: HTAG's checks are those of the statement, and past them it is the completion of a write of the tag. -/
theorem htagStoresTag : Obligations.HtagStoresTag := by
  intro ra s hwf
  refine ⟨_, rfl, ?_⟩
  rw [htagResult_eq]
  split_ifs with hodd hregion hrange
  · exact failsWith_complete s .illegalOperand
  · exact failsWith_complete s .length
  · exact failsWith_complete s .operandRange
  · have hlegal : Legal s.bufDst.toNat 32 := by omega
    have hbytes (i : Fin 32) :
        (s.buf.writeBytes s.bufDst.toNat (regionTag ra s)).read (s.bufDst.toNat + i.val) =
          (Config.hash (beString 32 s.v[ra].toNat ++ bufString s s.bufSrc.toNat s.bufLen.toNat ++
            beString 32 s.v[ra + 1].toNat))[i] := by
      rw [Memory.read_writeBytes_at _ _ i (by simp) hwf (by rwa [length_regionTag]), getElem_regionTag]
    have hothers := keepsBytesBut_bufWrite s s.bufDst.toNat (regionTag ra s)
    rw [length_regionTag] at hothers
    have hframe := frame_bufWrite s s.bufDst.toNat (regionTag ra s)
    exact ⟨hbytes, hothers, rfl, fun _ _ => rfl, rfl, keepsSettings_finish hframe .none, completes_finish hframe .none⟩

/-- Settles O38: BCMP is the completion of one write of EQ, or of LENGTH where a region leaves BUF. -/
theorem bcmpComparesRegions : Obligations.BcmpComparesRegions := by
  intro s
  refine ⟨_, rfl, ?_⟩
  rw [bcmpResult_eq]
  split
  · next hlegal =>
    rw [if_neg (by omega)]
    exact writesFlagsOnly_complete s _
  · next hrefused =>
    rw [if_pos (by omega)]
    exact failsWith_complete s .length

/-- Settles O39: byte i of a mask depends on the pair and on i alone, not on the mask's length. -/
theorem shorterMaskIsPrefix : Obligations.ShorterMaskIsPrefix := by
  intro hash x y m n hmn
  refine ⟨length_kdf hash x y n, List.ext_getElem (by simpa using hmn) fun i _ _ => ?_⟩
  rw [List.getElem_take, getElem_kdf, getElem_kdf]

/-- Settles O40: the second KDFX passes the same checks, stores the region as it was before the first, and so undoes the
first one's write. -/
theorem kdfxTwiceRestoresBuffer : Obligations.KdfxTwiceRestoresBuffer := by
  intro ra s hwf heven hplace hsrc hx hy
  have hdst : Legal s.bufDst.toNat s.bufLen.toNat := hplace ▸ hsrc
  refine ⟨masked ra s, masked ra (masked ra s), exec_kdfx_of_checks heven hsrc hdst ⟨hx, hy⟩, rfl,
    exec_kdfx_of_checks heven hsrc hdst ⟨hx, hy⟩, rfl, ?_⟩
  have hrestores := Memory.writeBytes_readBytes_restores s.bufDst.toNat (maskedRegion ra s) hwf
    (by rwa [length_maskedRegion])
  rw [length_maskedRegion] at hrestores
  rw [masked_buf, masked_bufDst, masked_buf, maskedRegion_masked ra hwf hplace hdst, hplace]
  exact hrestores

end Sys2Proof.Proofs
end

section
/-! SUPPORT. The invariant under each kind of step: a completion, an accepted write, any other access, a reset (10_state.md
R23, R24, R37, R39; 20_memory.md R64; 44_coord_transform.md R222). -/

namespace Sys2Proof.Machine

open Sys2Proof.Safety

variable {s t : State}

/-! ### Completion -/

/-- A residue of P fits a register, since P itself does (41_field_arith.md R149). -/
theorem toNat_toBig_of_lt_p {n : Nat} (h : n < s.curve.p.toNat) : (toBig n).toNat = n :=
  toNat_toBig (h.trans (modulusOf_lt s .p))

/-- A cache that was empty and is filled holds EdConsts() as computed: residues of P, which fit their registers. -/
theorem cacheCoherent_of_filled {es et : Nat} (hp : s.curve.p.toNat ≠ 0)
    (hconsts : edConsts s.curve.p.toNat s.curve.e.toNat s.curve.d.toNat = .ok (es, et))
    (hcache : s.cache = ⟨true, toBig es, toBig et⟩) : CacheCoherent s := by
  intro _
  obtain ⟨hes, het⟩ := edConsts_lt hp hconsts
  rw [hcache, toNat_toBig_of_lt_p hes, toNat_toBig_of_lt_p het]
  exact ⟨hp, hconsts⟩

theorem CommandFrame.cacheCoherent (h : CommandFrame s t) (hs : CacheCoherent s) : CacheCoherent t := by
  rcases h.cache with hsame | ⟨-, -, hp, es, et, hconsts, hfilled⟩
  · rw [CacheCoherent, hsame, h.curve]
    exact hs
  · rw [← h.curve] at hp hconsts
    exact cacheCoherent_of_filled hp hconsts hfilled

/-- The cache is filled on a curve with EDW = 1 only (44_coord_transform.md R220). -/
theorem CommandFrame.validNeedsEdwards (h : CommandFrame s t) (hs : ValidNeedsEdwards s) : ValidNeedsEdwards t := by
  rcases h.cache with hsame | ⟨-, hedw, -⟩
  · rw [ValidNeedsEdwards, hsame, h.edw]
    exact hs
  · exact fun _ => h.edw.trans hedw

/-- A completion leaves the block idle, so its DONE = 1 is allowed. -/
theorem completionStep_keeps_inv (h : Inv s) (hstep : completionStep s = .next t) : Inv t := by
  rcases completionStep_next hstep with ⟨-, rfl⟩ | ⟨c, u, code, -, hframe, rfl⟩
  · exact h
  · obtain ⟨hwf, hcache, -, hvalid⟩ := h
    exact ⟨hframe.buf hwf, hframe.cacheCoherent hcache, fun _ => rfl, hframe.validNeedsEdwards hvalid⟩

/-! ### Resets -/

/-- A soft reset empties BUF and clears DONE, and keeps the cache with the registers it was computed from
(70_reset_and_hazards.md R313). -/
theorem inv_softReset (hcache : CacheCoherent s) (hvalid : ValidNeedsEdwards s) : Inv s.softReset :=
  ⟨Memory.wf_nil, hcache, fun _ => rfl, hvalid⟩

theorem inv_hardwareReset (s : State) : Inv s.hardwareReset :=
  Proofs.invariantHoldsAtReset

/-! ### Accesses -/

/-- A state whose cache is not valid meets the two clauses about a valid one. -/
theorem inv_of_invalid (hwf : Memory.wf s.buf) (hdone : DoneOnlyIdle s) (hedv : s.cache.edv = false) : Inv s :=
  ⟨hwf, fun h => by simp [hedv] at h, hdone, fun h => by simp [hedv] at h⟩

/-- A curve register that does not feed the cache is none of P, E and D (10_state.md R39). -/
theorem edConsts_args_of_not_feedsCache {r : CurveReg} (h : r.feedsCache = false) (c : CurveRegs) (x : Big) :
    (c.set r x).p = c.p ∧ (c.set r x).e = c.e ∧ (c.set r x).d = c.d := by
  cases r with
  | p | e | d => cases h
  | q | a | b | gx | gy => exact ⟨rfl, rfl, rfl⟩

/-- A write of P, E or D drops the cache; a write of another curve register leaves EdConsts() as it was. -/
theorem inv_writeCurve (h : Inv s) (r : CurveReg) (j : Fin 16) (w : Word32) : Inv (s.writeCurve r j w) := by
  obtain ⟨hwf, hcache, hdone, hvalid⟩ := h
  rw [writeCurve_eq]
  cases hfeeds : r.feedsCache with
  | true => exact inv_of_invalid hwf hdone (Bool.and_false _)
  | false =>
    obtain ⟨hp, he, hd⟩ := edConsts_args_of_not_feedsCache hfeeds s.curve (setWord (s.curve.get r) j w)
    refine ⟨hwf, ?_, hdone, ?_⟩
    · simpa only [CacheCoherent, hp, he, hd, Bool.not_false, Bool.and_true] using hcache
    · simpa only [ValidNeedsEdwards, Bool.not_false, Bool.and_true] using hvalid

/-- What each register's write does to the four clauses. -/
theorem inv_writeReg (h : Inv s) (w : Word32) (r : MmioReg) : Inv (writeReg s w r) := by
  obtain ⟨hwf, hcache, hdone, hvalid⟩ := h
  cases r with
  | id | psize | cmdcnt | eds | edt | bufSrc | bufDst | bufLen | v => exact ⟨hwf, hcache, hdone, hvalid⟩
  | ctrl =>
    cases hb : w.getLsbD 2
    · rw [writeReg, writeCtrl_keeps hb]
      exact ⟨hwf, hcache, hdone, hvalid⟩
    · rw [writeReg, writeCtrl_softResets hb]
      exact inv_softReset hcache hvalid
  | status => exact ⟨hwf, hcache, fun hd => hdone (Bool.and_eq_true_iff.mp hd).left, hvalid⟩
  | cmd => exact ⟨hwf, hcache, fun hd => Bool.noConfusion hd, hvalid⟩
  | curveCfg => exact inv_of_invalid hwf hdone rfl
  | curve r j => exact inv_writeCurve ⟨hwf, hcache, hdone, hvalid⟩ r j w
  | buf j => exact ⟨Memory.wf_writeBytes _ _ hwf, hcache, hdone, hvalid⟩

theorem hostAccess_keeps_inv (h : Inv s) (a : Access) : Inv (hostAccess s a) := by
  rcases hostAccess_cases s a with e | e | ⟨off, r, _, _, _, e⟩ | ⟨off, r, w, _, _, _, e⟩ <;> rw [e]
  · exact h
  · rw [refuse_eq]
    exact h
  · exact h
  · exact inv_writeReg h w r

end Sys2Proof.Machine
end

section
/-! The invariant of the machine, from the laws above. -/

open Sys2Proof Sys2Proof.Machine Sys2Proof.Claims

namespace Sys2Proof.Proofs

/-- Settles O57: by the kinds of step; no clause of the invariant speaks of the inputs that are still to come. -/
theorem everyStepKeepsTheInvariant : Obligations.EveryStepKeepsTheInvariant := by
  intro s t h hstep
  rcases step_cases s with ⟨_, e⟩ | ⟨a, rest, _, e⟩ | ⟨rest, _, e⟩ | ⟨rest, _, e⟩ <;> rw [e] at hstep
  · exact completionStep_keeps_inv h hstep
  · cases hstep
    exact hostAccess_keeps_inv (s := { s with inputs := rest }) h a
  · exact completionStep_keeps_inv (s := { s with inputs := rest }) h hstep
  · cases hstep
    exact inv_hardwareReset _

end Sys2Proof.Proofs
end

section
/-! SUPPORT. The coordinate transforms as equations in the integers modulo P (44_coord_transform.md R221 to R225): the
constants, the two maps, and how each map undoes the other. -/

namespace Sys2Proof.Machine

open Sys2Proof.Claims

/-! ### Residues and units modulo p (00_scope.md R11) -/

section

variable {p : Nat}

theorem exists_invMod [NeZero p] {a : Nat} (h : IsUnit (a : ZMod p)) :
    ∃ x, invMod a p = some x ∧ (a : ZMod p) * x = 1 := by
  obtain ⟨x, hx⟩ := Option.ne_none_iff_exists'.mp fun hnone =>
    invMod_eq_none_iff_not_coprime.mp hnone ((ZMod.isUnit_iff_coprime a p).mp h)
  obtain ⟨-, -, hmul⟩ := invMod_eq_some (NeZero.ne p) hx
  exact ⟨x, hx, by exact_mod_cast (ZMod.natCast_eq_natCast_iff' (a * x) 1 p).mpr hmul⟩

theorem invMod_of_not_isUnit {a : Nat} (h : ¬ IsUnit (a : ZMod p)) : invMod a p = none :=
  invMod_eq_none_iff_not_coprime.mpr fun hcop => h ((ZMod.isUnit_iff_coprime a p).mpr hcop)

theorem isUnit_intCast_iff_gcd (z : Int) : IsUnit (z : ZMod p) ↔ Int.gcd z p = 1 := by
  rw [ZMod.coe_int_isUnit_iff_isCoprime, isCoprime_comm, Int.isCoprime_iff_gcd_eq_one]

theorem natCast_ne_zero_of_lt {n : Nat} (h0 : n ≠ 0) (h : n < p) : (n : ZMod p) ≠ 0 := fun hzero =>
  Nat.not_dvd_of_pos_of_lt (Nat.pos_of_ne_zero h0) h ((ZMod.natCast_eq_zero_iff n p).mp hzero)

theorem eq_of_natCast_eq {a b : Nat} (ha : a < p) (hb : b < p) (h : (a : ZMod p) = b) : a = b :=
  Nat.ModEq.eq_of_lt_of_lt ((ZMod.natCast_eq_natCast_iff a b p).mp h) ha hb

theorem eq_mod_of_natCast_eq {a b : Nat} (ha : a < p) (h : (a : ZMod p) = b) : a = b % p :=
  eq_of_natCast_eq ha (Nat.mod_lt b (Nat.zero_lt_of_lt ha)) (by rw [h, ZMod.natCast_mod])

/-- `(z · i) mod p`, with i the inverse of a, is the residue that solves r a = z. -/
theorem natCast_mul_mod_mul {a : ZMod p} {i : Nat} (hi : a * i = 1) (z : Nat) :
    ((z * i % p : Nat) : ZMod p) * a = z := by
  rw [ZMod.natCast_mod, Nat.cast_mul, mul_assoc, mul_comm (i : ZMod p), hi, mul_one]

end

/-! ### The constants (44_coord_transform.md R221, R222) -/

section

variable {p e d es et : Nat}

theorem coprime_six_iff : Nat.Coprime 6 p ↔ ¬ (2 ∣ p ∨ 3 ∣ p) := by
  rw [show 6 = 2 * 3 from rfl, Nat.coprime_mul_iff_left, Nat.prime_two.coprime_iff_not_dvd,
    Nat.prime_three.coprime_iff_not_dvd, not_or]

theorem coprime_six_of_prime (hp : p.Prime) (h3 : 3 < p) : Nat.Coprime 6 p := by
  rw [coprime_six_iff, Nat.prime_dvd_prime_iff_eq Nat.prime_two hp, Nat.prime_dvd_prime_iff_eq Nat.prime_three hp]
  omega

theorem edConsts_of_not_coprime (h : ¬ Nat.Coprime 6 p) : edConsts p e d = .error .notInvertible := by
  unfold edConsts
  rw [invMod_eq_none_iff_not_coprime.mpr h]
  cases invMod 4 p <;> rfl

/-- The two congruences have one solution in [0, P): where EdConsts() succeeds it finds it. -/
theorem edConsts_of_coprime (hp : p ≠ 0) (hcop : Nat.Coprime 6 p) (hes : es < p) (het : et < p)
    (h4 : 4 * (es : ZMod p) = e - d) (h6 : 6 * (et : ZMod p) = e + d) : edConsts p e d = .ok (es, et) := by
  have : NeZero p := ⟨hp⟩
  have hcop4 : Nat.Coprime 4 p := (Nat.Coprime.coprime_dvd_left (by decide : 2 ∣ 6) hcop).pow_left 2
  obtain ⟨i4, hi4, hmul4⟩ := exists_invMod ((ZMod.isUnit_iff_coprime 4 p).mpr hcop4)
  obtain ⟨i6, hi6, hmul6⟩ := exists_invMod ((ZMod.isUnit_iff_coprime 6 p).mpr hcop)
  have hs : subMod e d p * i4 % p = es := by
    refine eq_of_natCast_eq (Nat.mod_lt _ (Nat.pos_of_ne_zero hp)) hes ?_
    push_cast [ZMod.natCast_mod, cast_subMod] at hmul4 ⊢
    linear_combination (es : ZMod p) * hmul4 - (i4 : ZMod p) * h4
  have ht : (e + d) % p * i6 % p = et := by
    refine eq_of_natCast_eq (Nat.mod_lt _ (Nat.pos_of_ne_zero hp)) het ?_
    push_cast [ZMod.natCast_mod] at hmul6 ⊢
    linear_combination (et : ZMod p) * hmul6 - (i6 : ZMod p) * h6
  unfold edConsts
  rw [hi4, hi6, ← hs, ← ht]

variable {s : State}

/-- The constants a statement names are the pair a transform obtains. -/
theorem edPair_of_constants (hp : s.curve.p.toNat ≠ 0) (h : TransformConstants s es et)
    (hcop : s.cache.edv = false → Nat.Coprime 6 s.curve.p.toNat) : s.edPair = .ok (es, et) := by
  unfold TransformConstants at h
  cases hv : s.cache.edv with
  | true =>
    obtain ⟨rfl, rfl⟩ : es = s.cache.eds.toNat ∧ et = s.cache.edt.toNat := by simpa [hv] using h
    exact edPair_valid s hv
  | false =>
    rw [hv, if_neg Bool.false_ne_true] at h
    obtain ⟨hes, het, h4, h6⟩ := h
    rw [edPair_invalid s hv]
    refine edConsts_of_coprime hp (hcop hv) hes het ?_ ?_
    · exact_mod_cast ((ZMod.intCast_eq_intCast_iff_dvd_sub _ _ _).mpr h4).symm
    · exact_mod_cast ((ZMod.intCast_eq_intCast_iff_dvd_sub _ _ _).mpr h6).symm

theorem edPair_of_not_coprime (hv : s.cache.edv = false) (h : ¬ Nat.Coprime 6 s.curve.p.toNat) :
    s.edPair = .error .notInvertible :=
  (edPair_invalid s hv).trans (edConsts_of_not_coprime h)

/-- With a coherent cache both constants are residues of P, cached or not. -/
theorem edPair_lt (hp : s.curve.p.toNat ≠ 0) (hcache : Safety.CacheCoherent s) (h : s.edPair = .ok (es, et)) :
    es < s.curve.p.toNat ∧ et < s.curve.p.toNat :=
  edConsts_lt hp ((edPair_invalid s.dropCache rfl).symm.trans ((edPair_dropCache hcache).trans h))

/-- Both constants fit their registers: they stand in them, or they are residues of P. -/
theorem toNat_toBig_of_edPair (hp : s.curve.p.toNat ≠ 0) (h : s.edPair = .ok (es, et)) :
    (toBig es).toNat = es ∧ (toBig et).toNat = et := by
  cases hv : s.cache.edv with
  | true =>
    rw [edPair_valid s hv] at h
    cases h
    exact ⟨congrArg _ (toBig_toNat _), congrArg _ (toBig_toNat _)⟩
  | false =>
    rw [edPair_invalid s hv] at h
    obtain ⟨hes, het⟩ := edConsts_lt hp h
    exact ⟨toNat_toBig_of_lt_p hes, toNat_toBig_of_lt_p het⟩

/-- Filling the cache with the pair in use leaves that pair in it, also where it stood there already. -/
theorem fillCache_of_edPair (h : s.edPair = .ok (es, et)) :
    s.fillCache es et = { s with cache := ⟨true, toBig es, toBig et⟩ } := by
  cases hv : s.cache.edv with
  | true =>
    rw [edPair_valid s hv] at h
    cases h
    rw [State.fillCache_valid _ _ _ hv, toBig_toNat, toBig_toNat, ← hv]
  | false => exact State.fillCache_invalid _ _ _ hv

end

/-! ### The two maps (44_coord_transform.md R223, R224) -/

/-- (u, v) is the residue pair that solves the map to Edwards form at (x, y). -/
structure EdwardsImage (p es et x y u v : Nat) : Prop where
  u_lt : u < p
  v_lt : v < p
  u_eq : (u : ZMod p) * y = x - et
  v_eq : (v : ZMod p) * (x - et + es) = x - et - es

/-- (x, y) is the residue pair that solves the inverse map at (u, v). -/
structure WeierstrassImage (p es et u v x y : Nat) : Prop where
  x_lt : x < p
  y_lt : y < p
  x_eq : ((x : ZMod p) - et) * (1 - v) = es * (1 + v)
  y_eq : (y : ZMod p) * u = x - et

section

variable {p es et x y u v : Nat}

/-- The denominator of v as the model computes it. -/
theorem natCast_edwardsDen [NeZero p] (es et x : Nat) :
    (((subMod x et p + es) % p : Nat) : ZMod p) = x - et + es := by
  rw [ZMod.natCast_mod, Nat.cast_add, cast_subMod]

/-- The denominator of x - edT as the model computes it. -/
theorem natCast_weierstrassDen [NeZero p] (v : Nat) : ((subMod 1 v p : Nat) : ZMod p) = 1 - v := by
  rw [cast_subMod, Nat.cast_one]

theorem toEdwards_of_isUnit [NeZero p] (hy : IsUnit (y : ZMod p)) (hden : IsUnit ((x : ZMod p) - et + es)) :
    ∃ u v, toEdwards p es et x y = some (u, v) ∧ EdwardsImage p es et x y u v := by
  rw [← natCast_edwardsDen] at hden
  obtain ⟨iy, hiy, hmuly⟩ := exists_invMod hy
  obtain ⟨iden, hiden, hmulden⟩ := exists_invMod hden
  rw [natCast_edwardsDen] at hmulden
  have hlt : ∀ n, n % p < p := fun n => Nat.mod_lt n (NeZero.pos p)
  have hmap : toEdwards p es et x y =
      some (subMod x et p * iy % p, subMod (subMod x et p) es p * iden % p) := by simp only [toEdwards, hiy, hiden]
  refine ⟨_, _, hmap, hlt _, hlt _, ?_, ?_⟩
  · rw [natCast_mul_mod_mul hmuly, cast_subMod]
  · rw [natCast_mul_mod_mul hmulden, cast_subMod, cast_subMod]

theorem toEdwards_of_not_isUnit [NeZero p] (h : ¬ IsUnit (y : ZMod p) ∨ ¬ IsUnit ((x : ZMod p) - et + es)) :
    toEdwards p es et x y = none := by
  rcases h with hy | hden
  · simp only [toEdwards, invMod_of_not_isUnit hy]
  · rw [← natCast_edwardsDen] at hden
    simp only [toEdwards, invMod_of_not_isUnit hden]
    cases invMod y p <;> rfl

theorem toWeierstrass_of_isUnit [NeZero p] (hu : IsUnit (u : ZMod p)) (hden : IsUnit (1 - (v : ZMod p))) :
    ∃ x y, toWeierstrass p es et u v = some (x, y) ∧ WeierstrassImage p es et u v x y := by
  rw [← natCast_weierstrassDen] at hden
  obtain ⟨iu, hiu, hmulu⟩ := exists_invMod hu
  obtain ⟨iden, hiden, hmulden⟩ := exists_invMod hden
  rw [natCast_weierstrassDen] at hmulden
  have hlt : ∀ n, n % p < p := fun n => Nat.mod_lt n (NeZero.pos p)
  have hmap : toWeierstrass p es et u v =
      some ((es * (1 + v) % p * iden % p + et) % p, es * (1 + v) % p * iden % p * iu % p) := by
    simp only [toWeierstrass, hiu, hiden]
  have hx (w : Nat) : (((w + et) % p : Nat) : ZMod p) - et = w := by
    rw [ZMod.natCast_mod, Nat.cast_add, add_sub_cancel_right]
  refine ⟨_, _, hmap, hlt _, hlt _, ?_, ?_⟩
  · rw [hx, natCast_mul_mod_mul hmulden, ZMod.natCast_mod, Nat.cast_mul, Nat.cast_add, Nat.cast_one]
  · rw [hx, natCast_mul_mod_mul hmulu]

theorem toWeierstrass_of_not_isUnit [NeZero p] (h : ¬ IsUnit (u : ZMod p) ∨ ¬ IsUnit (1 - (v : ZMod p))) :
    toWeierstrass p es et u v = none := by
  rcases h with hu | hden
  · simp only [toWeierstrass, invMod_of_not_isUnit hu]
    cases invMod (subMod 1 v p) p <;> rfl
  · rw [← natCast_weierstrassDen] at hden
    simp only [toWeierstrass, invMod_of_not_isUnit hden]

end

/-! ### The round trips in the field of P (44_coord_transform.md R225) -/

section

variable {p es et x y u v x' y' u' v' : Nat} [Fact p.Prime]

/-- (1 - v)(w + s) = 2 s, so the denominator of the inverse map is not 0 at an image. -/
theorem EdwardsImage.one_sub_v_ne_zero (h : EdwardsImage p es et x y u v) (h2 : (2 : ZMod p) ≠ 0)
    (hes : (es : ZMod p) ≠ 0) : 1 - (v : ZMod p) ≠ 0 := by
  intro h0
  have h2s : 2 * (es : ZMod p) = 0 := by linear_combination (x - et + es : ZMod p) * h0 + h.v_eq
  exact (mul_ne_zero h2 hes) h2s

theorem EdwardsImage.u_ne_zero (h : EdwardsImage p es et x y u v) (hw : (x : ZMod p) - et ≠ 0) : (u : ZMod p) ≠ 0 :=
  left_ne_zero_of_mul (h.u_eq ▸ hw)

/-- The inverse map takes the image back: 2 s (x' - x) = 0 and u (y' - y) = 0. -/
theorem WeierstrassImage.undoes (h' : WeierstrassImage p es et u v x' y') (h : EdwardsImage p es et x y u v)
    (h2 : (2 : ZMod p) ≠ 0) (hes : (es : ZMod p) ≠ 0) (hw : (x : ZMod p) - et ≠ 0) : x' = x % p ∧ y' = y % p := by
  have hx : (x' : ZMod p) = x := by
    refine mul_left_cancel₀ (mul_ne_zero h2 hes) ?_
    linear_combination (x - et + es : ZMod p) * h'.x_eq + (x' - et + es : ZMod p) * h.v_eq
  have hy : (y' : ZMod p) = y := by
    refine mul_right_cancel₀ (h.u_ne_zero hw) ?_
    linear_combination h'.y_eq - h.u_eq + hx
  exact ⟨eq_mod_of_natCast_eq h'.x_lt hx, eq_mod_of_natCast_eq h'.y_lt hy⟩

/-- (w + s)(1 - v) = 2 s, so the denominator of the map to Edwards form is not 0 at an image. -/
theorem WeierstrassImage.den_ne_zero (h : WeierstrassImage p es et u v x y) (h2 : (2 : ZMod p) ≠ 0)
    (hes : (es : ZMod p) ≠ 0) : (x : ZMod p) - et + es ≠ 0 := by
  intro h0
  have h2s : 2 * (es : ZMod p) = 0 := by linear_combination (1 - v : ZMod p) * h0 - h.x_eq
  exact (mul_ne_zero h2 hes) h2s

/-- y u (1 - v) = s (1 + v), so y is not 0 at an image. -/
theorem WeierstrassImage.y_ne_zero (h : WeierstrassImage p es et u v x y) (hes : (es : ZMod p) ≠ 0)
    (hv : (v : ZMod p) + 1 ≠ 0) : (y : ZMod p) ≠ 0 := by
  have hprod : (y : ZMod p) * (u * (1 - v)) = es * (v + 1) := by
    linear_combination (1 - v : ZMod p) * h.y_eq + h.x_eq
  exact left_ne_zero_of_mul (hprod ▸ mul_ne_zero hes hv)

/-- The map to Edwards form takes the image back: y (u' - u) = 0 and 2 s (v' - v) = 0. -/
theorem EdwardsImage.undoes (h' : EdwardsImage p es et x y u' v') (h : WeierstrassImage p es et u v x y)
    (h2 : (2 : ZMod p) ≠ 0) (hes : (es : ZMod p) ≠ 0) (hv : (v : ZMod p) + 1 ≠ 0) : u' = u % p ∧ v' = v % p := by
  have hu : (u' : ZMod p) = u := by
    refine mul_right_cancel₀ (h.y_ne_zero hes hv) ?_
    linear_combination h'.u_eq - h.y_eq
  have hv : (v' : ZMod p) = v := by
    refine mul_left_cancel₀ (mul_ne_zero h2 hes) ?_
    linear_combination (1 - v : ZMod p) * h'.v_eq + (1 - v' : ZMod p) * h.x_eq
  exact ⟨eq_mod_of_natCast_eq h'.u_lt hu, eq_mod_of_natCast_eq h'.v_lt hv⟩

/-- With s = 0 numerator and denominator of v are equal. -/
theorem EdwardsImage.v_eq_one (h : EdwardsImage p 0 et x y u v) (hw : (x : ZMod p) - et ≠ 0) : v = 1 := by
  have hone : (v : ZMod p) = (1 : Nat) := by
    refine mul_right_cancel₀ hw ?_
    have := h.v_eq
    push_cast at this ⊢
    linear_combination this
  exact eq_of_natCast_eq h.v_lt (Fact.out : p.Prime).one_lt hone

end

/-! ### A transform past its checks (44_coord_transform.md R220, R222) -/

section

variable {rd ra rx : Reg} {s t : State} {p es et x y a b : Nat}

theorem pointReg_eq_false_iff (r : Reg) : pointReg r = false ↔ r.val % 2 = 1 := by
  rw [← Bool.not_eq_true', oddCheck_iff]

/-- Both transforms are the completion of the common checks and of one map. -/
theorem exec_transform {i : Instr} (hi : i ∈ [Instr.toedw rd ra, .towei rd ra]) (s : State) :
    ∃ f : Nat → Nat → Nat → Option (Nat × Nat), exec i s = .next
      (s.complete (s.withTransform rd ra fun p es et => transformResult rd es et s (f p es et))) := by
  simp only [List.mem_cons, List.not_mem_nil, or_false] at hi
  rcases hi with rfl | rfl
  · exact ⟨fun p es et => toEdwards p es et s.v[ra].toNat s.v[ra + 1].toNat, rfl⟩
  · exact ⟨fun p es et => toWeierstrass p es et s.v[ra].toNat s.v[ra + 1].toNat, rfl⟩

/-- Where the checks before the constants pass and the constants fail, both transforms are NOT_INVERTIBLE. -/
theorem transform_fails_of_edPair {i : Instr} (hi : i ∈ [Instr.toedw rd ra, .towei rd ra]) (hrd : rd.val % 2 = 0)
    (hra : ra.val % 2 = 0) (hedw : s.edw = true) (hp : s.curve.p.toNat ≠ 0)
    (hpair : s.edPair = .error .notInvertible) : ∃ t, exec i s = .next t ∧ FailsWith .notInvertible s t := by
  obtain ⟨f, hexec⟩ := exec_transform hi s
  rw [State.withTransform, (pointReg_iff rd).mpr hrd, (pointReg_iff ra).mpr hra, hedw, if_neg hp, hpair] at hexec
  exact ⟨_, hexec, failsWith_complete s .notInvertible⟩

theorem errcode_of_writesPairAndCache (h : WritesPairAndCache rd a b es et s t) : t.errcode = .none := by
  obtain ⟨-, -, -, -, -, -, -, -, -, herr, -⟩ := h
  exact herr

/-- All checks of a transform pass; p is the modulus, (es, et) the pair it obtains and (x, y) the pair it maps. -/
structure TransformReady (rd ra : Reg) (s : State) (p es et x y : Nat) : Prop where
  rd_even : rd.val % 2 = 0
  ra_even : ra.val % 2 = 0
  edw : s.edw = true
  p_eq : s.curve.p.toNat = p
  p_ne_zero : p ≠ 0
  pair : s.edPair = .ok (es, et)
  x_eq : s.natV ra = x
  y_eq : s.natV (yReg ra) = y

theorem transformReady_of_constants (hrd : rd.val % 2 = 0) (hra : ra.val % 2 = 0) (hedw : s.edw = true)
    (hp : s.curve.p.toNat ≠ 0) (hcop : s.cache.edv = false → Nat.Coprime 6 s.curve.p.toNat)
    (hconsts : TransformConstants s es et) :
    TransformReady rd ra s s.curve.p.toNat es et (s.natV ra) (s.natV (yReg ra)) :=
  ⟨hrd, hra, hedw, rfl, hp, edPair_of_constants hp hconsts hcop, rfl, rfl⟩

theorem transformReady_of_prime (hrd : rd.val % 2 = 0) (hra : ra.val % 2 = 0) (hedw : s.edw = true)
    (hprime : s.curve.p.toNat.Prime) (h3 : 3 < s.curve.p.toNat) (hconsts : TransformConstants s es et) :
    TransformReady rd ra s s.curve.p.toNat es et (s.natV ra) (s.natV (yReg ra)) :=
  transformReady_of_constants hrd hra hedw hprime.ne_zero (fun _ => coprime_six_of_prime hprime h3) hconsts

namespace TransformReady

theorem withTransform_eq (h : TransformReady rd ra s p es et x y) (k : Nat → Nat → Nat → Result) :
    s.withTransform rd ra k = k p es et := by
  obtain ⟨hrd, hra, hedw, rfl, hp, hpair, -, -⟩ := h
  rw [State.withTransform, (pointReg_iff rd).mpr hrd, (pointReg_iff ra).mpr hra, hedw, if_neg hp, hpair]
  rfl

theorem exec_toedw (h : TransformReady rd ra s p es et x y) :
    exec (.toedw rd ra) s = .next (s.complete (transformResult rd es et s (toEdwards p es et x y))) := by
  rw [← h.x_eq, ← h.y_eq]
  exact congrArg (Host.Outcome.next ∘ s.complete) (h.withTransform_eq _)

theorem exec_towei (h : TransformReady rd ra s p es et x y) :
    exec (.towei rd ra) s = .next (s.complete (transformResult rd es et s (toWeierstrass p es et x y))) := by
  rw [← h.x_eq, ← h.y_eq]
  exact congrArg (Host.Outcome.next ∘ s.complete) (h.withTransform_eq _)

/-- The completion of a pair of residues: a pair write like that of the engine commands, and the cache filled. -/
theorem writesPairAndCache (h : TransformReady rd ra s p es et x y) (ha : a < p) (hb : b < p) :
    WritesPairAndCache rd a b es et s (s.complete (transformResult rd es et s (some (a, b)))) := by
  obtain ⟨-, -, -, rfl, hp, hpair, -, -⟩ := h
  obtain ⟨hx, hy, hregs, hflags, hbytes, -, hsettings, hcompletes⟩ :=
    endsWithAnswer_complete rd s (.ok ⟨toBig a, toBig b⟩)
  obtain ⟨hes, het⟩ := toNat_toBig_of_edPair hp hpair
  rw [transformResult, fillCache_of_edPair (s := s.setPoint rd _) hpair]
  exact ⟨(congrArg _ hx).trans (toNat_toBig_of_lt_p ha), (congrArg _ hy).trans (toNat_toBig_of_lt_p hb), hregs, hflags,
    hbytes, rfl, hes, het, hsettings, hcompletes⟩

/-- After a transform that succeeded another one passes its checks too, and takes the same constants from the cache. -/
theorem after (h : TransformReady rd ra s p es et x y) (hw : WritesPairAndCache rd a b es et s t)
    (hrx : rx.val % 2 = 0) : TransformReady rx rd t p es et a b := by
  obtain ⟨ha, hb, -, -, -, hedv, hes, het, ⟨-, -, -, -, -, hedw, hcurve, -, -⟩, -⟩ := hw
  have hpair : t.edPair = .ok (es, et) := by rw [edPair_valid t hedv, hes, het]
  exact ⟨hrx, h.rd_even, hedw.trans h.edw, hcurve ▸ h.p_eq, h.p_ne_zero, hpair, ha, hb⟩

theorem toedw_writes (h : TransformReady rd ra s p es et x y) (hy : IsUnit (y : ZMod p))
    (hden : IsUnit ((x : ZMod p) - et + es)) :
    ∃ t u v, exec (.toedw rd ra) s = .next t ∧ WritesPairAndCache rd u v es et s t ∧ EdwardsImage p es et x y u v := by
  have : NeZero p := ⟨h.p_ne_zero⟩
  obtain ⟨u, v, hmap, himage⟩ := toEdwards_of_isUnit hy hden
  exact ⟨_, u, v, hmap ▸ h.exec_toedw, h.writesPairAndCache himage.u_lt himage.v_lt, himage⟩

/-- TOWEI maps the pair (u, v) = (x, y) of the structure. -/
theorem towei_writes (h : TransformReady rd ra s p es et x y) (hu : IsUnit (x : ZMod p))
    (hden : IsUnit (1 - (y : ZMod p))) :
    ∃ t a b, exec (.towei rd ra) s = .next t ∧ WritesPairAndCache rd a b es et s t ∧
      WeierstrassImage p es et x y a b := by
  have : NeZero p := ⟨h.p_ne_zero⟩
  obtain ⟨a, b, hmap, himage⟩ := toWeierstrass_of_isUnit hu hden
  exact ⟨_, a, b, hmap ▸ h.exec_towei, h.writesPairAndCache himage.x_lt himage.y_lt, himage⟩

theorem toedw_fails (h : TransformReady rd ra s p es et x y)
    (hnot : ¬ IsUnit (y : ZMod p) ∨ ¬ IsUnit ((x : ZMod p) - et + es)) :
    ∃ t, exec (.toedw rd ra) s = .next t ∧ FailsWith .notInvertible s t := by
  have : NeZero p := ⟨h.p_ne_zero⟩
  have hexec := h.exec_toedw
  rw [toEdwards_of_not_isUnit hnot] at hexec
  exact ⟨_, hexec, failsWith_complete s .notInvertible⟩

theorem towei_fails (h : TransformReady rd ra s p es et x y)
    (hnot : ¬ IsUnit (x : ZMod p) ∨ ¬ IsUnit (1 - (y : ZMod p))) :
    ∃ t, exec (.towei rd ra) s = .next t ∧ FailsWith .notInvertible s t := by
  have : NeZero p := ⟨h.p_ne_zero⟩
  have hexec := h.exec_towei
  rw [toWeierstrass_of_not_isUnit hnot] at hexec
  exact ⟨_, hexec, failsWith_complete s .notInvertible⟩

/-- Under a coherent cache edS is a residue of P, so it is 0 in the field only where it is 0. -/
theorem natCast_es_ne_zero (h : TransformReady rd ra s p es et x y) (hcache : Safety.CacheCoherent s) (hes : es ≠ 0) :
    (es : ZMod p) ≠ 0 := by
  obtain ⟨-, -, -, rfl, hp, hpair, -, -⟩ := h
  obtain ⟨hlt, -⟩ := edPair_lt hp hcache hpair
  exact natCast_ne_zero_of_lt hes hlt

end TransformReady

end

end Sys2Proof.Machine
end

section
/-! The statements of the family 44_coord_transform.md, each from the laws above. -/

open Sys2Proof Sys2Proof.Machine Sys2Proof.Claims

namespace Sys2Proof.Proofs

/-- Settles O28: past its checks TOEDW is the completion of the residues that solve the map. -/
theorem toedwSolvesTheMap : Obligations.ToedwSolvesTheMap := by
  intro rd ra s es et hrd hra hedw hp hcop hconsts hy hden
  have hready : TransformReady rd ra s _ es et s.v[ra].toNat s.v[ra + 1].toNat :=
    transformReady_of_constants hrd hra hedw hp hcop hconsts
  rw [← ZMod.isUnit_iff_coprime] at hy
  rw [← isUnit_intCast_iff_gcd] at hden
  push_cast at hden
  obtain ⟨t, u, v, hexec, hwrites, himage⟩ := hready.toedw_writes hy hden
  refine ⟨t, u, v, hexec, hwrites, himage.u_lt, himage.v_lt, ?_, ?_⟩
  all_goals
    rw [← ZMod.intCast_eq_intCast_iff_dvd_sub]
    push_cast
  · exact himage.u_eq.symm
  · exact himage.v_eq.symm

/-- Settles O29: past its checks TOWEI is the completion of the residues that solve the inverse map. -/
theorem toweiSolvesTheInverseMap : Obligations.ToweiSolvesTheInverseMap := by
  intro rd ra s es et hrd hra hedw hp hcop hconsts hu hden
  have hready : TransformReady rd ra s _ es et s.v[ra].toNat s.v[ra + 1].toNat :=
    transformReady_of_constants hrd hra hedw hp hcop hconsts
  rw [← ZMod.isUnit_iff_coprime] at hu
  rw [← isUnit_intCast_iff_gcd] at hden
  push_cast at hden
  obtain ⟨t, x, y, hexec, hwrites, himage⟩ := hready.towei_writes hu hden
  refine ⟨t, x, y, hexec, hwrites, himage.x_lt, himage.y_lt, ?_, ?_⟩
  all_goals
    rw [← ZMod.intCast_eq_intCast_iff_dvd_sub]
    push_cast
  · exact himage.x_eq.symm
  · exact himage.y_eq.symm

/-- Settles O30: the statement's conditions are the checks' own, in their order; past them the map fails or is
completed. -/
theorem transformChecksInOrder : Obligations.TransformChecksInOrder := by
  intro rd ra s i hi
  obtain ⟨f, hexec⟩ := exec_transform hi s
  refine ⟨_, hexec, ?_⟩
  rcases withTransform_cases s rd ra fun p es et => transformResult rd es et s (f p es et) with
    ⟨hodd, e⟩ | ⟨⟨hrd, hra⟩, hchecks⟩
  · rw [pointReg_eq_false_iff, pointReg_eq_false_iff] at hodd
    rw [e, if_pos hodd]
    exact failsWith_complete s .illegalOperand
  rw [pointReg_iff] at hrd hra
  rw [if_neg (by omega)]
  rcases hchecks with ⟨hedw, e⟩ | ⟨hedw, ⟨hp, e⟩ | ⟨hp, ⟨-, e⟩ | ⟨es, et, hpair, e⟩⟩⟩
  · rw [e, if_pos hedw]
    exact failsWith_complete s .unsupportedCurveForm
  · rw [e, if_neg (by simp [hedw]), if_pos hp]
    exact failsWith_complete s .badModulus
  · rw [e, if_neg (by simp [hedw]), if_neg hp]
    split
    · exact failsWith_complete s .notInvertible
    · exact .inl (failsWith_complete s .notInvertible)
  · have hno : ¬ (s.cache.edv = false ∧ (2 ∣ s.curve.p.toNat ∨ 3 ∣ s.curve.p.toNat)) := by
      rintro ⟨hv, hdvd⟩
      have herror := edPair_of_not_coprime hv fun hcop => coprime_six_iff.mp hcop hdvd
      rw [hpair] at herror
      cases herror
    rw [e, if_neg (by simp [hedw]), if_neg hp, if_neg hno]
    cases f s.curve.p.toNat es et with
    | none => exact .inl (failsWith_complete s .notInvertible)
    | some pair => exact .inr rfl

/-- Settles O31: a denominator that shares a factor with P is no unit modulo P; where the constants themselves fail, so
does the transform. -/
theorem transformReportsNotInvertible : Obligations.TransformReportsNotInvertible := by
  intro rd ra s es et hrd hra hedw hp hconsts
  by_cases hcop : s.cache.edv = false → Nat.Coprime 6 s.curve.p.toNat
  · have hready : TransformReady rd ra s _ es et s.v[ra].toNat s.v[ra + 1].toNat :=
    transformReady_of_constants hrd hra hedw hp hcop hconsts
    simp only [ne_eq, ← ZMod.isUnit_iff_coprime, ← isUnit_intCast_iff_gcd]
    push_cast
    exact ⟨hready.toedw_fails, hready.towei_fails⟩
  · obtain ⟨hv, hnot⟩ := Classical.not_imp.mp hcop
    have hpair := edPair_of_not_coprime hv hnot
    exact ⟨fun _ => transform_fails_of_edPair (by simp) hrd hra hedw hp hpair,
      fun _ => transform_fails_of_edPair (by simp) hrd hra hedw hp hpair⟩

/-- Settles O33: in the field of P the conditions make all four denominators units, and TOWEI's equations at the image
have one solution. -/
theorem toweiUndoesToedw : Obligations.ToweiUndoesToedw := by
  intro rd ra rx s es et hrd hra hrx hedw hprime h3 hcache hconsts hes hy hw hden
  have : Fact s.curve.p.toNat.Prime := ⟨hprime⟩
  have hready : TransformReady rd ra s _ es et s.v[ra].toNat s.v[ra + 1].toNat :=
    transformReady_of_prime hrd hra hedw hprime h3 hconsts
  have h2 := natCast_ne_zero_of_lt two_ne_zero (by omega : 2 < s.curve.p.toNat)
  have hes := hready.natCast_es_ne_zero hcache hes
  simp only [← ZMod.intCast_zmod_eq_zero_iff_dvd] at hy hw hden
  push_cast at h2 hy hw hden
  obtain ⟨t, u, v, htoedw, hwrites, himage⟩ := hready.toedw_writes (.mk0 _ hy) (.mk0 _ hden)
  obtain ⟨t', x, y, htowei, hwrites', himage'⟩ := (hready.after hwrites hrx).towei_writes
    (.mk0 _ (himage.u_ne_zero hw)) (.mk0 _ (himage.one_sub_v_ne_zero h2 hes))
  have herr := errcode_of_writesPairAndCache hwrites
  have herr' := errcode_of_writesPairAndCache hwrites'
  obtain ⟨hx, hy, -⟩ := hwrites'
  obtain ⟨ex, ey⟩ := himage'.undoes himage h2 hes hw
  exact ⟨t, t', htoedw, herr, htowei, herr', hx.trans ex, hy.trans ey⟩

/-- Settles O34: in the field of P the conditions make all four denominators units, and TOEDW's equations at the image
have one solution. -/
theorem toedwUndoesTowei : Obligations.ToedwUndoesTowei := by
  intro rd ra rx s es et hrd hra hrx hedw hprime h3 hcache hconsts hes hu hv1 hv
  have : Fact s.curve.p.toNat.Prime := ⟨hprime⟩
  have hready : TransformReady rd ra s _ es et s.v[ra].toNat s.v[ra + 1].toNat :=
    transformReady_of_prime hrd hra hedw hprime h3 hconsts
  have h2 := natCast_ne_zero_of_lt two_ne_zero (by omega : 2 < s.curve.p.toNat)
  have hes := hready.natCast_es_ne_zero hcache hes
  simp only [← ZMod.intCast_zmod_eq_zero_iff_dvd] at hu hv1 hv
  push_cast at h2 hu hv1 hv
  obtain ⟨t, x, y, htowei, hwrites, himage⟩ := hready.towei_writes (.mk0 _ hu)
    (.mk0 _ (sub_ne_zero.mpr (sub_ne_zero.mp hv1).symm))
  obtain ⟨t', u, v, htoedw, hwrites', himage'⟩ := (hready.after hwrites hrx).toedw_writes
    (.mk0 _ (himage.y_ne_zero hes hv)) (.mk0 _ (himage.den_ne_zero h2 hes))
  have herr := errcode_of_writesPairAndCache hwrites
  have herr' := errcode_of_writesPairAndCache hwrites'
  obtain ⟨hx, hy, -⟩ := hwrites'
  obtain ⟨eu, ev⟩ := himage'.undoes himage h2 hes hv
  exact ⟨t, t', htowei, herr, htoedw, herr', hx.trans eu, hy.trans ev⟩

/-- Settles O35: TOEDW succeeds only where its denominators are units, and there v = 1, so that the denominator 1 - v of
TOWEI is 0. -/
theorem equalCoefficientsMakeToedwOneWay : Obligations.EqualCoefficientsMakeToedwOneWay := by
  intro rd ra rx s et hrd hra hrx hedw hprime h3 hconsts
  have : Fact s.curve.p.toNat.Prime := ⟨hprime⟩
  have hready : TransformReady rd ra s _ 0 et s.v[ra].toNat s.v[ra + 1].toNat :=
    transformReady_of_prime hrd hra hedw hprime h3 hconsts
  by_cases hunits : IsUnit (s.v[ra + 1].toNat : ZMod s.curve.p.toNat) ∧
      IsUnit ((s.v[ra].toNat : ZMod s.curve.p.toNat) - et + (0 : Nat))
  · obtain ⟨hy, hden⟩ := hunits
    obtain ⟨t, u, v, htoedw, hwrites, himage⟩ := hready.toedw_writes hy hden
    rw [Nat.cast_zero, add_zero] at hden
    obtain rfl := himage.v_eq_one hden.ne_zero
    have hfails := (hready.after hwrites hrx).towei_fails (.inr (by simp))
    obtain ⟨-, hv, -⟩ := hwrites
    have hone : t.v[rd + 1] = 1 := BitVec.eq_of_toNat_eq (hv.trans (BitVec.toNat_one (by decide)).symm)
    exact ⟨t, htoedw, fun _ => ⟨hone, hfails⟩⟩
  · obtain ⟨t, htoedw, hfails⟩ := hready.toedw_fails (not_and_or.mp hunits)
    have herr : t.errcode = .notInvertible := congrArg State.errcode hfails
    exact ⟨t, htoedw, fun hnone => absurd (herr.symm.trans hnone) (by decide)⟩

end Sys2Proof.Proofs
end

section
/-! SUPPORT. How a command or an illegal word ends: inside the frame of commands, with a code of its own list
(60_exceptions.md R271 to R274); what every step answers (R270), and the interrupt output (R280). -/

namespace Sys2Proof.Machine

open Sys2Proof.Claims

variable {s : State} {codes : List ErrCode}

/-! ### Completion (60_exceptions.md R273, R274) -/

/-- Every command finishes from a state inside its frame: with its writes made, or, after an error, the one before. -/
theorem exec_finish (i : Instr) (s : State) : ∃ u code, CommandFrame s u ∧ exec i s = .next (u.finish code) := by
  obtain ⟨r, hexec, hok⟩ := exec_complete i s
  cases hok with
  | error code _ => exact ⟨s, code, .refl s, hexec⟩
  | ok u hu => exact ⟨u, .none, hu, hexec⟩

/-- Where a completion reports an error, the result was that error. -/
theorem failsWith_of_complete {r : Result} (h : (s.complete r).errcode ≠ .none) :
    FailsWith (s.complete r).errcode s (s.complete r) := by
  cases r with
  | error code => exact failsWith_complete s code
  | ok u => exact absurd rfl h

/-- Any latched word, legal or not, is the completion of one result (30_encoding.md R97). -/
theorem runWord_complete (c : Word32) (s : State) : ∃ r, runWord c s = .next (s.complete r) := by
  cases hc : decode c with
  | none => exact ⟨.error .illegalCmd, runWord_illegal hc⟩
  | some i =>
    obtain ⟨r, hexec, -⟩ := exec_complete i s
    exact ⟨r, (runWord_legal hc).trans hexec⟩

theorem completionStep_answers (s : State) : ∃ t, completionStep s = .next t := by
  rcases completionStep_cases s with ⟨-, e⟩ | ⟨c, r, -, e, -⟩
  · exact ⟨s, e⟩
  · exact ⟨s.complete r, e⟩

/-! ### The codes a command can end with (60_exceptions.md R271) -/

/-- A check that fails ends with its code, and one that passes leaves the code to what follows. -/
theorem errcode_mem_of_check {check : Prop} [Decidable check] {code : ErrCode} {r : Result} (hcode : code ∈ codes)
    (hr : (s.complete r).errcode ∈ codes) : (s.complete (if check then .error code else r)).errcode ∈ codes := by
  split
  · exact hcode
  · exact hr

theorem errcode_mem_of_withModulus {ms : ModSel} {k : Nat → Result} (hzero : .badModulus ∈ codes)
    (hk : ∀ m, (s.complete (k m)).errcode ∈ codes) : (s.complete (s.withModulus ms k)).errcode ∈ codes :=
  errcode_mem_of_check hzero (hk _)

theorem errcode_mem_of_answer (rd : Reg) (a : Config.Answer) (hok : .none ∈ codes) (hfail : .engineFail ∈ codes) :
    (s.complete (answerResult rd s a)).errcode ∈ codes := by
  cases a with
  | ok pt => exact hok
  | fail => exact hfail

/-- An inverse that does not exist is the only error of MINV once M is known not to be 0 (41_field_arith.md R146). -/
theorem errcode_mem_of_minv (rd ra : Reg) (m : Nat) (hok : .none ∈ codes) (hno : .notInvertible ∈ codes) :
    (s.complete (minvResult rd ra s m)).errcode ∈ codes := by
  unfold minvResult
  split
  · exact hno
  · exact hok

/-- Both transforms end with the code of one of their checks, with NOT_INVERTIBLE of their map, or without error
(44_coord_transform.md R220 to R224). -/
theorem exec_transform_errcode_mem {rd ra : Reg} {i : Instr} (hi : i ∈ [Instr.toedw rd ra, .towei rd ra]) (s : State) :
    ∃ t, exec i s = .next t ∧
      t.errcode ∈ [.none, .illegalOperand, .unsupportedCurveForm, .badModulus, .notInvertible] := by
  obtain ⟨f, hexec⟩ := exec_transform hi s
  refine ⟨_, hexec, ?_⟩
  rcases withTransform_cases s rd ra fun p es et => transformResult rd es et s (f p es et) with
    ⟨-, e⟩ | ⟨-, ⟨-, e⟩ | ⟨-, ⟨-, e⟩ | ⟨-, ⟨-, e⟩ | ⟨es, et, -, e⟩⟩⟩⟩ <;> rw [e]
  case inr.inr.inr.inr =>
    cases f s.curve.p.toNat es et <;> simp [transformResult]
  all_goals simp

/-- Check by check, each command ends with a code of its list. -/
theorem exec_errcode_mem_mayRaise (i : Instr) (s : State) : ∃ t, exec i s = .next t ∧ t.errcode ∈ mayRaise i := by
  have hok : .none ∈ mayRaise i := by cases i <;> simp [mayRaise]
  cases i with
  | nop | mov | ldi | cmpeq => exact ⟨_, rfl, hok⟩
  | ldb | bcmp => exact ⟨_, rfl, errcode_mem_of_check (by simp [mayRaise]) hok⟩
  | stb =>
    refine ⟨_, rfl, errcode_mem_of_check ?_ (errcode_mem_of_check ?_ hok)⟩ <;> simp [mayRaise]
  | mred | mrednz | madd | msub | mmul | rchk =>
    exact ⟨_, rfl, errcode_mem_of_withModulus (by simp [mayRaise]) fun _ => hok⟩
  | minv rd ra ms =>
    refine ⟨_, rfl, errcode_mem_of_withModulus ?_ fun m => errcode_mem_of_minv rd ra m hok ?_⟩ <;> simp [mayRaise]
  | ecmul | ecmulb | ecadd =>
    refine ⟨_, rfl, errcode_mem_of_check ?_ (errcode_mem_of_answer _ _ hok ?_)⟩ <;> simp [mayRaise]
  | toedw rd ra | towei rd ra => exact exec_transform_errcode_mem (rd := rd) (ra := ra) (by simp) s
  | kdfx | htag =>
    refine ⟨_, rfl, errcode_mem_of_check ?_ (errcode_mem_of_check ?_ (errcode_mem_of_check ?_ hok))⟩ <;> simp [mayRaise]

/-! ### The interrupt output (60_exceptions.md R280) -/

theorem irq_of_not_done (h : s.done = false) : s.irq = false := by rw [State.irq, h, Bool.and_false]

theorem irq_of_masked (h : s.ie = false) : s.irq = false := by rw [State.irq, h, Bool.false_and]

/-- Completion sets DONE, so that IRQ is IE. -/
theorem irq_finish (s : State) (code : ErrCode) : (s.finish code).irq = s.ie := Bool.and_true s.ie

/-- A CTRL write that clears IE or resets leaves IRQ deasserted. -/
theorem irq_writeCtrl (s : State) {w : Word32} (h : w.getLsbD 0 = false ∨ w.getLsbD 2 = true) :
    (s.writeCtrl w).irq = false := by
  cases hreset : w.getLsbD 2 with
  | true =>
    rw [writeCtrl_softResets hreset]
    exact irq_of_not_done rfl
  | false =>
    rw [writeCtrl_keeps hreset]
    exact irq_of_masked (h.resolve_right (Bool.eq_false_iff.mp hreset))

/-- Writing 1 to DONE leaves IRQ deasserted. -/
theorem irq_writeStatus (s : State) {w : Word32} (h : w.getLsbD 1 = true) : (s.writeStatus w).irq = false :=
  irq_of_not_done (by simp [h])

end Sys2Proof.Machine
end

section
/-! The statements of the family 60_exceptions.md, each from the laws above. -/

open Sys2Proof Sys2Proof.Machine Sys2Proof.Claims

namespace Sys2Proof.Proofs

/-- Settles O9: every command finishes from a state inside its frame, and its checks raise the codes of its list. -/
theorem everyCommandCompletesOnce : Obligations.EveryCommandCompletesOnce := by
  intro i s
  obtain ⟨t, hexec, hcode⟩ := exec_errcode_mem_mayRaise i s
  obtain ⟨u, code, hframe, hfinish⟩ := exec_finish i s
  obtain rfl : u.finish code = t := Host.Outcome.next.inj (hfinish.symm.trans hexec)
  exact ⟨_, hexec, hcode, completes_finish hframe code, keepsSettings_finish hframe code⟩

/-- Settles O10: the completion of a latched word reports an error only where evaluating it gave that error and no
state. -/
theorem failedCommandChangesOnlyCompletionFields : Obligations.FailedCommandChangesOnlyCompletionFields := by
  intro c s t hrun herr
  obtain ⟨r, hcomplete⟩ := runWord_complete c s
  obtain rfl : s.complete r = t := Host.Outcome.next.inj (hcomplete.symm.trans hrun)
  exact failsWith_of_complete herr

/-- Settles O55: each clause is one kind of step, seen through its effect on IE and DONE. -/
theorem interruptFollowsCompletion : Obligations.InterruptFollowsCompletion := by
  intro s
  refine ⟨Bool.and_eq_true_iff, ?completion, ?hardwareReset, ?acceptance, ?clearDone, ?maskOrReset, ?refused⟩
  case completion =>
    intro i
    obtain ⟨u, code, hframe, hfinish⟩ := exec_finish i s
    exact ⟨_, hfinish, (irq_finish u code).trans hframe.ie⟩
  case hardwareReset =>
    intro rest hin
    exact ⟨_, step_of_hardwareReset hin, irq_of_not_done rfl⟩
  case acceptance =>
    intro w rest hin hidle
    exact ⟨_, step_write (r := .cmd) hin rfl rfl (busy_of_idle hidle), irq_of_not_done rfl⟩
  case clearDone =>
    intro w rest hin hdone
    exact ⟨_, step_write (r := .status) hin rfl rfl rfl, irq_writeStatus _ hdone⟩
  case maskOrReset =>
    intro w rest hin hbits
    exact ⟨_, step_write (r := .ctrl) hin rfl rfl rfl, irq_writeCtrl _ hbits⟩
  case refused =>
    intro off bits op rest hin hrefused
    obtain ⟨t, hstep, heffect, -⟩ := refusedAccessesAreExactlyTheListed s off bits op rest hin
    obtain rfl := heffect hrefused
    exact ⟨_, hstep, rfl⟩

/-- Settles O56: by the kinds of step; a completion slot is the only one that runs a command. -/
theorem everyStepAnswersNextState : Obligations.EveryStepAnswersNextState := by
  intro s
  rcases step_cases s with ⟨-, e⟩ | ⟨a, rest, -, e⟩ | ⟨rest, -, e⟩ | ⟨rest, -, e⟩ <;> rw [e]
  · exact completionStep_answers s
  · exact ⟨_, rfl⟩
  · exact completionStep_answers _
  · exact ⟨_, rfl⟩

end Sys2Proof.Proofs
end

section
/-! SUPPORT. The completion of a latched word that decodes, and what a hardware reset leaves (70_reset_and_hazards.md
R311, R312). -/

namespace Sys2Proof.Machine

/-- The completion of a legal word, beside `completionStep_illegal`. -/
theorem completionStep_legal {s : State} {c : Word32} {i : Instr} (hb : s.seq = .busy c) (h : decode c = some i) :
    completionStep s = exec i s :=
  (completionStep_busy hb).trans (runWord_legal h)

/-- Of the state before a hardware reset only the model's own fields are left (log entry 5). -/
theorem hardwareReset_with_inputs (s : State) (rest : List Input) :
    { s with inputs := rest }.hardwareReset = { State.reset with rdata := s.rdata, inputs := rest } := rfl

end Sys2Proof.Machine
end

section
/-! The statements of the family 70_reset_and_hazards.md, each from the laws of the kinds of step. -/

open Sys2Proof Sys2Proof.Machine Sys2Proof.Claims

namespace Sys2Proof.Proofs

/-- Settles O6: both ways to complete, in a slot and with no inputs left, are the completion step, whose word decodes. -/
theorem completionStepRunsDecodedCommand : Obligations.CompletionStepRunsDecodedCommand := by
  intro s c i hb hc
  constructor
  · intro hin
    exact (step_of_nil hin).trans (completionStep_legal hb hc)
  · intro rest hin
    have hrest : { s with inputs := rest }.seq = .busy c := hb
    exact (step_of_completion hin).trans (completionStep_legal hrest hc)

/-- Settles O50: the step law of a hardware reset, with the state it resets to written out. -/
theorem hardwareResetRestoresResetState : Obligations.HardwareResetRestoresResetState := by
  intro s rest hin
  rw [step_of_hardwareReset hin, hardwareReset_with_inputs]

end Sys2Proof.Proofs
end
